-- ==== Sys2Proof/Word.lean ====
section
/-! DEFINITION. The word types of MyISA (`00_scope.md` R8, R11; `20_memory.md` R101). -/

namespace Sys2Proof

/-- A 32-bit value: a general register, the program counter, an address, an instruction word
(R8, R20, R30, R100, R140). -/
abbrev Word := BitVec 32

/-- One byte of memory (R101). -/
abbrev Byte := BitVec 8

end Sys2Proof
end

