-- ==== Sys2Proof/Syntax.lean ====
section
/-! DEFINITION. The 47 instructions (`00_scope.md` R3), one constructor per row of
`spec/opcode_table.json`, in the table's order. Operands are in the order of the assembler syntax
(`30_encoding.md` R181). A `label` is its byte offset: 13 bits for a branch (R150), 21 bits for JAL
(R152), bit 0 zero in a well-formed term. Fields that the decoder ignores in FENCE and FENCEI (R167)
are kept, so that no bit of a word is lost. -/

namespace Sys2Proof

/-- A 5-bit register number (R156); 0 names `x0`. -/
abbrev RegNum := BitVec 5

/-- A 12-bit CSR address (R153). -/
abbrev CsrAddr := BitVec 12

/-- The instruction set. -/
inductive Instr where
  /-- R200 BNE: branch if not equal. -/
  | bne (rs1 rs2 : RegNum) (offset : BitVec 13)
  /-- R201 BEQ: branch if equal. -/
  | beq (rs1 rs2 : RegNum) (offset : BitVec 13)
  /-- R202 BLT: branch if less, signed. -/
  | blt (rs1 rs2 : RegNum) (offset : BitVec 13)
  /-- R203 BGE: branch if greater or equal, signed. -/
  | bge (rs1 rs2 : RegNum) (offset : BitVec 13)
  /-- R204 BLTU: branch if less, unsigned. -/
  | bltu (rs1 rs2 : RegNum) (offset : BitVec 13)
  /-- R205 BGEU: branch if greater or equal, unsigned. -/
  | bgeu (rs1 rs2 : RegNum) (offset : BitVec 13)
  /-- R220 AUIPC: add upper immediate to the pc. -/
  | auipc (rd : RegNum) (imm20 : BitVec 20)
  /-- R221 SLT: set if less, signed. -/
  | slt (rd rs1 rs2 : RegNum)
  /-- R222 SLTU: set if less, unsigned. -/
  | sltu (rd rs1 rs2 : RegNum)
  /-- R223 SLTI: set if less than the immediate, signed. -/
  | slti (rd rs1 : RegNum) (imm12 : BitVec 12)
  /-- R224 SLTIU: set if less than the sign-extended immediate, unsigned. -/
  | sltiu (rd rs1 : RegNum) (imm12 : BitVec 12)
  /-- R225 LUI: load upper immediate. -/
  | lui (rd : RegNum) (imm20 : BitVec 20)
  /-- R226 ADD. -/
  | add (rd rs1 rs2 : RegNum)
  /-- R227 SUB. -/
  | sub (rd rs1 rs2 : RegNum)
  /-- R228 ADDI. -/
  | addi (rd rs1 : RegNum) (imm12 : BitVec 12)
  /-- R240 JAL: jump and link. -/
  | jal (rd : RegNum) (offset : BitVec 21)
  /-- R241 JALR: jump and link register. -/
  | jalr (rd rs1 : RegNum) (offset : BitVec 12)
  /-- R250 XOR. -/
  | xor (rd rs1 rs2 : RegNum)
  /-- R251 OR. -/
  | or (rd rs1 rs2 : RegNum)
  /-- R252 AND. -/
  | and (rd rs1 rs2 : RegNum)
  /-- R253 ORI. -/
  | ori (rd rs1 : RegNum) (imm12 : BitVec 12)
  /-- R254 XORI. -/
  | xori (rd rs1 : RegNum) (imm12 : BitVec 12)
  /-- R255 ANDI. -/
  | andi (rd rs1 : RegNum) (imm12 : BitVec 12)
  /-- R260 SW: store word. -/
  | sw (rs2 : RegNum) (offset : BitVec 12) (rs1 : RegNum)
  /-- R261 LB: load byte, sign-extended. -/
  | lb (rd : RegNum) (offset : BitVec 12) (rs1 : RegNum)
  /-- R262 LH: load halfword, sign-extended. -/
  | lh (rd : RegNum) (offset : BitVec 12) (rs1 : RegNum)
  /-- R263 LW: load word. -/
  | lw (rd : RegNum) (offset : BitVec 12) (rs1 : RegNum)
  /-- R264 LBU: load byte, zero-extended. -/
  | lbu (rd : RegNum) (offset : BitVec 12) (rs1 : RegNum)
  /-- R265 LHU: load halfword, zero-extended. -/
  | lhu (rd : RegNum) (offset : BitVec 12) (rs1 : RegNum)
  /-- R266 SB: store byte. -/
  | sb (rs2 : RegNum) (offset : BitVec 12) (rs1 : RegNum)
  /-- R267 SH: store halfword. -/
  | sh (rs2 : RegNum) (offset : BitVec 12) (rs1 : RegNum)
  /-- R280 SRAI: arithmetic right shift by an immediate. -/
  | srai (rd rs1 : RegNum) (shamt5 : BitVec 5)
  /-- R281 SLLI: left shift by an immediate. -/
  | slli (rd rs1 : RegNum) (shamt5 : BitVec 5)
  /-- R282 SRA: arithmetic right shift. -/
  | sra (rd rs1 rs2 : RegNum)
  /-- R283 SRL: logical right shift. -/
  | srl (rd rs1 rs2 : RegNum)
  /-- R284 SLL: left shift. -/
  | sll (rd rs1 rs2 : RegNum)
  /-- R285 SRLI: logical right shift by an immediate. -/
  | srli (rd rs1 : RegNum) (shamt5 : BitVec 5)
  /-- R290 FENCEI: instruction fence; `imm12`, `rs1` and `rd` are the ignored fields of R167. -/
  | fencei (imm12 : BitVec 12) (rs1 rd : RegNum)
  /-- R291 FENCE: memory ordering fence; `fm` is R155's third field, `rs1` and `rd` are ignored. -/
  | fence (fm pred succ : BitVec 4) (rs1 rd : RegNum)
  /-- R308 CSRRCI: read and clear bits in a CSR, immediate. -/
  | csrrci (rd : RegNum) (csr : CsrAddr) (uimm5 : BitVec 5)
  /-- R301 ECALL: environment call. -/
  | ecall
  /-- R302 EBREAK: breakpoint. -/
  | ebreak
  /-- R303 CSRRW: read and write a CSR. -/
  | csrrw (rd : RegNum) (csr : CsrAddr) (rs1 : RegNum)
  /-- R304 CSRRS: read and set bits in a CSR. -/
  | csrrs (rd : RegNum) (csr : CsrAddr) (rs1 : RegNum)
  /-- R305 CSRRC: read and clear bits in a CSR. -/
  | csrrc (rd : RegNum) (csr : CsrAddr) (rs1 : RegNum)
  /-- R306 CSRRWI: read and write a CSR, immediate. -/
  | csrrwi (rd : RegNum) (csr : CsrAddr) (uimm5 : BitVec 5)
  /-- R307 CSRRSI: read and set bits in a CSR, immediate. -/
  | csrrsi (rd : RegNum) (csr : CsrAddr) (uimm5 : BitVec 5)
  deriving DecidableEq, Repr

end Sys2Proof
end

