-- ==== Sys2Proof/WellFormed.lean ====
section
/-! DEFINITION. The instruction terms that have an encoding (`30_encoding.md` R150, R152, R156):
every field value is legal, but the byte offset of a branch or of JAL has no bit 0 in the word and
must be even. -/

namespace Sys2Proof

/-- The check of a branch or JAL offset: bit 0 "has no field and is zero" (R150, R152). -/
def evenOffset {n : Nat} (offset : BitVec n) : Bool := !offset.getLsbD 0

/-- A term that the encoder can write without losing a bit. -/
def Instr.wellFormed (i : Instr) : Bool :=
  match i with
  | .bne _ _ offset => evenOffset offset
  | .beq _ _ offset => evenOffset offset
  | .blt _ _ offset => evenOffset offset
  | .bge _ _ offset => evenOffset offset
  | .bltu _ _ offset => evenOffset offset
  | .bgeu _ _ offset => evenOffset offset
  | .jal _ offset => evenOffset offset
  | .auipc _ _ | .slt _ _ _ | .sltu _ _ _ | .slti _ _ _ | .sltiu _ _ _ | .lui _ _ => true
  | .add _ _ _ | .sub _ _ _ | .addi _ _ _ | .jalr _ _ _ => true
  | .xor _ _ _ | .or _ _ _ | .and _ _ _ | .ori _ _ _ | .xori _ _ _ | .andi _ _ _ => true
  | .sw _ _ _ | .lb _ _ _ | .lh _ _ _ | .lw _ _ _ | .lbu _ _ _ | .lhu _ _ _ => true
  | .sb _ _ _ | .sh _ _ _ => true
  | .srai _ _ _ | .slli _ _ _ | .sra _ _ _ | .srl _ _ _ | .sll _ _ _ | .srli _ _ _ => true
  | .fencei _ _ _ | .fence _ _ _ _ _ => true
  | .csrrci _ _ _ | .ecall | .ebreak | .csrrw _ _ _ | .csrrs _ _ _ => true
  | .csrrc _ _ _ | .csrrwi _ _ _ | .csrrsi _ _ _ => true

end Sys2Proof
end

