-- ==== Sys2Proof/Decode.lean ====
section
/-! DEFINITION. The decoder and the encoder (`30_encoding.md` R140 to R174, `opcode_table.json`).
The decoder finds the one row of the table of R163 that a word matches and reads the fields of the
row's format; the encoder writes the fields into the same formats. -/

namespace Sys2Proof

/-! ### Fields of a word (R140 to R156) -/

/-- `opcode` = `w[6:0]` (R140). -/
def opcodeOf (w : Word) : BitVec 7 := w.extractLsb' 0 7

/-- `rd` = `w[11:7]` (R140). -/
def rdOf (w : Word) : RegNum := w.extractLsb' 7 5

/-- `funct3` = `w[14:12]` (R140). -/
def funct3Of (w : Word) : BitVec 3 := w.extractLsb' 12 3

/-- `rs1` = `w[19:15]` (R140); also the place of `uimm5` (R154). -/
def rs1Of (w : Word) : RegNum := w.extractLsb' 15 5

/-- `rs2` = `w[24:20]` (R140); also the place of `shamt5` (R149). -/
def rs2Of (w : Word) : RegNum := w.extractLsb' 20 5

/-- `funct7` = `w[31:25]` (R140). -/
def funct7Of (w : Word) : BitVec 7 := w.extractLsb' 25 7

/-- `imm12` = `w[31:20]` (R147); also the place of `csr` (R153). -/
def immIOf (w : Word) : BitVec 12 := w.extractLsb' 20 12

/-- The offset of a store, `w[31:25]` above `w[11:7]` (R148). -/
def immSOf (w : Word) : BitVec 12 := w.extractLsb' 25 7 ++ w.extractLsb' 7 5

/-- The offset of a branch, `w[31]`, `w[7]`, `w[30:25]`, `w[11:8]`, 0 (R150). -/
def immBOf (w : Word) : BitVec 13 :=
  w.extractLsb' 31 1 ++ w.extractLsb' 7 1 ++ w.extractLsb' 25 6 ++ w.extractLsb' 8 4 ++ 0#1

/-- `imm20` = `w[31:12]` (R151). -/
def immUOf (w : Word) : BitVec 20 := w.extractLsb' 12 20

/-- The offset of JAL, `w[31]`, `w[19:12]`, `w[20]`, `w[30:21]`, 0 (R152). -/
def immJOf (w : Word) : BitVec 21 :=
  w.extractLsb' 31 1 ++ w.extractLsb' 12 8 ++ w.extractLsb' 20 1 ++ w.extractLsb' 21 10 ++ 0#1

/-- `fm` = `w[31:28]` of FENCE (R155). -/
def fmOf (w : Word) : BitVec 4 := w.extractLsb' 28 4

/-- `pred` = `w[27:24]` of FENCE (R155). -/
def predOf (w : Word) : BitVec 4 := w.extractLsb' 24 4

/-- `succ` = `w[23:20]` of FENCE (R155). -/
def succOf (w : Word) : BitVec 4 := w.extractLsb' 20 4

/-! ### The table (R163) -/

/-- One row of R163: a word `w` is the row's instruction iff `w` and `mask` give `pat`; `build`
reads the fields of the row's format. -/
structure Row where
  /-- The row's mask. -/
  mask : Word
  /-- The row's `match` column. -/
  pat : Word
  /-- The instruction that a matching word stands for. -/
  build : Word → Instr

/-- The rows of the branch, integer and jump families. -/
def rowsControlInteger : List Row := [
  ⟨0x0000707F, 0x00001063, fun w => .bne (rs1Of w) (rs2Of w) (immBOf w)⟩,
  ⟨0x0000707F, 0x00000063, fun w => .beq (rs1Of w) (rs2Of w) (immBOf w)⟩,
  ⟨0x0000707F, 0x00004063, fun w => .blt (rs1Of w) (rs2Of w) (immBOf w)⟩,
  ⟨0x0000707F, 0x00005063, fun w => .bge (rs1Of w) (rs2Of w) (immBOf w)⟩,
  ⟨0x0000707F, 0x00006063, fun w => .bltu (rs1Of w) (rs2Of w) (immBOf w)⟩,
  ⟨0x0000707F, 0x00007063, fun w => .bgeu (rs1Of w) (rs2Of w) (immBOf w)⟩,
  ⟨0x0000007F, 0x00000017, fun w => .auipc (rdOf w) (immUOf w)⟩,
  ⟨0xFE00707F, 0x00002033, fun w => .slt (rdOf w) (rs1Of w) (rs2Of w)⟩,
  ⟨0xFE00707F, 0x00003033, fun w => .sltu (rdOf w) (rs1Of w) (rs2Of w)⟩,
  ⟨0x0000707F, 0x00002013, fun w => .slti (rdOf w) (rs1Of w) (immIOf w)⟩,
  ⟨0x0000707F, 0x00003013, fun w => .sltiu (rdOf w) (rs1Of w) (immIOf w)⟩,
  ⟨0x0000007F, 0x00000037, fun w => .lui (rdOf w) (immUOf w)⟩,
  ⟨0xFE00707F, 0x00000033, fun w => .add (rdOf w) (rs1Of w) (rs2Of w)⟩,
  ⟨0xFE00707F, 0x40000033, fun w => .sub (rdOf w) (rs1Of w) (rs2Of w)⟩,
  ⟨0x0000707F, 0x00000013, fun w => .addi (rdOf w) (rs1Of w) (immIOf w)⟩,
  ⟨0x0000007F, 0x0000006F, fun w => .jal (rdOf w) (immJOf w)⟩,
  ⟨0x0000707F, 0x00000067, fun w => .jalr (rdOf w) (rs1Of w) (immIOf w)⟩]

/-- The rows of the logical, memory and shift families. -/
def rowsDataMemory : List Row := [
  ⟨0xFE00707F, 0x00004033, fun w => .xor (rdOf w) (rs1Of w) (rs2Of w)⟩,
  ⟨0xFE00707F, 0x00006033, fun w => .or (rdOf w) (rs1Of w) (rs2Of w)⟩,
  ⟨0xFE00707F, 0x00007033, fun w => .and (rdOf w) (rs1Of w) (rs2Of w)⟩,
  ⟨0x0000707F, 0x00006013, fun w => .ori (rdOf w) (rs1Of w) (immIOf w)⟩,
  ⟨0x0000707F, 0x00004013, fun w => .xori (rdOf w) (rs1Of w) (immIOf w)⟩,
  ⟨0x0000707F, 0x00007013, fun w => .andi (rdOf w) (rs1Of w) (immIOf w)⟩,
  ⟨0x0000707F, 0x00002023, fun w => .sw (rs2Of w) (immSOf w) (rs1Of w)⟩,
  ⟨0x0000707F, 0x00000003, fun w => .lb (rdOf w) (immIOf w) (rs1Of w)⟩,
  ⟨0x0000707F, 0x00001003, fun w => .lh (rdOf w) (immIOf w) (rs1Of w)⟩,
  ⟨0x0000707F, 0x00002003, fun w => .lw (rdOf w) (immIOf w) (rs1Of w)⟩,
  ⟨0x0000707F, 0x00004003, fun w => .lbu (rdOf w) (immIOf w) (rs1Of w)⟩,
  ⟨0x0000707F, 0x00005003, fun w => .lhu (rdOf w) (immIOf w) (rs1Of w)⟩,
  ⟨0x0000707F, 0x00000023, fun w => .sb (rs2Of w) (immSOf w) (rs1Of w)⟩,
  ⟨0x0000707F, 0x00001023, fun w => .sh (rs2Of w) (immSOf w) (rs1Of w)⟩,
  ⟨0xFE00707F, 0x40005013, fun w => .srai (rdOf w) (rs1Of w) (rs2Of w)⟩,
  ⟨0xFE00707F, 0x00001013, fun w => .slli (rdOf w) (rs1Of w) (rs2Of w)⟩,
  ⟨0xFE00707F, 0x40005033, fun w => .sra (rdOf w) (rs1Of w) (rs2Of w)⟩,
  ⟨0xFE00707F, 0x00005033, fun w => .srl (rdOf w) (rs1Of w) (rs2Of w)⟩,
  ⟨0xFE00707F, 0x00001033, fun w => .sll (rdOf w) (rs1Of w) (rs2Of w)⟩,
  ⟨0xFE00707F, 0x00005013, fun w => .srli (rdOf w) (rs1Of w) (rs2Of w)⟩]

/-- The rows of the synchronization and system families. -/
def rowsSyncSystem : List Row := [
  ⟨0x0000707F, 0x0000100F, fun w => .fencei (immIOf w) (rs1Of w) (rdOf w)⟩,
  ⟨0x0000707F, 0x0000000F, fun w => .fence (fmOf w) (predOf w) (succOf w) (rs1Of w) (rdOf w)⟩,
  ⟨0x0000707F, 0x00007073, fun w => .csrrci (rdOf w) (immIOf w) (rs1Of w)⟩,
  ⟨0xFFFFFFFF, 0x00000073, fun _ => .ecall⟩,
  ⟨0xFFFFFFFF, 0x00100073, fun _ => .ebreak⟩,
  ⟨0x0000707F, 0x00001073, fun w => .csrrw (rdOf w) (immIOf w) (rs1Of w)⟩,
  ⟨0x0000707F, 0x00002073, fun w => .csrrs (rdOf w) (immIOf w) (rs1Of w)⟩,
  ⟨0x0000707F, 0x00003073, fun w => .csrrc (rdOf w) (immIOf w) (rs1Of w)⟩,
  ⟨0x0000707F, 0x00005073, fun w => .csrrwi (rdOf w) (immIOf w) (rs1Of w)⟩,
  ⟨0x0000707F, 0x00006073, fun w => .csrrsi (rdOf w) (immIOf w) (rs1Of w)⟩]

/-- The complete table of R163, 47 rows. -/
def opcodeTable : List Row := rowsControlInteger ++ rowsDataMemory ++ rowsSyncSystem

/-- The test of R163: the word is the row's instruction. -/
def rowMatches (w : Word) (r : Row) : Bool := w &&& r.mask == r.pat

/-! ### Decoding (R160, R170, R171) -/

/-- Why bytes or a word stand for no instruction. -/
inductive Reject where
  /-- Fewer than the four bytes of an instruction word (R140). -/
  | truncated
  /-- `w[6:0]` is none of the eleven opcodes of R161 (first line of R171). -/
  | unknownOpcode
  /-- A known opcode with an unassigned `funct3`, `funct7`, upper immediate or system word (the other
  lines of R171). -/
  | unassignedPattern
  deriving DecidableEq, Repr

/-- The eleven opcodes of R161. -/
def knownOpcodes : List (BitVec 7) :=
  [0x33, 0x13, 0x37, 0x17, 0x03, 0x23, 0x63, 0x6F, 0x67, 0x0F, 0x73]

/-- The name of the rejection of a word that matches no row (R171). -/
def rejectOf (w : Word) : Reject :=
  if knownOpcodes.contains (opcodeOf w) then .unassignedPattern else .unknownOpcode

/-- `Decode(w)` (R160): the one row that the word matches, with its fields, or a named rejection. -/
def decode (w : Word) : Except Reject Instr :=
  match opcodeTable.find? (rowMatches w) with
  | some r => .ok (r.build w)
  | none => .error (rejectOf w)

/-- The word of four bytes, lowest address first, in the little-endian order of R103 and R140. -/
def wordOfBytes (b0 b1 b2 b3 : Byte) : Word := b3 ++ b2 ++ b1 ++ b0

/-- Decodes the instruction at the front of a list of bytes, lowest address first, and gives the
bytes after it; total on any bytes. -/
def decodeBytes (bytes : List Byte) : Except Reject (Instr × List Byte) :=
  match bytes with
  | b0 :: b1 :: b2 :: b3 :: rest =>
    match decode (wordOfBytes b0 b1 b2 b3) with
    | .ok i => .ok (i, rest)
    | .error e => .error e
  | _ => .error .truncated

/-- The byte of a word at position `k`: byte 0 is the least significant and lies at the lowest
address (R103). -/
def wordByte (w : Word) (k : Nat) : Byte := w.extractLsb' (8 * k) 8

/-- The four bytes of a word in address order (R103, R106). -/
def bytesOfWord (w : Word) : List Byte := [wordByte w 0, wordByte w 1, wordByte w 2, wordByte w 3]

/-- The word whose low `nbits` bits are those of `w` and whose other bits are 0. -/
def wordOfTable (nbits w : Nat) : Word := BitVec.ofNat 32 (w % 2 ^ nbits)

/-- The instruction that the decoder reads from the bytes of an instruction whose bits are `w`,
numbered as `opcode_table.json` numbers them, laid out in memory as R140 says. -/
def decodeTableWord (nbits w : Nat) : Option Instr :=
  match decodeBytes (bytesOfWord (wordOfTable nbits w)) with
  | .ok (i, _) => some i
  | .error _ => none

/-! ### Encoding (R141 to R146) -/

/-- An R-type word (R141). -/
def encodeR (funct7 : BitVec 7) (rs2 rs1 : RegNum) (funct3 : BitVec 3) (rd : RegNum)
    (opcode : BitVec 7) : Word :=
  funct7 ++ rs2 ++ rs1 ++ funct3 ++ rd ++ opcode

/-- An I-type word (R142). -/
def encodeI (imm : BitVec 12) (rs1 : RegNum) (funct3 : BitVec 3) (rd : RegNum)
    (opcode : BitVec 7) : Word :=
  imm ++ rs1 ++ funct3 ++ rd ++ opcode

/-- An S-type word (R143): `imm[11:5]` at 31:25 and `imm[4:0]` at 11:7. -/
def encodeS (imm : BitVec 12) (rs2 rs1 : RegNum) (funct3 : BitVec 3) (opcode : BitVec 7) : Word :=
  imm.extractLsb' 5 7 ++ rs2 ++ rs1 ++ funct3 ++ imm.extractLsb' 0 5 ++ opcode

/-- A B-type word (R144): `imm[12]`, `imm[10:5]` above, `imm[4:1]`, `imm[11]` below; `imm[0]` has no
place. -/
def encodeB (imm : BitVec 13) (rs2 rs1 : RegNum) (funct3 : BitVec 3) (opcode : BitVec 7) : Word :=
  imm.extractLsb' 12 1 ++ imm.extractLsb' 5 6 ++ rs2 ++ rs1 ++ funct3 ++ imm.extractLsb' 1 4 ++
    imm.extractLsb' 11 1 ++ opcode

/-- A U-type word (R145). -/
def encodeU (imm : BitVec 20) (rd : RegNum) (opcode : BitVec 7) : Word := imm ++ rd ++ opcode

/-- A J-type word (R146): `imm[20]`, `imm[10:1]`, `imm[11]`, `imm[19:12]`; `imm[0]` has no place. -/
def encodeJ (imm : BitVec 21) (rd : RegNum) (opcode : BitVec 7) : Word :=
  imm.extractLsb' 20 1 ++ imm.extractLsb' 1 10 ++ imm.extractLsb' 11 1 ++ imm.extractLsb' 12 8 ++
    rd ++ opcode

/-- The word of an instruction, from the opcode, funct3 and funct7 columns of R163; SLLI, SRLI and
SRAI by R165, ECALL and EBREAK by R166, FENCE by R155. -/
def encode (i : Instr) : Word :=
  match i with
  | .bne rs1 rs2 offset => encodeB offset rs2 rs1 0x1 0x63
  | .beq rs1 rs2 offset => encodeB offset rs2 rs1 0x0 0x63
  | .blt rs1 rs2 offset => encodeB offset rs2 rs1 0x4 0x63
  | .bge rs1 rs2 offset => encodeB offset rs2 rs1 0x5 0x63
  | .bltu rs1 rs2 offset => encodeB offset rs2 rs1 0x6 0x63
  | .bgeu rs1 rs2 offset => encodeB offset rs2 rs1 0x7 0x63
  | .auipc rd imm20 => encodeU imm20 rd 0x17
  | .slt rd rs1 rs2 => encodeR 0x00 rs2 rs1 0x2 rd 0x33
  | .sltu rd rs1 rs2 => encodeR 0x00 rs2 rs1 0x3 rd 0x33
  | .slti rd rs1 imm12 => encodeI imm12 rs1 0x2 rd 0x13
  | .sltiu rd rs1 imm12 => encodeI imm12 rs1 0x3 rd 0x13
  | .lui rd imm20 => encodeU imm20 rd 0x37
  | .add rd rs1 rs2 => encodeR 0x00 rs2 rs1 0x0 rd 0x33
  | .sub rd rs1 rs2 => encodeR 0x20 rs2 rs1 0x0 rd 0x33
  | .addi rd rs1 imm12 => encodeI imm12 rs1 0x0 rd 0x13
  | .jal rd offset => encodeJ offset rd 0x6F
  | .jalr rd rs1 offset => encodeI offset rs1 0x0 rd 0x67
  | .xor rd rs1 rs2 => encodeR 0x00 rs2 rs1 0x4 rd 0x33
  | .or rd rs1 rs2 => encodeR 0x00 rs2 rs1 0x6 rd 0x33
  | .and rd rs1 rs2 => encodeR 0x00 rs2 rs1 0x7 rd 0x33
  | .ori rd rs1 imm12 => encodeI imm12 rs1 0x6 rd 0x13
  | .xori rd rs1 imm12 => encodeI imm12 rs1 0x4 rd 0x13
  | .andi rd rs1 imm12 => encodeI imm12 rs1 0x7 rd 0x13
  | .sw rs2 offset rs1 => encodeS offset rs2 rs1 0x2 0x23
  | .lb rd offset rs1 => encodeI offset rs1 0x0 rd 0x03
  | .lh rd offset rs1 => encodeI offset rs1 0x1 rd 0x03
  | .lw rd offset rs1 => encodeI offset rs1 0x2 rd 0x03
  | .lbu rd offset rs1 => encodeI offset rs1 0x4 rd 0x03
  | .lhu rd offset rs1 => encodeI offset rs1 0x5 rd 0x03
  | .sb rs2 offset rs1 => encodeS offset rs2 rs1 0x0 0x23
  | .sh rs2 offset rs1 => encodeS offset rs2 rs1 0x1 0x23
  | .srai rd rs1 shamt5 => encodeR 0x20 shamt5 rs1 0x5 rd 0x13
  | .slli rd rs1 shamt5 => encodeR 0x00 shamt5 rs1 0x1 rd 0x13
  | .sra rd rs1 rs2 => encodeR 0x20 rs2 rs1 0x5 rd 0x33
  | .srl rd rs1 rs2 => encodeR 0x00 rs2 rs1 0x5 rd 0x33
  | .sll rd rs1 rs2 => encodeR 0x00 rs2 rs1 0x1 rd 0x33
  | .srli rd rs1 shamt5 => encodeR 0x00 shamt5 rs1 0x5 rd 0x13
  | .fencei imm12 rs1 rd => encodeI imm12 rs1 0x1 rd 0x0F
  | .fence fm pred succ rs1 rd => encodeI (fm ++ pred ++ succ) rs1 0x0 rd 0x0F
  | .csrrci rd csr uimm5 => encodeI csr uimm5 0x7 rd 0x73
  | .ecall => encodeI 0x000 0 0x0 0 0x73
  | .ebreak => encodeI 0x001 0 0x0 0 0x73
  | .csrrw rd csr rs1 => encodeI csr rs1 0x1 rd 0x73
  | .csrrs rd csr rs1 => encodeI csr rs1 0x2 rd 0x73
  | .csrrc rd csr rs1 => encodeI csr rs1 0x3 rd 0x73
  | .csrrwi rd csr uimm5 => encodeI csr uimm5 0x5 rd 0x73
  | .csrrsi rd csr uimm5 => encodeI csr uimm5 0x6 rd 0x73

end Sys2Proof
end

