-- ==== Sys2Proof/Config.lean ====
section
/-! DEFINITION. What an implementation fixes (`00_scope.md` R9): the shape of a memory map, and the
free values, constants without a body that no proof can evaluate. The parameters to which the spec
gives a value or a default stand in `Sys2Proof/Machine/Platform.lean`. -/

namespace Sys2Proof.Config

/-- One range of the address space and the kinds of access it answers. The range holds the
addresses `base` to `base + size - 1` (R108). -/
structure Region where
  /-- The lowest address of the range. -/
  base : Nat
  /-- The number of bytes. -/
  size : Nat
  /-- Instruction fetches inside the range succeed. -/
  fetch : Bool
  /-- Loads inside the range succeed. -/
  load : Bool
  /-- Stores inside the range succeed. -/
  store : Bool
  deriving DecidableEq, Repr

/-- The parameter `MemMap` (R9, R108): an access succeeds iff one region holds all its bytes and
permits its kind. That a map is a finite list of regions is a DESIGN CHOICE (log entry 4). -/
abbrev MemMap := List Region

/-- FREE VALUE `CycleAdvance` (R9, R62): how far the counter `cycle` moves at the end of the step
with the given draw number. Unconstrained: it has no body (log entry 6). -/
opaque cycleAdvance : Nat → BitVec 64

/-- FREE VALUE of R86 and R126: whether, at the end of the step with the given draw number, the
instruction-fetch view of the given address is refilled from memory. Unconstrained: it has no body
(log entry 7). -/
opaque icacheRefill : Nat → Nat → Bool

end Sys2Proof.Config
end

