-- ==== Sys2Proof/Machine/Memory.lean ====
section
/-! DEFINITION. Memory as a list of (address, byte) pairs in one canonical form, and the memory map
(`10_state.md` R85, `20_memory.md` R100 to R108). -/

namespace Sys2Proof.Machine

/-! ### Lists of cells -/

/-- The byte that a list of cells holds for an address, if the address is listed. -/
def cellFind (cells : List Host.Cell) (a : Nat) : Option Byte :=
  match cells with
  | [] => none
  | (k, b) :: rest => if k = a then some b else cellFind rest a

/-- Lists `b` for the address `a`, in place of the entry `a` had, keeping rising addresses rising. -/
def cellInsert (cells : List Host.Cell) (a : Nat) (b : Byte) : List Host.Cell :=
  match cells with
  | [] => [(a, b)]
  | (k, c) :: rest =>
    if a < k then (a, b) :: (k, c) :: rest
    else if k = a then (a, b) :: rest
    else (k, c) :: cellInsert rest a b

/-- Takes the address `a` out of a list of cells. -/
def cellErase (cells : List Host.Cell) (a : Nat) : List Host.Cell :=
  cells.filter (fun c => !(c.1 == a))

/-! ### Memory -/

/-- The 2^32 bytes of memory (R85, R100), as the bytes that differ from `memoryUnlisted`. -/
abbrev Memory := List Host.Cell

/-- What a byte that nothing has written reads as. R395 leaves it unspecified; zero is a DESIGN
CHOICE (log entry 3, unsafe). -/
def memoryUnlisted : Byte := 0x00#8

/-- The byte at an address. -/
def Memory.read (m : Memory) (a : Nat) : Byte := (cellFind m a).getD memoryUnlisted

/-- Memory with the byte `b` at the address `a`, in canonical form: a byte equal to what an unlisted
address reads as is not listed. -/
def Memory.write (m : Memory) (a : Nat) (b : Byte) : Memory :=
  if b = memoryUnlisted then cellErase m a else cellInsert m a b

/-- Addresses strictly rising and inside the address space of R100. -/
abbrev cellsOrdered (cells : List Host.Cell) : Prop :=
  cells.Pairwise (fun c d => c.1 < d.1) ∧ ∀ c ∈ cells, c.1 < 2 ^ 32

/-- The canonical form of memory: ordered, and no entry equal to what an unlisted address reads as. -/
abbrev Memory.wf (m : Memory) : Prop := cellsOrdered m ∧ ∀ c ∈ m, c.2 ≠ memoryUnlisted

/-! ### The memory map (R108) -/

/-- A region holds all of the `n` bytes from the address `a`: "`base <= a and a + n <= base + size`"
(R108). -/
def regionHolds (r : Config.Region) (a : Word) (n : Nat) : Bool :=
  decide (r.base ≤ a.toNat) && decide (a.toNat + n ≤ r.base + r.size)

/-- `MemMap.fetch(a)` of R108, for the four bytes of an instruction word. -/
def mapFetch (m : Config.MemMap) (a : Word) : Bool := m.any (fun r => r.fetch && regionHolds r a 4)

/-- `MemMap.load(a, n)` of R108. -/
def mapLoad (m : Config.MemMap) (a : Word) (n : Nat) : Bool :=
  m.any (fun r => r.load && regionHolds r a n)

/-- `MemMap.store(a, n)` of R108. -/
def mapStore (m : Config.MemMap) (a : Word) (n : Nat) : Bool :=
  m.any (fun r => r.store && regionHolds r a n)

end Sys2Proof.Machine
end

