-- ==== Sys2Proof/Machine/Platform.lean ====
section
/-! DEFINITION. The values this model gives to the parameters and the reset values that
`00_scope.md` R9, `10_state.md` R88 and `70_reset_and_hazards.md` R391, R392 leave open. -/

namespace Sys2Proof.Machine

/-- `RESET_PC` (R391): 4-byte aligned. The spec gives no default; 0 is a DESIGN CHOICE (log entry 1). -/
def resetPc : Word := 0x00000000#32

/-- The value after reset of every general register and CSR cell, which R392 leaves unspecified.
Zero is a DESIGN CHOICE (log entry 2, unsafe). -/
def resetWord : Word := 0x00000000#32

/-- The value after reset of `cycle` and `instret`, which R392 leaves unspecified. Zero is a DESIGN
CHOICE (log entry 2, unsafe). -/
def resetCounter : BitVec 64 := 0#64

/-- The memory map of the reset state: the whole address space of R100 answers every access. R108
leaves the map OPEN; this default is a DESIGN CHOICE (log entry 4). -/
def resetMemMap : Config.MemMap := [⟨0, 2 ^ 32, true, true, true⟩]

/-- `CsrWritable(a)` (R41 (c)): the bits of a CSR that a CSR instruction can change, all of them for
every read/write CSR (log entry 5). -/
def csrWritable (_ : CsrAddr) : Word := 0xFFFFFFFF#32

end Sys2Proof.Machine
end

