-- ==== Sys2Proof/Machine/State.lean ====
section
/-! DEFINITION. The state of the machine as plain data (`10_state.md` R20 to R88), the reasons a step
can stop, and the state after reset (`70_reset_and_hazards.md` R390 to R395). -/

namespace Sys2Proof.Machine

/-- The privilege mode (R37, R360). Only `M` is reachable (R361; log entry 10). -/
inductive Priv where
  /-- User mode. -/
  | U
  /-- Supervisor mode. -/
  | S
  /-- Machine mode. -/
  | M
  deriving DecidableEq, Repr

/-- The eleven exceptions of `60_exceptions.md` R330 to R340, with the information each offers to
`mtval` (R18, R345). -/
inductive Exception where
  /-- Code 0 (R330): `pc` is not a multiple of 4 at the start of a step. -/
  | instrAddrMisaligned (pc : Word)
  /-- Code 1 (R331): the fetch at `pc` failed. -/
  | instrAccessFault (pc : Word)
  /-- Code 2 (R332): the word `w` is illegal, or is a CSR instruction that may not run. -/
  | illegalInstr (w : Word)
  /-- Code 3 (R333): EBREAK. -/
  | breakpoint
  /-- Code 4 (R334): a load from a misaligned address. -/
  | loadAddrMisaligned (ea : Word)
  /-- Code 5 (R335): a load from an address that does not answer. -/
  | loadAccessFault (ea : Word)
  /-- Code 6 (R336): a store to a misaligned address. -/
  | storeAddrMisaligned (ea : Word)
  /-- Code 7 (R337): a store to an address that does not answer. -/
  | storeAccessFault (ea : Word)
  /-- Code 8 (R338): ECALL in user mode. -/
  | ecallU
  /-- Code 9 (R339): ECALL in supervisor mode. -/
  | ecallS
  /-- Code 11 (R340): ECALL in machine mode. -/
  | ecallM
  deriving DecidableEq, Repr

/-- The reasons for which the machine stops with a fault: none. "A processor never stops by itself:
after every step there is a next step" (R405), and every exception of R330 to R340 is taken as a trap
(R350), which is a next state. -/
inductive Fault where
  deriving DecidableEq, Repr

/-- The reasons for which the model gives an instruction no meaning. -/
inductive Refusal where
  /-- Raised by `exec` for an instruction that has no meaning yet; no arm of this model raises it.
  Safe: the machine goes on where the model stops. -/
  | notModelled (mnemonic : String)
  deriving DecidableEq, Repr

/-- The 32 CSRs that are storage cells (R40, R41, R309), each under its own name. The six counter
CSRs are views of `cycle` and `instret` (R61). -/
structure CsrFile where
  /-- R42, address 0x300: Machine status register; bits 3, 7 and 12:11 are MIE, MPIE and MPP. -/
  mstatus : Word
  /-- R43, address 0x301: Machine ISA register; inert storage. -/
  misa : Word
  /-- R44, address 0x302: Machine exception delegation register; inert storage. -/
  medeleg : Word
  /-- R45, address 0x303: Machine interrupt delegation register; inert storage. -/
  mideleg : Word
  /-- R46, address 0x304: Machine interrupt-enable register; inert storage. -/
  mie : Word
  /-- R47, address 0x305: Machine trap-handler base address; every trap jumps to it. -/
  mtvec : Word
  /-- R48, address 0x306: Machine counter enable register; inert storage. -/
  mcounteren : Word
  /-- R49, address 0x340: Scratch register for machine-mode trap handlers. -/
  mscratch : Word
  /-- R50, address 0x341: Machine exception program counter; a trap writes it. -/
  mepc : Word
  /-- R51, address 0x342: Machine trap cause; a trap writes it. -/
  mcause : Word
  /-- R52, address 0x343: Machine trap value; a trap writes it. -/
  mtval : Word
  /-- R53, address 0x344: Machine interrupt pending register; inert storage. -/
  mip : Word
  /-- R54, address 0x3A0: Physical memory protection configuration 0; inert storage. -/
  pmpcfg0 : Word
  /-- R55, address 0x3B0: Physical memory protection address 0; inert storage. -/
  pmpaddr0 : Word
  /-- R56, address 0x3B1: Physical memory protection address 1; inert storage. -/
  pmpaddr1 : Word
  /-- R57, address 0x3B2: Physical memory protection address 2; inert storage. -/
  pmpaddr2 : Word
  /-- R58, address 0x3B3: Physical memory protection address 3; inert storage. -/
  pmpaddr3 : Word
  /-- R64, address 0xB03: Machine hardware performance counter 3; storage that does not count. -/
  mhpmcounter3 : Word
  /-- R65, address 0xB04: Machine hardware performance counter 4; storage that does not count. -/
  mhpmcounter4 : Word
  /-- R66, address 0xB05: Machine hardware performance counter 5; storage that does not count. -/
  mhpmcounter5 : Word
  /-- R67, address 0x323: Machine hardware performance event selector 3; inert storage. -/
  mhpmevent3 : Word
  /-- R68, address 0x324: Machine hardware performance event selector 4; inert storage. -/
  mhpmevent4 : Word
  /-- R69, address 0x325: Machine hardware performance event selector 5; inert storage. -/
  mhpmevent5 : Word
  /-- R74, address 0x100: Supervisor status register; inert storage, no alias of mstatus. -/
  sstatus : Word
  /-- R75, address 0x104: Supervisor interrupt-enable register; inert storage, no alias of mie. -/
  sie : Word
  /-- R76, address 0x105: Supervisor trap-handler base address; inert storage. -/
  stvec : Word
  /-- R77, address 0x140: Scratch register for supervisor-mode trap handlers. -/
  sscratch : Word
  /-- R78, address 0x141: Supervisor exception program counter; inert storage. -/
  sepc : Word
  /-- R79, address 0x142: Supervisor trap cause register; inert storage. -/
  scause : Word
  /-- R80, address 0x143: Supervisor trap value register; inert storage. -/
  stval : Word
  /-- R81, address 0x144: Supervisor interrupt pending register; inert storage, no alias of mip. -/
  sip : Word
  /-- R82, address 0x180: Supervisor address translation and protection; inert storage. -/
  satp : Word
  deriving DecidableEq, Repr

/-- The whole state of the machine (the table at the head of `10_state.md`), and two fields of the
model's own: the memory map of the platform and the number of the next draw. -/
structure State where
  /-- `x1` to `x31`, `x1` first (R20); there is no state behind `x0` (R21). -/
  regs : Vector Word 31
  /-- The address of the instruction being executed (R30). -/
  pc : Word
  /-- The privilege mode (R37). -/
  priv : Priv
  /-- The 32 CSR storage cells (R40). -/
  csrs : CsrFile
  /-- The 64-bit cycle counter (R61). -/
  cycle : BitVec 64
  /-- The 64-bit counter of retired instructions (R61). -/
  instret : BitVec 64
  /-- `Mem` (R85). -/
  mem : Memory
  /-- `IMem`, the instruction-fetch view (R86), as its difference from `Mem`: the addresses stored to
  since the last FENCEI (or reset), each with the byte that `IMem` holds there. Every other byte of
  `IMem` is the byte of `Mem` (R86). -/
  icache : List Host.Cell
  /-- The parameter `MemMap` (R108), carried in the state so that a statement about every state is
  about every map; no step changes it (log entry 4). The model's own field. -/
  memMap : Config.MemMap
  /-- The number of the next draw of the free values (log entries 6, 7, 8). The model's own field. -/
  draws : Nat
  deriving DecidableEq, Repr

/-- Every CSR cell at the value that the model names for reset (R88, R392; log entry 2). -/
def resetCsrs : CsrFile :=
  {
    mstatus := resetWord, misa := resetWord, medeleg := resetWord, mideleg := resetWord,
    mie := resetWord, mtvec := resetWord, mcounteren := resetWord, mscratch := resetWord,
    mepc := resetWord, mcause := resetWord, mtval := resetWord, mip := resetWord,
    pmpcfg0 := resetWord, pmpaddr0 := resetWord, pmpaddr1 := resetWord, pmpaddr2 := resetWord,
    pmpaddr3 := resetWord, mhpmcounter3 := resetWord, mhpmcounter4 := resetWord, mhpmcounter5 := resetWord,
    mhpmevent3 := resetWord, mhpmevent4 := resetWord, mhpmevent5 := resetWord, sstatus := resetWord,
    sie := resetWord, stvec := resetWord, sscratch := resetWord, sepc := resetWord,
    scause := resetWord, stval := resetWord, sip := resetWord, satp := resetWord }

/-- The state after reset (R88, R390) with `RESET_PC` = `pc` and `MemMap` = `memMap`, the two OPEN
parameters that it depends on: machine mode, `IMem` = `Mem`, nothing in memory, and the named value in
every register that the spec leaves unspecified. -/
def State.resetWith (pc : Word) (memMap : Config.MemMap) : State :=
  { regs := Vector.replicate 31 resetWord
    pc := pc
    priv := .M
    csrs := resetCsrs
    cycle := resetCounter
    instret := resetCounter
    mem := []
    icache := []
    memMap := memMap
    draws := 0 }

/-- The machine right after reset (R390), at the `RESET_PC` and in the memory map that the model
names (log entries 1, 4). -/
def State.reset : State := State.resetWith resetPc resetMemMap

end Sys2Proof.Machine
end

