-- ==== Sys2Proof/Machine/Csrs.lean ====
section
/-! DEFINITION. The 38 control and status registers by name, their addresses, and what reading and
writing each one does (`10_state.md` R40 to R84, `47_system.md` R309). -/

namespace Sys2Proof.Machine

/-- The 38 CSRs of R40. -/
inductive Csr where
  /-- R42, address 0x300: Machine status register; bits 3, 7 and 12:11 are MIE, MPIE and MPP. -/
  | mstatus
  /-- R43, address 0x301: Machine ISA register; inert storage. -/
  | misa
  /-- R44, address 0x302: Machine exception delegation register; inert storage. -/
  | medeleg
  /-- R45, address 0x303: Machine interrupt delegation register; inert storage. -/
  | mideleg
  /-- R46, address 0x304: Machine interrupt-enable register; inert storage. -/
  | mie
  /-- R47, address 0x305: Machine trap-handler base address; every trap jumps to it. -/
  | mtvec
  /-- R48, address 0x306: Machine counter enable register; inert storage. -/
  | mcounteren
  /-- R49, address 0x340: Scratch register for machine-mode trap handlers. -/
  | mscratch
  /-- R50, address 0x341: Machine exception program counter; a trap writes it. -/
  | mepc
  /-- R51, address 0x342: Machine trap cause; a trap writes it. -/
  | mcause
  /-- R52, address 0x343: Machine trap value; a trap writes it. -/
  | mtval
  /-- R53, address 0x344: Machine interrupt pending register; inert storage. -/
  | mip
  /-- R54, address 0x3A0: Physical memory protection configuration 0; inert storage. -/
  | pmpcfg0
  /-- R55, address 0x3B0: Physical memory protection address 0; inert storage. -/
  | pmpaddr0
  /-- R56, address 0x3B1: Physical memory protection address 1; inert storage. -/
  | pmpaddr1
  /-- R57, address 0x3B2: Physical memory protection address 2; inert storage. -/
  | pmpaddr2
  /-- R58, address 0x3B3: Physical memory protection address 3; inert storage. -/
  | pmpaddr3
  /-- R59, address 0xB00: Machine cycle counter. -/
  | mcycle
  /-- R60, address 0xB02: Machine instructions-retired counter. -/
  | minstret
  /-- R64, address 0xB03: Machine hardware performance counter 3; storage that does not count. -/
  | mhpmcounter3
  /-- R65, address 0xB04: Machine hardware performance counter 4; storage that does not count. -/
  | mhpmcounter4
  /-- R66, address 0xB05: Machine hardware performance counter 5; storage that does not count. -/
  | mhpmcounter5
  /-- R67, address 0x323: Machine hardware performance event selector 3; inert storage. -/
  | mhpmevent3
  /-- R68, address 0x324: Machine hardware performance event selector 4; inert storage. -/
  | mhpmevent4
  /-- R69, address 0x325: Machine hardware performance event selector 5; inert storage. -/
  | mhpmevent5
  /-- R70, address 0xC00: User-mode cycle counter read. -/
  | ucycle
  /-- R71, address 0xC02: User-mode instructions-retired read. -/
  | uinstret
  /-- R72, address 0xC80: Upper 32 bits of user-mode cycle counter. -/
  | ucycleh
  /-- R73, address 0xC82: Upper 32 bits of user-mode instructions-retired counter. -/
  | uinstreth
  /-- R74, address 0x100: Supervisor status register; inert storage, no alias of mstatus. -/
  | sstatus
  /-- R75, address 0x104: Supervisor interrupt-enable register; inert storage, no alias of mie. -/
  | sie
  /-- R76, address 0x105: Supervisor trap-handler base address; inert storage. -/
  | stvec
  /-- R77, address 0x140: Scratch register for supervisor-mode trap handlers. -/
  | sscratch
  /-- R78, address 0x141: Supervisor exception program counter; inert storage. -/
  | sepc
  /-- R79, address 0x142: Supervisor trap cause register; inert storage. -/
  | scause
  /-- R80, address 0x143: Supervisor trap value register; inert storage. -/
  | stval
  /-- R81, address 0x144: Supervisor interrupt pending register; inert storage, no alias of mip. -/
  | sip
  /-- R82, address 0x180: Supervisor address translation and protection; inert storage. -/
  | satp
  deriving DecidableEq, Repr

/-- The address of a CSR (R40). -/
def csrAddress (c : Csr) : CsrAddr :=
  match c with
  | .mstatus => 0x300
  | .misa => 0x301
  | .medeleg => 0x302
  | .mideleg => 0x303
  | .mie => 0x304
  | .mtvec => 0x305
  | .mcounteren => 0x306
  | .mscratch => 0x340
  | .mepc => 0x341
  | .mcause => 0x342
  | .mtval => 0x343
  | .mip => 0x344
  | .pmpcfg0 => 0x3A0
  | .pmpaddr0 => 0x3B0
  | .pmpaddr1 => 0x3B1
  | .pmpaddr2 => 0x3B2
  | .pmpaddr3 => 0x3B3
  | .mcycle => 0xB00
  | .minstret => 0xB02
  | .mhpmcounter3 => 0xB03
  | .mhpmcounter4 => 0xB04
  | .mhpmcounter5 => 0xB05
  | .mhpmevent3 => 0x323
  | .mhpmevent4 => 0x324
  | .mhpmevent5 => 0x325
  | .ucycle => 0xC00
  | .uinstret => 0xC02
  | .ucycleh => 0xC80
  | .uinstreth => 0xC82
  | .sstatus => 0x100
  | .sie => 0x104
  | .stvec => 0x105
  | .sscratch => 0x140
  | .sepc => 0x141
  | .scause => 0x142
  | .stval => 0x143
  | .sip => 0x144
  | .satp => 0x180

/-- All 38 CSRs. -/
def allCsrs : List Csr :=
  [
   .mstatus, .misa, .medeleg, .mideleg, .mie, .mtvec,
   .mcounteren, .mscratch, .mepc, .mcause, .mtval, .mip,
   .pmpcfg0, .pmpaddr0, .pmpaddr1, .pmpaddr2, .pmpaddr3, .mcycle,
   .minstret, .mhpmcounter3, .mhpmcounter4, .mhpmcounter5, .mhpmevent3, .mhpmevent4,
   .mhpmevent5, .ucycle, .uinstret, .ucycleh, .uinstreth, .sstatus,
   .sie, .stvec, .sscratch, .sepc, .scause, .stval,
   .sip, .satp]

/-- The CSR at an address, or none at an address that R40 does not list (R83). -/
def csrAt (a : CsrAddr) : Option Csr := allCsrs.find? (fun c => csrAddress c == a)

/-- The four read-only counter views (R70 to R73). -/
def csrReadOnly (c : Csr) : Bool :=
  c == .ucycle || c == .uinstret || c == .ucycleh || c == .uinstreth

/-- What reading a CSR gives (R41 (b), R309): its cell, or the half of the counter that it views
(R59 to R61, R70 to R73). A read has no side effect. -/
def readCsr (c : Csr) (s : State) : Word :=
  match c with
  | .mstatus => s.csrs.mstatus
  | .misa => s.csrs.misa
  | .medeleg => s.csrs.medeleg
  | .mideleg => s.csrs.mideleg
  | .mie => s.csrs.mie
  | .mtvec => s.csrs.mtvec
  | .mcounteren => s.csrs.mcounteren
  | .mscratch => s.csrs.mscratch
  | .mepc => s.csrs.mepc
  | .mcause => s.csrs.mcause
  | .mtval => s.csrs.mtval
  | .mip => s.csrs.mip
  | .pmpcfg0 => s.csrs.pmpcfg0
  | .pmpaddr0 => s.csrs.pmpaddr0
  | .pmpaddr1 => s.csrs.pmpaddr1
  | .pmpaddr2 => s.csrs.pmpaddr2
  | .pmpaddr3 => s.csrs.pmpaddr3
  | .mcycle => s.cycle.extractLsb' 0 32
  | .minstret => s.instret.extractLsb' 0 32
  | .mhpmcounter3 => s.csrs.mhpmcounter3
  | .mhpmcounter4 => s.csrs.mhpmcounter4
  | .mhpmcounter5 => s.csrs.mhpmcounter5
  | .mhpmevent3 => s.csrs.mhpmevent3
  | .mhpmevent4 => s.csrs.mhpmevent4
  | .mhpmevent5 => s.csrs.mhpmevent5
  | .ucycle => s.cycle.extractLsb' 0 32
  | .uinstret => s.instret.extractLsb' 0 32
  | .ucycleh => s.cycle.extractLsb' 32 32
  | .uinstreth => s.instret.extractLsb' 32 32
  | .sstatus => s.csrs.sstatus
  | .sie => s.csrs.sie
  | .stvec => s.csrs.stvec
  | .sscratch => s.csrs.sscratch
  | .sepc => s.csrs.sepc
  | .scause => s.csrs.scause
  | .stval => s.csrs.stval
  | .sip => s.csrs.sip
  | .satp => s.csrs.satp

/-- Puts a value into a CSR: its cell, or the low half of its counter, whose upper half stays (R59,
R60). The read-only views hold nothing of their own. -/
def putCsr (c : Csr) (v : Word) (s : State) : State :=
  match c with
  | .mstatus => { s with csrs.mstatus := v }
  | .misa => { s with csrs.misa := v }
  | .medeleg => { s with csrs.medeleg := v }
  | .mideleg => { s with csrs.mideleg := v }
  | .mie => { s with csrs.mie := v }
  | .mtvec => { s with csrs.mtvec := v }
  | .mcounteren => { s with csrs.mcounteren := v }
  | .mscratch => { s with csrs.mscratch := v }
  | .mepc => { s with csrs.mepc := v }
  | .mcause => { s with csrs.mcause := v }
  | .mtval => { s with csrs.mtval := v }
  | .mip => { s with csrs.mip := v }
  | .pmpcfg0 => { s with csrs.pmpcfg0 := v }
  | .pmpaddr0 => { s with csrs.pmpaddr0 := v }
  | .pmpaddr1 => { s with csrs.pmpaddr1 := v }
  | .pmpaddr2 => { s with csrs.pmpaddr2 := v }
  | .pmpaddr3 => { s with csrs.pmpaddr3 := v }
  | .mcycle => { s with cycle := s.cycle.extractLsb' 32 32 ++ v }
  | .minstret => { s with instret := s.instret.extractLsb' 32 32 ++ v }
  | .mhpmcounter3 => { s with csrs.mhpmcounter3 := v }
  | .mhpmcounter4 => { s with csrs.mhpmcounter4 := v }
  | .mhpmcounter5 => { s with csrs.mhpmcounter5 := v }
  | .mhpmevent3 => { s with csrs.mhpmevent3 := v }
  | .mhpmevent4 => { s with csrs.mhpmevent4 := v }
  | .mhpmevent5 => { s with csrs.mhpmevent5 := v }
  | .ucycle => s
  | .uinstret => s
  | .ucycleh => s
  | .uinstreth => s
  | .sstatus => { s with csrs.sstatus := v }
  | .sie => { s with csrs.sie := v }
  | .stvec => { s with csrs.stvec := v }
  | .sscratch => { s with csrs.sscratch := v }
  | .sepc => { s with csrs.sepc := v }
  | .scause => { s with csrs.scause := v }
  | .stval => { s with csrs.stval := v }
  | .sip => { s with csrs.sip := v }
  | .satp => { s with csrs.satp := v }

/-- The value that a CSR instruction leaves in a CSR that held `old` when it writes `v` (R41 (c)). -/
def mergeCsr (c : Csr) (old v : Word) : Word :=
  (old &&& ~~~csrWritable (csrAddress c)) ||| (v &&& csrWritable (csrAddress c))

/-- A write of a CSR by a CSR instruction (R41 (c)). -/
def writeCsr (c : Csr) (v : Word) (s : State) : State := putCsr c (mergeCsr c (readCsr c s) v) s

end Sys2Proof.Machine
end

