-- ==== Sys2Proof/Machine/Flags.lean ====
section
/-! DEFINITION. The status of the machine. There are no flags (`10_state.md` R38): comparisons give a
truth value that a branch or a set instruction uses at once (`00_scope.md` R12), and the only status
bits are the fields of `mstatus` (R42). -/

namespace Sys2Proof.Machine

/-! ### Comparisons (R12) -/

/-- `a <s b`: the two's-complement readings compare as less (R11, R12). -/
def lessSigned (a b : Word) : Bool := decide (a.toInt < b.toInt)

/-- `a <u b`: the unsigned readings compare as less (R12). -/
def lessUnsigned (a b : Word) : Bool := decide (a.toNat < b.toNat)

/-- The 32-bit 1 or 0 that SLT, SLTU, SLTI and SLTIU write (R221 to R224). -/
def truthWord (b : Bool) : Word := if b then 0x00000001#32 else 0x00000000#32

/-! ### Fields of `mstatus` (R42) -/

/-- `MIE`, bit 3 (R42). -/
def statusMIE (m : Word) : Bool := m.getLsbD 3

/-- `MPIE`, bit 7 (R42). -/
def statusMPIE (m : Word) : Bool := m.getLsbD 7

/-- `MPP`, bits 12:11 (R42). -/
def statusMPP (m : Word) : BitVec 2 := m.extractLsb' 11 2

/-- The encoding of a privilege mode in `MPP`: U = 0, S = 1, M = 3 (R42). -/
def encPriv (p : Priv) : BitVec 2 :=
  match p with
  | .U => 0b00
  | .S => 0b01
  | .M => 0b11

/-- `mstatus` with the three fields set and every other bit kept. -/
def setStatus (m : Word) (mpp : BitVec 2) (mpie mie : Bool) : Word :=
  m.extractLsb' 13 19 ++ mpp ++ m.extractLsb' 8 3 ++ BitVec.ofBool mpie ++ m.extractLsb' 4 3 ++
    BitVec.ofBool mie ++ m.extractLsb' 0 3

/-- Steps 4 to 6 of the trap entry (R350): `MPP` receives the mode, `MPIE` the old `MIE`, `MIE` is
cleared. -/
def trapStatus (p : Priv) (m : Word) : Word := setStatus m (encPriv p) (statusMIE m) false

end Sys2Proof.Machine
end

