-- ==== Sys2Proof/Machine/Ops.lean ====
section
/-! DEFINITION. The named operations that the meanings share: general registers, the end of an
instruction, taking an exception, memory and its instruction-fetch view, CSR access, and what happens
between two steps. -/

namespace Sys2Proof.Machine

/-- The outcome of an instruction or a step. -/
abbrev Result := Host.Outcome State Fault Refusal

/-! ### General registers (R14, R20, R21) -/

/-- The place of a register other than `x0` among `x1` to `x31`. -/
def regSlot (r : RegNum) (h : r ≠ 0#5) : Fin 31 :=
  ⟨r.toNat - 1, by have := r.isLt; have : r.toNat ≠ 0 := fun e => h (BitVec.eq_of_toNat_eq e); omega⟩

/-- `x[r]`: `x0` "always reads 0x00000000" (R21). -/
def readReg (s : State) (r : RegNum) : Word :=
  if h : r = 0#5 then 0#32 else s.regs[(regSlot r h).val]

/-- `x[r] <- v`: a write to `x0` "writes nothing" (R14, R21). -/
def writeReg (r : RegNum) (v : Word) (s : State) : State :=
  if h : r = 0#5 then s else { s with regs := s.regs.set (regSlot r h).val v }

/-! ### The end of an instruction (R32, R35, R63) -/

/-- Goes on at the address `t` and counts the instruction as retired: `pc <- t` and
`instret <- instret + 1` modulo 2^64 (R32, R35, R63). -/
def retireTo (t : Word) (s : State) : State := { s with pc := t, instret := s.instret + 1#64 }

/-- The end of an instruction that does not transfer control: `pc <- pc + 4` (R32). -/
def retire (s : State) : State := retireTo (s.pc + 4#32) s

/-- The end of a CSR instruction that wrote `minstret`: its own increment "is not applied on top"
(R60). -/
def retireUncounted (s : State) : State := { s with pc := s.pc + 4#32 }

/-! ### Taking an exception (R330 to R351)

The source has no trap-return instruction (R355), so no operation of return stands here: a handler
returns with CSRRS of `mepc` and JALR. -/

/-- The exception code (R343). -/
def exceptionCode (e : Exception) : Nat :=
  match e with
  | .instrAddrMisaligned _ => 0
  | .instrAccessFault _ => 1
  | .illegalInstr _ => 2
  | .breakpoint => 3
  | .loadAddrMisaligned _ => 4
  | .loadAccessFault _ => 5
  | .storeAddrMisaligned _ => 6
  | .storeAccessFault _ => 7
  | .ecallU => 8
  | .ecallS => 9
  | .ecallM => 11

/-- What `mtval` receives, the parameter `MtvalOf` at its table (R345). -/
def mtvalOf (e : Exception) : Word :=
  match e with
  | .instrAddrMisaligned pc => pc
  | .instrAccessFault pc => pc
  | .illegalInstr w => w
  | .breakpoint => 0#32
  | .loadAddrMisaligned ea => ea
  | .loadAccessFault ea => ea
  | .storeAddrMisaligned ea => ea
  | .storeAccessFault ea => ea
  | .ecallU => 0#32
  | .ecallS => 0#32
  | .ecallM => 0#32

/-- What `mepc` receives: the pc of the trapping instruction, or the next pc for ECALL and EBREAK
(R351). -/
def epcOf (e : Exception) (pc : Word) : Word :=
  match e with
  | .instrAddrMisaligned _ => pc
  | .instrAccessFault _ => pc
  | .illegalInstr _ => pc
  | .breakpoint => pc + 4#32
  | .loadAddrMisaligned _ => pc
  | .loadAccessFault _ => pc
  | .storeAddrMisaligned _ => pc
  | .storeAccessFault _ => pc
  | .ecallU => pc + 4#32
  | .ecallS => pc + 4#32
  | .ecallM => pc + 4#32

/-- The trap entry `Trap` (R350), on the state before the instruction: its eight assignments, all
reading that state. -/
def takeTrap (e : Exception) (s : State) : State :=
  { s with
    csrs.mepc := epcOf e s.pc
    csrs.mcause := BitVec.ofNat 32 (exceptionCode e)
    csrs.mtval := mtvalOf e
    csrs.mstatus := trapStatus s.priv s.csrs.mstatus
    priv := .M
    pc := s.csrs.mtvec }

/-- `raise E(info)` (R18): nothing of the instruction takes effect and the trap is taken in the same
step. -/
def raise (e : Exception) (s : State) : Result := .next (takeTrap e s)

/-! ### Data memory (R103 to R109) -/

/-- The byte of `Mem` at an address. -/
def memByte (s : State) (a : Word) : Byte := s.mem.read a.toNat

/-- The byte of `IMem` at an address (R86). -/
def imemByte (s : State) (a : Word) : Byte := (cellFind s.icache a.toNat).getD (memByte s a)

/-- The halfword of `Mem` at an address, little-endian (R103, R104). -/
def memHalf (s : State) (a : Word) : BitVec 16 := memByte s (a + 1#32) ++ memByte s a

/-- The word of `Mem` at an address, little-endian (R103, R104). -/
def memWord (s : State) (a : Word) : Word :=
  memByte s (a + 3#32) ++ memByte s (a + 2#32) ++ memByte s (a + 1#32) ++ memByte s a

/-- Stores one byte: `Mem[a] <- b`, while `IMem[a]` keeps the byte it had (R105, R125). -/
def storeByte (a : Word) (b : Byte) (s : State) : State :=
  { s with
    mem := s.mem.write a.toNat b
    icache := cellInsert s.icache a.toNat (imemByte s a) }

/-- Stores bytes at rising addresses from `a` (R105). -/
def storeBytes (a : Word) (bs : List Byte) (s : State) : State :=
  match bs with
  | [] => s
  | b :: rest => storeBytes (a + 1#32) rest (storeByte a b s)

/-- The low `n` bytes of a value, least significant first (R103, R105). -/
def lowBytes (v : Word) (n : Nat) : List Byte := (bytesOfWord v).take n

/-- `a mod n != 0` (R107). -/
def misaligned (n : Nat) (a : Word) : Bool := !(a.toNat % n == 0)

/-- The exception of a load of `n` bytes from `a`, if it raises one: misalignment before access fault
(R104, R107, R108). -/
def loadException (n : Nat) (a : Word) (s : State) : Option Exception :=
  if misaligned n a then some (.loadAddrMisaligned a)
  else if mapLoad s.memMap a n then none
  else some (.loadAccessFault a)

/-- The exception of a store of `n` bytes to `a`, if it raises one: misalignment before access fault
(R105, R107, R108). -/
def storeException (n : Nat) (a : Word) (s : State) : Option Exception :=
  if misaligned n a then some (.storeAddrMisaligned a)
  else if mapStore s.memMap a n then none
  else some (.storeAccessFault a)

/-- A load of `n` bytes from `ea` in the order of R269: the checks, the access, then the write of `rd`
with `value`, the register side of R270. -/
def load (n : Nat) (value : State → Word → Word) (rd : RegNum) (ea : Word) (s : State) : Result :=
  match loadException n ea s with
  | some e => raise e s
  | none => .next (retire (writeReg rd (value s ea) s))

/-- A store of the low `n` bytes of `v` to `ea` in the order of R269. -/
def store (n : Nat) (v : Word) (ea : Word) (s : State) : Result :=
  match storeException n ea s with
  | some e => raise e s
  | none => .next (retire (storeBytes ea (lowBytes v n) s))

/-! ### The instruction-fetch view (R86, R106, R125, R126) -/

/-- `IMem <- Mem` for every address: the effect of FENCEI (R125, R290). -/
def flushFetchView (s : State) : State := { s with icache := [] }

/-- The moves of R126 between two steps: any of the bytes of `IMem` that may differ from `Mem` are
refilled from it, as the free value `Config.icacheRefill` says. -/
def refillFetchView (s : State) : List Host.Cell :=
  s.icache.map (fun c => (c.1, if Config.icacheRefill s.draws c.1 then s.mem.read c.1 else c.2))

/-- The instruction word that `IMem` holds at an address (R106). -/
def imemWord (s : State) (a : Word) : Word :=
  wordOfBytes (imemByte s a) (imemByte s (a + 1#32)) (imemByte s (a + 2#32)) (imemByte s (a + 3#32))

/-- Puts an instruction word at an address of memory and of its instruction-fetch view, as a host
does before a run (R395, R406). -/
def placeWord (a w : Word) (s : State) : State :=
  { storeBytes a (bytesOfWord w) s with
    icache := cellErase (cellErase (cellErase (cellErase s.icache a.toNat) (a + 1#32).toNat)
      (a + 2#32).toNat) (a + 3#32).toNat }

/-! ### CSR access (R300) -/

/-- `CsrInstr` of R300: `w` is the instruction word, `doWrite` whether the form writes, `new` the
written value as a function of the old one. A write of `minstret` leaves out the instruction's own
increment (R60). -/
def csrInstr (w : Word) (rd : RegNum) (csr : CsrAddr) (doWrite : Bool) (new : Word → Word)
    (s : State) : Result :=
  match csrAt csr with
  | none => raise (.illegalInstr w) s
  | some c =>
    if doWrite && csrReadOnly c then raise (.illegalInstr w) s
    else
      let old := readCsr c s
      let written := if doWrite then writeCsr c (new old) s else s
      let done := writeReg rd old written
      .next (if doWrite && c == .minstret then retireUncounted done else retire done)

/-! ### The step (R35) -/

/-- What the step does before it executes (R35, R344): the alignment check on `pc`, the fetch from
`IMem` (R106), the decoding; an instruction, or the exception that the first failing phase raises. -/
def nextInstr (s : State) : Except Exception Instr :=
  if misaligned 4 s.pc then .error (.instrAddrMisaligned s.pc)
  else if mapFetch s.memMap s.pc then
    match decode (imemWord s s.pc) with
    | .ok i => .ok i
    | .error _ => .error (.illegalInstr (imemWord s s.pc))
  else .error (.instrAccessFault s.pc)

/-- What ends every step, raised or not: `cycle` advances by a draw (R35, R62), then bytes of `IMem`
may be refilled before the next step (R126), and the next draw is due. -/
def endStep (s : State) : State :=
  { s with
    cycle := s.cycle + Config.cycleAdvance s.draws
    icache := refillFetchView s
    draws := s.draws + 1 }

/-- Ends the step of an outcome that goes on; a stop stays as it is. -/
def endResult (o : Result) : Result :=
  match o with
  | .next s => .next (endStep s)
  | .fault f => .fault f
  | .refused r => .refused r

end Sys2Proof.Machine
end

