-- ==== Sys2Proof/Machine/Operands.lean ====
section
/-! DEFINITION. The operand forms of `30_encoding.md` R147 to R156 and R181, as 32-bit values. -/

namespace Sys2Proof.Machine

/-- `sext_32(imm12)`, the immediate of the I-type instructions and the offset of JALR, the loads and
the stores (R13, R147, R148). -/
def imm12Value (imm12 : BitVec 12) : Word := imm12.signExtend 32

/-- `sext_32(offset)` of a branch (R150). -/
def branchOffset (offset : BitVec 13) : Word := offset.signExtend 32

/-- `sext_32(offset)` of JAL (R152). -/
def jumpOffset (offset : BitVec 21) : Word := offset.signExtend 32

/-- `imm20` in bits 31:12 above 12 zeros, of LUI and AUIPC (R151). -/
def upperValue (imm20 : BitVec 20) : Word := imm20 ++ 0#12

/-- `zext_32(uimm5)` of the CSR immediate forms (R154). -/
def uimm5Value (uimm5 : BitVec 5) : Word := uimm5.zeroExtend 32

/-- `x[rs2][4:0]`, the shift amount of the register shifts (R286). -/
def shiftAmount (v : Word) : BitVec 5 := v.extractLsb' 0 5

/-- `ea = x[rs1] + sext_32(offset)` modulo 2^32, the one addressing mode (R114, R268). -/
def effectiveAddress (s : State) (rs1 : RegNum) (offset : BitVec 12) : Word :=
  readReg s rs1 + imm12Value offset

/-! ### The common shapes of the register instructions -/

/-- An instruction that writes `v` to `rd` and does nothing else (R229, R256, R286). -/
def setRegister (rd : RegNum) (v : Word) (s : State) : Result := .next (retire (writeReg rd v s))

/-- A conditional branch (R206): to `pc + offset` if the condition holds, else on. -/
def branchIf (taken : Bool) (offset : BitVec 13) (s : State) : Result :=
  .next (retireTo (if taken then s.pc + branchOffset offset else s.pc + 4#32) s)

/-- A jump to `t` that leaves the link value `pc + 4` in `rd` (R243). -/
def jumpAndLink (rd : RegNum) (t : Word) (s : State) : Result :=
  .next (retireTo t (writeReg rd (s.pc + 4#32) s))

/-! ### Shifts (R12) -/

/-- `a << n`: zeros enter at bit 0. -/
def shiftLeft (a : Word) (n : BitVec 5) : Word := a <<< n.toNat

/-- `a >>u n`: zeros enter at bit 31. -/
def shiftRightLogical (a : Word) (n : BitVec 5) : Word := a >>> n.toNat

/-- `a >>s n`: copies of bit 31 enter at bit 31. -/
def shiftRightArith (a : Word) (n : BitVec 5) : Word := a.sshiftRight n.toNat

end Sys2Proof.Machine
end

