-- ==== Sys2Proof/Machine/Branch.lean ====
section
/-! DEFINITION. The branch family (`40_branch.md` R200 to R209). -/

namespace Sys2Proof.Machine

/-- R200 BNE: taken if the registers differ. -/
def execBne (rs1 rs2 : RegNum) (offset : BitVec 13) (s : State) : Result :=
  branchIf (readReg s rs1 != readReg s rs2) offset s

/-- R201 BEQ: taken if the registers are equal. -/
def execBeq (rs1 rs2 : RegNum) (offset : BitVec 13) (s : State) : Result :=
  branchIf (readReg s rs1 == readReg s rs2) offset s

/-- R202 BLT: taken if `x[rs1] <s x[rs2]`. -/
def execBlt (rs1 rs2 : RegNum) (offset : BitVec 13) (s : State) : Result :=
  branchIf (lessSigned (readReg s rs1) (readReg s rs2)) offset s

/-- R203 BGE: taken if `x[rs1] >=s x[rs2]`, the complement of BLT. -/
def execBge (rs1 rs2 : RegNum) (offset : BitVec 13) (s : State) : Result :=
  branchIf (!lessSigned (readReg s rs1) (readReg s rs2)) offset s

/-- R204 BLTU: taken if `x[rs1] <u x[rs2]`. -/
def execBltu (rs1 rs2 : RegNum) (offset : BitVec 13) (s : State) : Result :=
  branchIf (lessUnsigned (readReg s rs1) (readReg s rs2)) offset s

/-- R205 BGEU: taken if `x[rs1] >=u x[rs2]`, the complement of BLTU. -/
def execBgeu (rs1 rs2 : RegNum) (offset : BitVec 13) (s : State) : Result :=
  branchIf (!lessUnsigned (readReg s rs1) (readReg s rs2)) offset s

end Sys2Proof.Machine
end

