-- ==== Sys2Proof/Machine/Integer.lean ====
section
/-! DEFINITION. The integer family (`41_integer.md` R220 to R231). All sums are modulo 2^32 (R230). -/

namespace Sys2Proof.Machine

/-- R220 AUIPC: `pc` plus the upper immediate. -/
def execAuipc (rd : RegNum) (imm20 : BitVec 20) (s : State) : Result :=
  setRegister rd (s.pc + upperValue imm20) s

/-- R221 SLT: 1 if `x[rs1] <s x[rs2]`, else 0. -/
def execSlt (rd rs1 rs2 : RegNum) (s : State) : Result :=
  setRegister rd (truthWord (lessSigned (readReg s rs1) (readReg s rs2))) s

/-- R222 SLTU: 1 if `x[rs1] <u x[rs2]`, else 0. -/
def execSltu (rd rs1 rs2 : RegNum) (s : State) : Result :=
  setRegister rd (truthWord (lessUnsigned (readReg s rs1) (readReg s rs2))) s

/-- R223 SLTI: 1 if `x[rs1] <s sext_32(imm12)`, else 0. -/
def execSlti (rd rs1 : RegNum) (imm12 : BitVec 12) (s : State) : Result :=
  setRegister rd (truthWord (lessSigned (readReg s rs1) (imm12Value imm12))) s

/-- R224 SLTIU: 1 if `x[rs1] <u sext_32(imm12)`, else 0. -/
def execSltiu (rd rs1 : RegNum) (imm12 : BitVec 12) (s : State) : Result :=
  setRegister rd (truthWord (lessUnsigned (readReg s rs1) (imm12Value imm12))) s

/-- R225 LUI: the upper immediate. -/
def execLui (rd : RegNum) (imm20 : BitVec 20) (s : State) : Result :=
  setRegister rd (upperValue imm20) s

/-- R226 ADD. -/
def execAdd (rd rs1 rs2 : RegNum) (s : State) : Result :=
  setRegister rd (readReg s rs1 + readReg s rs2) s

/-- R227 SUB. -/
def execSub (rd rs1 rs2 : RegNum) (s : State) : Result :=
  setRegister rd (readReg s rs1 - readReg s rs2) s

/-- R228 ADDI. -/
def execAddi (rd rs1 : RegNum) (imm12 : BitVec 12) (s : State) : Result :=
  setRegister rd (readReg s rs1 + imm12Value imm12) s

end Sys2Proof.Machine
end

