-- ==== Sys2Proof/Machine/Jump.lean ====
section
/-! DEFINITION. The jump family (`42_jump.md` R240 to R246). A misaligned target is not checked here: it raises
in the next step (R244). -/

namespace Sys2Proof.Machine

/-- R240 JAL: to `pc + offset`, with the link value in `rd`. -/
def execJal (rd : RegNum) (offset : BitVec 21) (s : State) : Result :=
  jumpAndLink rd (s.pc + jumpOffset offset) s

/-- R241 JALR: to `x[rs1] + offset` with bit 0 cleared, `x[rs1]` read before `rd` is written. -/
def execJalr (rd rs1 : RegNum) (offset : BitVec 12) (s : State) : Result :=
  jumpAndLink rd ((readReg s rs1 + imm12Value offset) &&& 0xFFFFFFFE#32) s

end Sys2Proof.Machine
end

