-- ==== Sys2Proof/Machine/LoadStore.lean ====
section
/-! DEFINITION. The memory family (`44_memory_ops.md` R260 to R270). -/

namespace Sys2Proof.Machine

/-- R260 SW: the four bytes of `x[rs2]`. -/
def execSw (rs2 : RegNum) (offset : BitVec 12) (rs1 : RegNum) (s : State) : Result :=
  store 4 (readReg s rs2) (effectiveAddress s rs1 offset) s

/-- R261 LB: a byte, sign-extended. -/
def execLb (rd : RegNum) (offset : BitVec 12) (rs1 : RegNum) (s : State) : Result :=
  load 1 (fun t ea => (memByte t ea).signExtend 32) rd (effectiveAddress s rs1 offset) s

/-- R262 LH: a halfword, sign-extended. -/
def execLh (rd : RegNum) (offset : BitVec 12) (rs1 : RegNum) (s : State) : Result :=
  load 2 (fun t ea => (memHalf t ea).signExtend 32) rd (effectiveAddress s rs1 offset) s

/-- R263 LW: a word. -/
def execLw (rd : RegNum) (offset : BitVec 12) (rs1 : RegNum) (s : State) : Result :=
  load 4 (fun t ea => memWord t ea) rd (effectiveAddress s rs1 offset) s

/-- R264 LBU: a byte, zero-extended. -/
def execLbu (rd : RegNum) (offset : BitVec 12) (rs1 : RegNum) (s : State) : Result :=
  load 1 (fun t ea => (memByte t ea).zeroExtend 32) rd (effectiveAddress s rs1 offset) s

/-- R265 LHU: a halfword, zero-extended. -/
def execLhu (rd : RegNum) (offset : BitVec 12) (rs1 : RegNum) (s : State) : Result :=
  load 2 (fun t ea => (memHalf t ea).zeroExtend 32) rd (effectiveAddress s rs1 offset) s

/-- R266 SB: the low byte of `x[rs2]`. -/
def execSb (rs2 : RegNum) (offset : BitVec 12) (rs1 : RegNum) (s : State) : Result :=
  store 1 (readReg s rs2) (effectiveAddress s rs1 offset) s

/-- R267 SH: the two low bytes of `x[rs2]`. -/
def execSh (rs2 : RegNum) (offset : BitVec 12) (rs1 : RegNum) (s : State) : Result :=
  store 2 (readReg s rs2) (effectiveAddress s rs1 offset) s

end Sys2Proof.Machine
end

