-- ==== Sys2Proof/Machine/Logical.lean ====
section
/-! DEFINITION. The logical family (`43_logical.md` R250 to R256). -/

namespace Sys2Proof.Machine

/-- R250 XOR. -/
def execXor (rd rs1 rs2 : RegNum) (s : State) : Result :=
  setRegister rd (readReg s rs1 ^^^ readReg s rs2) s

/-- R251 OR. -/
def execOr (rd rs1 rs2 : RegNum) (s : State) : Result :=
  setRegister rd (readReg s rs1 ||| readReg s rs2) s

/-- R252 AND. -/
def execAnd (rd rs1 rs2 : RegNum) (s : State) : Result :=
  setRegister rd (readReg s rs1 &&& readReg s rs2) s

/-- R253 ORI. -/
def execOri (rd rs1 : RegNum) (imm12 : BitVec 12) (s : State) : Result :=
  setRegister rd (readReg s rs1 ||| imm12Value imm12) s

/-- R254 XORI. -/
def execXori (rd rs1 : RegNum) (imm12 : BitVec 12) (s : State) : Result :=
  setRegister rd (readReg s rs1 ^^^ imm12Value imm12) s

/-- R255 ANDI. -/
def execAndi (rd rs1 : RegNum) (imm12 : BitVec 12) (s : State) : Result :=
  setRegister rd (readReg s rs1 &&& imm12Value imm12) s

end Sys2Proof.Machine
end

