-- ==== Sys2Proof/Machine/Shift.lean ====
section
/-! DEFINITION. The shift family (`45_shift.md` R280 to R287). -/

namespace Sys2Proof.Machine

/-- R280 SRAI. -/
def execSrai (rd rs1 : RegNum) (shamt5 : BitVec 5) (s : State) : Result :=
  setRegister rd (shiftRightArith (readReg s rs1) shamt5) s

/-- R281 SLLI. -/
def execSlli (rd rs1 : RegNum) (shamt5 : BitVec 5) (s : State) : Result :=
  setRegister rd (shiftLeft (readReg s rs1) shamt5) s

/-- R282 SRA: by the low five bits of `x[rs2]`. -/
def execSra (rd rs1 rs2 : RegNum) (s : State) : Result :=
  setRegister rd (shiftRightArith (readReg s rs1) (shiftAmount (readReg s rs2))) s

/-- R283 SRL: by the low five bits of `x[rs2]`. -/
def execSrl (rd rs1 rs2 : RegNum) (s : State) : Result :=
  setRegister rd (shiftRightLogical (readReg s rs1) (shiftAmount (readReg s rs2))) s

/-- R284 SLL: by the low five bits of `x[rs2]`. -/
def execSll (rd rs1 rs2 : RegNum) (s : State) : Result :=
  setRegister rd (shiftLeft (readReg s rs1) (shiftAmount (readReg s rs2))) s

/-- R285 SRLI. -/
def execSrli (rd rs1 : RegNum) (shamt5 : BitVec 5) (s : State) : Result :=
  setRegister rd (shiftRightLogical (readReg s rs1) shamt5) s

end Sys2Proof.Machine
end

