-- ==== Sys2Proof/Machine/Sync.lean ====
section
/-! DEFINITION. The synchronization family (`46_sync.md` R290 to R292). -/

namespace Sys2Proof.Machine

/-- R290 FENCEI: the instruction-fetch view catches up with memory; every field is ignored (R167). -/
def execFencei (_imm12 : BitVec 12) (_rs1 _rd : RegNum) (s : State) : Result :=
  .next (retire (flushFetchView s))

/-- R291 FENCE: in this machine of one agent no state but `pc` changes, for any value of its fields
(R122, R167). -/
def execFence (_fm _pred _succ : BitVec 4) (_rs1 _rd : RegNum) (s : State) : Result :=
  .next (retire s)

end Sys2Proof.Machine
end

