-- ==== Sys2Proof/Machine/System.lean ====
section
/-! DEFINITION. The system family (`47_system.md` R300 to R312). Every bit of a CSR instruction is in a field, so
its word, which R300 offers to `mtval`, is `encode` of the instruction (log entry 13). -/

namespace Sys2Proof.Machine

/-- R308 CSRRCI: clears bits; a pure read if `uimm5` is 0. -/
def execCsrrci (rd : RegNum) (csr : CsrAddr) (uimm5 : BitVec 5) (s : State) : Result :=
  csrInstr (encode (.csrrci rd csr uimm5)) rd csr (uimm5 != 0#5) (fun old => old &&& ~~~uimm5Value uimm5) s

/-- R301 ECALL: raises the exception of the current mode, code 8 + `enc(priv)`. -/
def execEcall (s : State) : Result :=
  match s.priv with
  | .U => raise .ecallU s
  | .S => raise .ecallS s
  | .M => raise .ecallM s

/-- R302 EBREAK: raises the breakpoint exception, in every mode. -/
def execEbreak (s : State) : Result :=
  raise .breakpoint s

/-- R303 CSRRW: always writes `x[rs1]`. -/
def execCsrrw (rd : RegNum) (csr : CsrAddr) (rs1 : RegNum) (s : State) : Result :=
  csrInstr (encode (.csrrw rd csr rs1)) rd csr true (fun _ => readReg s rs1) s

/-- R304 CSRRS: sets bits; a pure read if `rs1` is `x0`. -/
def execCsrrs (rd : RegNum) (csr : CsrAddr) (rs1 : RegNum) (s : State) : Result :=
  csrInstr (encode (.csrrs rd csr rs1)) rd csr (rs1 != 0#5) (fun old => old ||| readReg s rs1) s

/-- R305 CSRRC: clears bits; a pure read if `rs1` is `x0`. -/
def execCsrrc (rd : RegNum) (csr : CsrAddr) (rs1 : RegNum) (s : State) : Result :=
  csrInstr (encode (.csrrc rd csr rs1)) rd csr (rs1 != 0#5) (fun old => old &&& ~~~readReg s rs1) s

/-- R306 CSRRWI: always writes the zero-extended immediate. -/
def execCsrrwi (rd : RegNum) (csr : CsrAddr) (uimm5 : BitVec 5) (s : State) : Result :=
  csrInstr (encode (.csrrwi rd csr uimm5)) rd csr true (fun _ => uimm5Value uimm5) s

/-- R307 CSRRSI: sets bits; a pure read if `uimm5` is 0. -/
def execCsrrsi (rd : RegNum) (csr : CsrAddr) (uimm5 : BitVec 5) (s : State) : Result :=
  csrInstr (encode (.csrrsi rd csr uimm5)) rd csr (uimm5 != 0#5) (fun old => old ||| uimm5Value uimm5) s

end Sys2Proof.Machine
end

