-- ==== Sys2Proof/Machine/Dispatch.lean ====
section
/-! DEFINITION. `Execute(i)` of `10_state.md` R35: the meaning of each instruction. -/

namespace Sys2Proof.Machine

/-- The meaning of an instruction on a state. -/
def exec (i : Instr) (s : State) : Host.Outcome State Fault Refusal :=
  match i with
  | .bne rs1 rs2 offset => Sys2Proof.Machine.execBne rs1 rs2 offset s
  | .beq rs1 rs2 offset => Sys2Proof.Machine.execBeq rs1 rs2 offset s
  | .blt rs1 rs2 offset => Sys2Proof.Machine.execBlt rs1 rs2 offset s
  | .bge rs1 rs2 offset => Sys2Proof.Machine.execBge rs1 rs2 offset s
  | .bltu rs1 rs2 offset => Sys2Proof.Machine.execBltu rs1 rs2 offset s
  | .bgeu rs1 rs2 offset => Sys2Proof.Machine.execBgeu rs1 rs2 offset s
  | .auipc rd imm20 => Sys2Proof.Machine.execAuipc rd imm20 s
  | .slt rd rs1 rs2 => Sys2Proof.Machine.execSlt rd rs1 rs2 s
  | .sltu rd rs1 rs2 => Sys2Proof.Machine.execSltu rd rs1 rs2 s
  | .slti rd rs1 imm12 => Sys2Proof.Machine.execSlti rd rs1 imm12 s
  | .sltiu rd rs1 imm12 => Sys2Proof.Machine.execSltiu rd rs1 imm12 s
  | .lui rd imm20 => Sys2Proof.Machine.execLui rd imm20 s
  | .add rd rs1 rs2 => Sys2Proof.Machine.execAdd rd rs1 rs2 s
  | .sub rd rs1 rs2 => Sys2Proof.Machine.execSub rd rs1 rs2 s
  | .addi rd rs1 imm12 => Sys2Proof.Machine.execAddi rd rs1 imm12 s
  | .jal rd offset => Sys2Proof.Machine.execJal rd offset s
  | .jalr rd rs1 offset => Sys2Proof.Machine.execJalr rd rs1 offset s
  | .xor rd rs1 rs2 => Sys2Proof.Machine.execXor rd rs1 rs2 s
  | .or rd rs1 rs2 => Sys2Proof.Machine.execOr rd rs1 rs2 s
  | .and rd rs1 rs2 => Sys2Proof.Machine.execAnd rd rs1 rs2 s
  | .ori rd rs1 imm12 => Sys2Proof.Machine.execOri rd rs1 imm12 s
  | .xori rd rs1 imm12 => Sys2Proof.Machine.execXori rd rs1 imm12 s
  | .andi rd rs1 imm12 => Sys2Proof.Machine.execAndi rd rs1 imm12 s
  | .sw rs2 offset rs1 => Sys2Proof.Machine.execSw rs2 offset rs1 s
  | .lb rd offset rs1 => Sys2Proof.Machine.execLb rd offset rs1 s
  | .lh rd offset rs1 => Sys2Proof.Machine.execLh rd offset rs1 s
  | .lw rd offset rs1 => Sys2Proof.Machine.execLw rd offset rs1 s
  | .lbu rd offset rs1 => Sys2Proof.Machine.execLbu rd offset rs1 s
  | .lhu rd offset rs1 => Sys2Proof.Machine.execLhu rd offset rs1 s
  | .sb rs2 offset rs1 => Sys2Proof.Machine.execSb rs2 offset rs1 s
  | .sh rs2 offset rs1 => Sys2Proof.Machine.execSh rs2 offset rs1 s
  | .srai rd rs1 shamt5 => Sys2Proof.Machine.execSrai rd rs1 shamt5 s
  | .slli rd rs1 shamt5 => Sys2Proof.Machine.execSlli rd rs1 shamt5 s
  | .sra rd rs1 rs2 => Sys2Proof.Machine.execSra rd rs1 rs2 s
  | .srl rd rs1 rs2 => Sys2Proof.Machine.execSrl rd rs1 rs2 s
  | .sll rd rs1 rs2 => Sys2Proof.Machine.execSll rd rs1 rs2 s
  | .srli rd rs1 shamt5 => Sys2Proof.Machine.execSrli rd rs1 shamt5 s
  | .fencei imm12 rs1 rd => Sys2Proof.Machine.execFencei imm12 rs1 rd s
  | .fence fm pred succ rs1 rd => Sys2Proof.Machine.execFence fm pred succ rs1 rd s
  | .csrrci rd csr uimm5 => Sys2Proof.Machine.execCsrrci rd csr uimm5 s
  | .ecall => Sys2Proof.Machine.execEcall s
  | .ebreak => Sys2Proof.Machine.execEbreak s
  | .csrrw rd csr rs1 => Sys2Proof.Machine.execCsrrw rd csr rs1 s
  | .csrrs rd csr rs1 => Sys2Proof.Machine.execCsrrs rd csr rs1 s
  | .csrrc rd csr rs1 => Sys2Proof.Machine.execCsrrc rd csr rs1 s
  | .csrrwi rd csr uimm5 => Sys2Proof.Machine.execCsrrwi rd csr uimm5 s
  | .csrrsi rd csr uimm5 => Sys2Proof.Machine.execCsrrsi rd csr uimm5 s

end Sys2Proof.Machine
end

