-- ==== Sys2Proof/Machine/Step.lean ====
section
/-! DEFINITION. One step of the machine (`10_state.md` R35). -/

namespace Sys2Proof.Machine

/-- `Step()` (R35): fetch and decode the instruction at `pc` and execute it, or take the exception
that a phase before execution raises; then what ends every step. -/
def step (s : State) : Host.Outcome State Fault Refusal :=
  match nextInstr s with
  | .ok i => endResult (exec i s)
  | .error e => endResult (raise e s)

/-- `s` with the instruction whose bits are `w` (numbered as `opcode_table.json` numbers them) at `pc`,
in memory and in the instruction-fetch view. -/
def State.withFetchWord (s : State) (nbits w : Nat) : State :=
  placeWord s.pc (wordOfTable nbits w) s

end Sys2Proof.Machine
end

