-- ==== Sys2Proof/Machine/Pseudo.lean ====
section
/-! DEFINITION. The ten pseudo-instructions of the assembler (`30_encoding.md` R182 to R186) and the
instructions they stand for. A `label` is its byte distance from the instruction, as in `Syntax` (log entry 15). -/

namespace Sys2Proof.Machine

/-- The ten pseudo-instructions (R182). -/
inductive Pseudo where
  /-- No operation. -/
  | nop
  /-- Copy register. -/
  | mv (rd rs : RegNum)
  /-- Bitwise NOT. -/
  | not (rd rs : RegNum)
  /-- Negate register. -/
  | neg (rd rs : RegNum)
  /-- Load immediate. -/
  | li (rd : RegNum) (imm : Word)
  /-- Load address: `delta` is the label's address less that of the first instruction (R185). -/
  | la (rd : RegNum) (delta : Word)
  /-- Return from subroutine. -/
  | ret
  /-- Call subroutine: `delta` as in `la` (R186). -/
  | call (delta : Word)
  /-- Unconditional jump. -/
  | j (offset : BitVec 21)
  /-- Jump register. -/
  | jr (rs : RegNum)
  deriving DecidableEq, Repr

/-- `hi` of R184 to R186: `(v + 0x800)[31:12]`. -/
def upperPart (v : Word) : BitVec 20 := (v + 0x00000800#32).extractLsb' 12 20

/-- `v[11:0]`, which `lo` of R184 to R186 sign-extends. -/
def lowerPart (v : Word) : BitVec 12 := v.extractLsb' 0 12

/-- The value is in `-2048 .. 2047`, the range of one ADDI (R184). -/
def fitsImm12 (v : Word) : Bool := decide (-2048 ≤ v.toInt) && decide (v.toInt ≤ 2047)

/-- The instructions that a pseudo-instruction stands for (R182 to R186). -/
def expand (p : Pseudo) : List Instr :=
  match p with
  | .nop => [.addi 0 0 0]
  | .mv rd rs => [.addi rd rs 0]
  | .not rd rs => [.xori rd rs 0xFFF]
  | .neg rd rs => [.sub rd 0 rs]
  | .li rd imm =>
    if fitsImm12 imm then [.addi rd 0 (lowerPart imm)]
    else if lowerPart imm = 0 then [.lui rd (upperPart imm)]
    else [.lui rd (upperPart imm), .addi rd rd (lowerPart imm)]
  | .la rd delta => [.auipc rd (upperPart delta), .addi rd rd (lowerPart delta)]
  | .ret => [.jalr 0 1 0]
  | .call delta => [.auipc 1 (upperPart delta), .jalr 1 1 (lowerPart delta)]
  | .j offset => [.jal 0 offset]
  | .jr rs => [.jalr 0 rs 0]

/-- Executes instructions one after the other, up to the first that does not go on. -/
def execList (is : List Instr) (s : State) : Result :=
  match is with
  | [] => .next s
  | i :: rest =>
    match exec i s with
    | .next t => execList rest t
    | .fault f => .fault f
    | .refused r => .refused r

end Sys2Proof.Machine
end

