-- ==== Sys2Proof/Safety.lean ====
section
/-! DEFINITION. The terms that claims about the machine use: its invariant, what a register result, a
memory write and a trap leave and change, and which state an instruction names. -/

namespace Sys2Proof.Machine

/-! ### The invariant -/

/-- What rules out states that no run reaches: memory in canonical form, the list behind `IMem` ordered
(R86), and machine mode (R361). -/
abbrev State.Inv (s : State) : Prop :=
  Memory.wf s.mem ∧ cellsOrdered s.icache ∧ s.priv = .M

/-- The convention of the spec's own programs for the parameter `EndOfRun` (R9, R405): the run is over
when `pc` is `endPc` at the start of a step. `EndOfRun` is OPEN; no step reads it (log entry 9). -/
def AtEndOfRun (endPc : Word) (s : State) : Prop := s.pc = endPc

/-! ### What an outcome changes and what it leaves -/

/-- `f` on the state of an outcome that goes on. -/
def mapNext (f : State → State) (o : Result) : Result :=
  match o with
  | .next s => .next (f s)
  | .fault e => .fault e
  | .refused r => .refused r

/-- Every byte of `Mem` and of `IMem` is as before. -/
def KeepsMemory (s t : State) : Prop :=
  (∀ a, memByte t a = memByte s a) ∧ ∀ a, imemByte t a = imemByte s a

/-- What no instruction changes by itself: the platform's memory map, and the draws, which are the
step's. -/
def KeepsPlatform (s t : State) : Prop := t.memMap = s.memMap ∧ t.draws = s.draws

/-- Every general register is as before. -/
def KeepsRegisters (s t : State) : Prop := ∀ r, readReg t r = readReg s r

/-- The general registers after a write of `v` to `rd`: `rd` holds `v`, `x0` still reads 0 whatever
`rd` is (R21), and every other register is as before. -/
def WritesRegister (s t : State) (rd : RegNum) (v : Word) : Prop :=
  ∀ r, readReg t r = if r = 0#5 then 0#32 else if r = rd then v else readReg s r

/-- No CSR cell, no counter but `instret`, no mode, no memory and no part of the platform changes. -/
def KeepsSystem (s t : State) : Prop :=
  t.priv = s.priv ∧ t.csrs = s.csrs ∧ t.cycle = s.cycle ∧ KeepsMemory s t ∧ KeepsPlatform s t

/-- The instruction completes: it raises nothing, goes on at `pc'` and counts as retired (R32, R63). -/
def CompletesAt (s t : State) (pc' : Word) : Prop := t.pc = pc' ∧ t.instret = s.instret + 1#64

/-- The instruction completes, writes `v` to `rd`, goes on at `pc'`, and changes nothing else. -/
def RegisterResult (i : Instr) (s : State) (rd : RegNum) (v pc' : Word) : Prop :=
  ∃ t, exec i s = .next t ∧ WritesRegister s t rd v ∧ CompletesAt s t pc' ∧ KeepsSystem s t

/-- The instruction completes, goes on at `pc'`, and changes nothing else. -/
def OnlyGoesTo (i : Instr) (s : State) (pc' : Word) : Prop :=
  ∃ t, exec i s = .next t ∧ KeepsRegisters s t ∧ CompletesAt s t pc' ∧ KeepsSystem s t

/-- The memory after a store of the low `n` bytes of `v` at `ea`: byte `k` of `v` lies at `ea + k`
(R105), every other byte is as before, and `IMem` is as before everywhere (R125). -/
def StoresBytes (s t : State) (ea : Word) (n : Nat) (v : Word) : Prop :=
  (∀ a : Word, memByte t a =
    if (a - ea).toNat < n then v.extractLsb' (8 * (a - ea).toNat) 8 else memByte s a) ∧
  ∀ a, imemByte t a = imemByte s a

/-- A store of the low `n` bytes of `v` at `ea` completes (R32, R63): it changes those bytes and nothing
else. -/
def StoreResult (i : Instr) (s : State) (ea : Word) (n : Nat) (v : Word) : Prop :=
  ∃ t, exec i s = .next t ∧ StoresBytes s t ea n v ∧ KeepsRegisters s t ∧
    CompletesAt s t (s.pc + 4#32) ∧ t.priv = s.priv ∧ t.csrs = s.csrs ∧ t.cycle = s.cycle ∧
    KeepsPlatform s t

/-- The end of a step (R35) leads from the outcome `t` of the instruction or trap to `u`: `cycle` has
advanced by the draw (R62), bytes of `IMem` may have been refilled from `Mem` (R126), and nothing else
is different. -/
def StepEnds (t u : State) : Prop :=
  KeepsRegisters t u ∧ u.pc = t.pc ∧ u.priv = t.priv ∧ u.csrs = t.csrs ∧ u.instret = t.instret ∧
  u.cycle = t.cycle + Config.cycleAdvance t.draws ∧ u.draws = t.draws + 1 ∧ u.memMap = t.memMap ∧
  (∀ a, memByte u a = memByte t a) ∧
  ∀ a, imemByte u a = imemByte t a ∨ imemByte u a = memByte t a

/-- The four CSRs that a trap writes (R350). -/
def trapCsrs : List Csr := [.mepc, .mcause, .mtval, .mstatus]

/-- The trap entry of R350 leads from `s` to `t` with this code, `epc` and `tval`: the seven steps and
the mode, every other bit of `mstatus`, and everything that a trap leaves alone (R346, R352). -/
def TrapEntered (s t : State) (code : Nat) (epc tval : Word) : Prop :=
  t.csrs.mepc = epc ∧ t.csrs.mcause = BitVec.ofNat 32 code ∧ t.csrs.mtval = tval ∧
  statusMPP t.csrs.mstatus = encPriv s.priv ∧
  statusMPIE t.csrs.mstatus = statusMIE s.csrs.mstatus ∧ statusMIE t.csrs.mstatus = false ∧
  (∀ k, k ≠ 3 → k ≠ 7 → k ≠ 11 → k ≠ 12 →
    t.csrs.mstatus.getLsbD k = s.csrs.mstatus.getLsbD k) ∧
  t.priv = .M ∧ t.pc = s.csrs.mtvec ∧
  (∀ c, c ∉ trapCsrs → readCsr c t = readCsr c s) ∧
  KeepsRegisters s t ∧ KeepsMemory s t ∧ KeepsPlatform s t

/-- The instruction takes the trap with this code, `epc` and `tval`. -/
def TrapsWith (i : Instr) (s : State) (code : Nat) (epc tval : Word) : Prop :=
  ∃ t, exec i s = .next t ∧ TrapEntered s t code epc tval

/-- The six CSRs that view a counter (R61). -/
def counterCsrs : List Csr := [.mcycle, .minstret, .ucycle, .uinstret, .ucycleh, .uinstreth]

/-- A CSR instruction completed that only read: `rd` receives the old value of `c`, `instret` counts,
and nothing else changes (R300). -/
def CsrRead (i : Instr) (s : State) (rd : RegNum) (c : Csr) : Prop :=
  RegisterResult i s rd (readCsr c s) (s.pc + 4#32)

/-- A CSR instruction completed that wrote: `rd` receives the old value of `c` and `c` holds `v`
(R300); a write of `mcycle` or `minstret` sets the low half of its counter and leaves the upper half
(R59, R60); `instret` counts unless `c` is `minstret` (R60, R63); nothing else changes. -/
def CsrWritten (i : Instr) (s : State) (rd : RegNum) (c : Csr) (v : Word) : Prop :=
  ∃ t, exec i s = .next t ∧ WritesRegister s t rd (readCsr c s) ∧ t.pc = s.pc + 4#32 ∧
    readCsr c t = v ∧ (∀ d, d ≠ c → d ∉ counterCsrs → readCsr d t = readCsr d s) ∧
    t.cycle = (if c = .mcycle then s.cycle.extractLsb' 32 32 ++ v else s.cycle) ∧
    t.instret = (if c = .minstret then s.instret.extractLsb' 32 32 ++ v else s.instret + 1#64) ∧
    t.priv = s.priv ∧ KeepsMemory s t ∧ KeepsPlatform s t

/-- What one form of a CSR instruction does, as R300 has it, for every CSR address: `i csr` is the
instruction at the address `csr`, `w csr` its word, `doWrite` whether the form writes, `new` the written
value as a function of the old one. -/
def CsrForm (i : CsrAddr → Instr) (w : CsrAddr → Word) (s : State) (rd : RegNum) (doWrite : Bool)
    (new : Word → Word) : Prop :=
  (∀ csr, decode (w csr) = .ok (i csr)) ∧
  (∀ csr, csrAt csr = none → TrapsWith (i csr) s 2 s.pc (w csr)) ∧
  ∀ c, if doWrite then
      if csrReadOnly c then TrapsWith (i (csrAddress c)) s 2 s.pc (w (csrAddress c))
      else CsrWritten (i (csrAddress c)) s rd c (new (readCsr c s))
    else CsrRead (i (csrAddress c)) s rd c

/-- The step takes the trap with this code, `epc` and `tval`. -/
def StepTraps (s : State) (code : Nat) (epc tval : Word) : Prop :=
  ∃ t u, TrapEntered s t code epc tval ∧ step s = .next u ∧ StepEnds t u

/-! ### What an instruction names (R22) -/

/-- The general register that an instruction writes, if its format has one that it uses (R22, R167). -/
def destination (i : Instr) : Option RegNum :=
  match i with
  | .bne _ _ _ | .beq _ _ _ | .blt _ _ _ | .bge _ _ _ | .bltu _ _ _ | .bgeu _ _ _ => none
  | .auipc rd _ | .lui rd _ | .jal rd _ => some rd
  | .slt rd _ _ | .sltu rd _ _ | .slti rd _ _ | .sltiu rd _ _ => some rd
  | .add rd _ _ | .sub rd _ _ | .addi rd _ _ | .jalr rd _ _ => some rd
  | .xor rd _ _ | .or rd _ _ | .and rd _ _ | .ori rd _ _ | .xori rd _ _ | .andi rd _ _ => some rd
  | .sw _ _ _ | .sb _ _ _ | .sh _ _ _ => none
  | .lb rd _ _ | .lh rd _ _ | .lw rd _ _ | .lbu rd _ _ | .lhu rd _ _ => some rd
  | .srai rd _ _ | .slli rd _ _ | .sra rd _ _ | .srl rd _ _ | .sll rd _ _ | .srli rd _ _ => some rd
  | .fencei _ _ _ | .fence _ _ _ _ _ | .ecall | .ebreak => none
  | .csrrw rd _ _ | .csrrs rd _ _ | .csrrc rd _ _ => some rd
  | .csrrwi rd _ _ | .csrrsi rd _ _ | .csrrci rd _ _ => some rd

/-- The general registers that an instruction reads (R22). -/
def sources (i : Instr) : List RegNum :=
  match i with
  | .bne rs1 rs2 _ | .beq rs1 rs2 _ | .blt rs1 rs2 _ | .bge rs1 rs2 _ => [rs1, rs2]
  | .bltu rs1 rs2 _ | .bgeu rs1 rs2 _ => [rs1, rs2]
  | .auipc _ _ | .lui _ _ | .jal _ _ => []
  | .slt _ rs1 rs2 | .sltu _ rs1 rs2 | .add _ rs1 rs2 | .sub _ rs1 rs2 => [rs1, rs2]
  | .slti _ rs1 _ | .sltiu _ rs1 _ | .addi _ rs1 _ | .jalr _ rs1 _ => [rs1]
  | .xor _ rs1 rs2 | .or _ rs1 rs2 | .and _ rs1 rs2 => [rs1, rs2]
  | .ori _ rs1 _ | .xori _ rs1 _ | .andi _ rs1 _ => [rs1]
  | .sw rs2 _ rs1 | .sb rs2 _ rs1 | .sh rs2 _ rs1 => [rs1, rs2]
  | .lb _ _ rs1 | .lh _ _ rs1 | .lw _ _ rs1 | .lbu _ _ rs1 | .lhu _ _ rs1 => [rs1]
  | .srai _ rs1 _ | .slli _ rs1 _ | .srli _ rs1 _ => [rs1]
  | .sra _ rs1 rs2 | .srl _ rs1 rs2 | .sll _ rs1 rs2 => [rs1, rs2]
  | .fencei _ _ _ | .fence _ _ _ _ _ | .ecall | .ebreak => []
  | .csrrw _ _ rs1 | .csrrs _ _ rs1 | .csrrc _ _ rs1 => [rs1]
  | .csrrwi _ _ _ | .csrrsi _ _ _ | .csrrci _ _ _ => []

/-- The CSR address of a CSR instruction and whether the form writes (R300); none for every other
instruction. -/
def csrAccess (i : Instr) : Option (CsrAddr × Bool) :=
  match i with
  | .csrrw _ csr _ | .csrrwi _ csr _ => some (csr, true)
  | .csrrs _ csr rs1 | .csrrc _ csr rs1 => some (csr, rs1 != 0#5)
  | .csrrsi _ csr uimm5 | .csrrci _ csr uimm5 => some (csr, uimm5 != 0#5)
  | .bne _ _ _ | .beq _ _ _ | .blt _ _ _ | .bge _ _ _ | .bltu _ _ _ | .bgeu _ _ _ => none
  | .auipc _ _ | .slt _ _ _ | .sltu _ _ _ | .slti _ _ _ | .sltiu _ _ _ | .lui _ _ => none
  | .add _ _ _ | .sub _ _ _ | .addi _ _ _ | .jal _ _ | .jalr _ _ _ => none
  | .xor _ _ _ | .or _ _ _ | .and _ _ _ | .ori _ _ _ | .xori _ _ _ | .andi _ _ _ => none
  | .sw _ _ _ | .lb _ _ _ | .lh _ _ _ | .lw _ _ _ | .lbu _ _ _ | .lhu _ _ _ => none
  | .sb _ _ _ | .sh _ _ _ => none
  | .srai _ _ _ | .slli _ _ _ | .sra _ _ _ | .srl _ _ _ | .sll _ _ _ | .srli _ _ _ => none
  | .fencei _ _ _ | .fence _ _ _ _ _ | .ecall | .ebreak => none

/-- The address to which a branch or a jump transfers control, when it does (R150, R152, R200 to R205,
R240, R241); none for every other instruction. -/
def target (i : Instr) (s : State) : Option Word :=
  match i with
  | .bne _ _ off | .beq _ _ off | .blt _ _ off | .bge _ _ off => some (s.pc + off.signExtend 32)
  | .bltu _ _ off | .bgeu _ _ off => some (s.pc + off.signExtend 32)
  | .jal _ off => some (s.pc + off.signExtend 32)
  | .jalr _ rs1 off => some ((readReg s rs1 + off.signExtend 32) &&& 0xFFFFFFFE#32)
  | .auipc _ _ | .slt _ _ _ | .sltu _ _ _ | .slti _ _ _ | .sltiu _ _ _ | .lui _ _ => none
  | .add _ _ _ | .sub _ _ _ | .addi _ _ _ => none
  | .xor _ _ _ | .or _ _ _ | .and _ _ _ | .ori _ _ _ | .xori _ _ _ | .andi _ _ _ => none
  | .sw _ _ _ | .lb _ _ _ | .lh _ _ _ | .lw _ _ _ | .lbu _ _ _ | .lhu _ _ _ => none
  | .sb _ _ _ | .sh _ _ _ => none
  | .srai _ _ _ | .slli _ _ _ | .sra _ _ _ | .srl _ _ _ | .sll _ _ _ | .srli _ _ _ => none
  | .fencei _ _ _ | .fence _ _ _ _ _ | .ecall | .ebreak => none
  | .csrrci _ _ _ | .csrrw _ _ _ | .csrrs _ _ _ | .csrrc _ _ _ | .csrrwi _ _ _ | .csrrsi _ _ _ => none

/-- The three stores (R109). -/
def isStore (i : Instr) : Bool :=
  match i with
  | .sw _ _ _ | .sb _ _ _ | .sh _ _ _ => true
  | .bne _ _ _ | .beq _ _ _ | .blt _ _ _ | .bge _ _ _ | .bltu _ _ _ | .bgeu _ _ _ => false
  | .auipc _ _ | .slt _ _ _ | .sltu _ _ _ | .slti _ _ _ | .sltiu _ _ _ | .lui _ _ => false
  | .add _ _ _ | .sub _ _ _ | .addi _ _ _ | .jal _ _ | .jalr _ _ _ => false
  | .xor _ _ _ | .or _ _ _ | .and _ _ _ | .ori _ _ _ | .xori _ _ _ | .andi _ _ _ => false
  | .lb _ _ _ | .lh _ _ _ | .lw _ _ _ | .lbu _ _ _ | .lhu _ _ _ => false
  | .srai _ _ _ | .slli _ _ _ | .sra _ _ _ | .srl _ _ _ | .sll _ _ _ | .srli _ _ _ => false
  | .fencei _ _ _ | .fence _ _ _ _ _ | .ecall | .ebreak => false
  | .csrrci _ _ _ | .csrrw _ _ _ | .csrrs _ _ _ | .csrrc _ _ _ | .csrrwi _ _ _ | .csrrsi _ _ _ => false

/-- The five loads (R109). -/
def isLoad (i : Instr) : Bool :=
  match i with
  | .lb _ _ _ | .lh _ _ _ | .lw _ _ _ | .lbu _ _ _ | .lhu _ _ _ => true
  | .bne _ _ _ | .beq _ _ _ | .blt _ _ _ | .bge _ _ _ | .bltu _ _ _ | .bgeu _ _ _ => false
  | .auipc _ _ | .slt _ _ _ | .sltu _ _ _ | .slti _ _ _ | .sltiu _ _ _ | .lui _ _ => false
  | .add _ _ _ | .sub _ _ _ | .addi _ _ _ | .jal _ _ | .jalr _ _ _ => false
  | .xor _ _ _ | .or _ _ _ | .and _ _ _ | .ori _ _ _ | .xori _ _ _ | .andi _ _ _ => false
  | .sw _ _ _ | .sb _ _ _ | .sh _ _ _ => false
  | .srai _ _ _ | .slli _ _ _ | .sra _ _ _ | .srl _ _ _ | .sll _ _ _ | .srli _ _ _ => false
  | .fencei _ _ _ | .fence _ _ _ _ _ | .ecall | .ebreak => false
  | .csrrci _ _ _ | .csrrw _ _ _ | .csrrs _ _ _ | .csrrc _ _ _ | .csrrwi _ _ _ | .csrrsi _ _ _ => false

/-- The CSRs that read the cycle counter (R62). -/
def cycleCsrs : List Csr := [.mcycle, .ucycle, .ucycleh]

/-- The instruction accesses the cycle counter (R62). -/
def readsCycle (i : Instr) : Bool :=
  match csrAccess i with
  | some (a, _) => cycleCsrs.any (fun c => csrAddress c == a)
  | none => false

end Sys2Proof.Machine
end

