-- ==== Sys2Proof/Certificates/Slice0/Obligations.lean ====
section
/-! DEFINITION. The statements for the provers, grouped as OBLIGATIONS.json lists them. -/

open Sys2Proof Sys2Proof.Machine

/-! ### Encoding -/

/-- Decoding the encoding of a well-formed instruction gives it back (R141 to R156, R160). Where the
words rest on the spec's own decisions: D5, D6, D7, D33. -/
def Obligations.DecodeEncodeRoundTrip : Prop :=
  ∀ i : Instr, i.wellFormed = true → decode (encode i) = .ok i

/-- A word that decodes is the encoding of the instruction it decodes to, which is well formed: no bit
of a word is lost, the ignored fields of R167 included. The ignored fields and the fixed bits are the
spec's own decisions D5, D6, D7. -/
def Obligations.EncodeDecodeRoundTrip : Prop :=
  ∀ (w : Word) (i : Instr), decode w = .ok i → encode i = w ∧ i.wellFormed = true

/-- R160: the decoder answers by the row that a word matches and rejects a word that matches none, and
no word matches two rows. An inference the spec marks as derived (the last sentence of the rule). -/
def Obligations.EveryWordMatchesAtMostOneRow : Prop :=
  opcodeTable.length = 47 ∧ ∀ w : Word,
    (∀ (j k : Nat) (hj : j < opcodeTable.length) (hk : k < opcodeTable.length),
      w &&& opcodeTable[j].mask = opcodeTable[j].pat →
      w &&& opcodeTable[k].mask = opcodeTable[k].pat → j = k) ∧
    (∀ r ∈ opcodeTable, w &&& r.mask = r.pat → decode w = .ok (r.build w)) ∧
    ((∀ r ∈ opcodeTable, w &&& r.mask ≠ r.pat) → ∃ e, decode w = .error e)

/-- R171, line by line: which words are illegal. The spec marks the table as derived; it rests on its
own decisions D5, D6, D24. -/
def Obligations.IllegalWordsByOpcode : Prop :=
  ∀ w : Word,
    let opcode := w.extractLsb' 0 7
    let funct3 := w.extractLsb' 12 3
    let upper := w.extractLsb' 25 7
    (∃ e, decode w = .error e) ↔
      (opcode ∉ [0x03#7, 0x0F#7, 0x13#7, 0x17#7, 0x23#7, 0x33#7, 0x37#7, 0x63#7, 0x67#7, 0x6F#7, 0x73#7] ∨
      (opcode = 0x33#7 ∧ (upper ∉ [0x00#7, 0x20#7] ∨ upper = 0x20#7 ∧ funct3 ∉ [0#3, 5#3])) ∨
      (opcode = 0x13#7 ∧
        (funct3 = 1#3 ∧ upper ≠ 0x00#7 ∨ funct3 = 5#3 ∧ upper ∉ [0x00#7, 0x20#7])) ∨
      (opcode = 0x03#7 ∧ funct3 ∈ [3#3, 6#3, 7#3]) ∨
      (opcode = 0x23#7 ∧ funct3 ∈ [3#3, 4#3, 5#3, 6#3, 7#3]) ∨
      (opcode = 0x63#7 ∧ funct3 ∈ [2#3, 3#3]) ∨
      (opcode = 0x67#7 ∧ funct3 ≠ 0#3) ∨
      (opcode = 0x0F#7 ∧ funct3 ∈ [2#3, 3#3, 4#3, 5#3, 6#3, 7#3]) ∨
      (opcode = 0x73#7 ∧
        (funct3 = 4#3 ∨ funct3 = 0#3 ∧ w ∉ [0x00000073#32, 0x00100073#32])))

/-- The worked examples of R200 to R308, one word of every family, and the illegal words of R172. The
words of SRAI, FENCE, CSRRW and EBREAK rest on the spec's own decisions D5, D6, D7, D33. -/
def Obligations.SampleWordsDecode : Prop :=
  decode 0xFE629CE3#32 = .ok (.bne 5 6 (-8)) ∧ decode 0x12345297#32 = .ok (.auipc 5 0x12345) ∧
  decode 0xFFF30293#32 = .ok (.addi 5 6 (-1)) ∧ decode 0xFFDFF06F#32 = .ok (.jal 0 (-4)) ∧
  decode 0xFFC280E7#32 = .ok (.jalr 1 5 (-4)) ∧ decode 0xF0037293#32 = .ok (.andi 5 6 (-256)) ∧
  decode 0xFE62AE23#32 = .ok (.sw 6 (-4) 5) ∧ decode 0x00832283#32 = .ok (.lw 5 8 6) ∧
  decode 0x41F35293#32 = .ok (.srai 5 6 31) ∧ decode 0x0330000F#32 = .ok (.fence 0 3 3 0 0) ∧
  decode 0x30529073#32 = .ok (.csrrw 0 0x305 5) ∧ decode 0x00100073#32 = .ok .ebreak ∧
  [0x00000000#32, 0xFFFFFFFF#32, 0x30200073#32, 0x10200073#32, 0x10500073#32].all
    (fun w => match decode w with | .ok _ => false | .error _ => true) = true

/-! ### The step -/

/-- R35, R106: at an aligned, fetchable `pc` whose four bytes of `IMem` decode, the step is the
execution of the decoded instruction, followed by what ends every step. The phases are the spec's own
decision D25, the end of the step D17 and D27. -/
def Obligations.StepRunsDecodedInstruction : Prop :=
  ∀ (s : State) (i : Instr), s.pc.toNat % 4 = 0 → mapFetch s.memMap s.pc = true →
    decodeBytes [imemByte s s.pc, imemByte s (s.pc + 1#32), imemByte s (s.pc + 2#32),
      imemByte s (s.pc + 3#32)] = .ok (i, []) →
    ∀ t, exec i s = .next t → ∃ u, step s = .next u ∧ StepEnds t u

/-- R330, R331: a misaligned `pc` traps before any fetch with code 0, and an aligned `pc` that the
memory map does not let fetch traps with code 1. The spec's own decisions D3, D4, D20, D25, and D13, D22
for the trap entry (log entries 4, 11). -/
def Obligations.FetchPhaseExceptionsTrap : Prop :=
  ∀ s : State,
    (s.pc.toNat % 4 ≠ 0 → StepTraps s 0 s.pc s.pc) ∧
    (s.pc.toNat % 4 = 0 → mapFetch s.memMap s.pc = false → StepTraps s 1 s.pc s.pc)

/-- R170: a fetched word that decodes to nothing traps with code 2, its address in `mepc` and the word
in `mtval`. The spec's own decisions D1, D20, D24, and D13, D22 for the trap entry (log entries 4, 11). -/
def Obligations.IllegalWordTraps : Prop :=
  ∀ (s : State) (w : Word) (e : Reject), s.pc.toNat % 4 = 0 → mapFetch s.memMap s.pc = true →
    imemByte s (s.pc + 3#32) ++ imemByte s (s.pc + 2#32) ++ imemByte s (s.pc + 1#32) ++
      imemByte s s.pc = w →
    decode w = .error e → StepTraps s 2 s.pc w

/-- Every instruction answers a next state in every state: none stops (R405). The sentence of section 5
of 70_reset_and_hazards.md: the processor never stops by itself. -/
def Obligations.EveryInstructionAnswersNext : Prop :=
  ∀ (i : Instr) (s : State), ∃ t, exec i s = .next t

/-- "After every step there is a next step" (R405): a run of any length, from any state, goes on. The
spec's sentence in section 5 of 70_reset_and_hazards.md. -/
def Obligations.RunsNeverStop : Prop :=
  ∀ (n : Nat) (s : State), ∃ t, Host.Core.run Sys2Proof.core n s = .next t

/-- R32: an instruction that traps goes on at `mtvec`; every other goes on at `pc + 4`, unless it is a
branch or a jump, which may go on at its target instead. That every other instruction goes on at pc + 4
is an inference the spec marks as derived. -/
def Obligations.ProgramCounterSuccessors : Prop :=
  ∀ (i : Instr) (s t : State), exec i s = .next t →
    (∃ e, t = takeTrap e s ∧ t.pc = s.csrs.mtvec) ∨
    (t.pc = s.pc + 4#32 ∧ ∀ rd rs1 o p, i ≠ .jal rd o ∧ i ≠ .jalr rd rs1 p) ∨
    target i s = some t.pc

/-- A word that the host places at `pc` (R395, R406) is the next instruction: the interface that
`State.withFetchWord` offers. That a host places the word is the model's reading, log entry 1; its byte
order is the spec's own decision D1 (log entry 11). -/
def Obligations.PlacedWordRunsNext : Prop :=
  ∀ (s : State) (w : Word) (i : Instr), s.pc.toNat % 4 = 0 → mapFetch s.memMap s.pc = true →
    decode w = .ok i →
    step (s.withFetchWord 32 w.toNat) = endResult (exec i (s.withFetchWord 32 w.toNat)) ∧
    KeepsRegisters s (s.withFetchWord 32 w.toNat) ∧ (s.withFetchWord 32 w.toNat).csrs = s.csrs ∧
    (∀ a : Word, 4 ≤ (a - s.pc).toNat →
      memByte (s.withFetchWord 32 w.toNat) a = memByte s a ∧
      imemByte (s.withFetchWord 32 w.toNat) a = imemByte s a)

/-! ### Traps -/

/-- R350, R351, R345: what each of the eleven exceptions saves and where it goes, and everything that a
trap leaves alone. Bit positions, mtval and the mode are the spec's own decisions D13, D20, D21, D22,
D34. -/
def Obligations.TrapEntrySavesAndKeeps : Prop :=
  ∀ (s : State) (x : Word),
    TrapEntered s (takeTrap (.instrAddrMisaligned x) s) 0 s.pc x ∧
    TrapEntered s (takeTrap (.instrAccessFault x) s) 1 s.pc x ∧
    TrapEntered s (takeTrap (.illegalInstr x) s) 2 s.pc x ∧
    TrapEntered s (takeTrap .breakpoint s) 3 (s.pc + 4#32) 0#32 ∧
    TrapEntered s (takeTrap (.loadAddrMisaligned x) s) 4 s.pc x ∧
    TrapEntered s (takeTrap (.loadAccessFault x) s) 5 s.pc x ∧
    TrapEntered s (takeTrap (.storeAddrMisaligned x) s) 6 s.pc x ∧
    TrapEntered s (takeTrap (.storeAccessFault x) s) 7 s.pc x ∧
    TrapEntered s (takeTrap .ecallU s) 8 (s.pc + 4#32) 0#32 ∧
    TrapEntered s (takeTrap .ecallS s) 9 (s.pc + 4#32) 0#32 ∧
    TrapEntered s (takeTrap .ecallM s) 11 (s.pc + 4#32) 0#32

/-- R351: a step that traps records `pc` in `mepc` for codes 0, 1, 2, 4, 5, 6 and 7 and `pc + 4` for
codes 3, 8, 9 and 11; a step that does not trap changes `mepc` and `mcause` only by a CSR instruction that
writes them. -/
def Obligations.TrapsRecordPcOrNextPc : Prop :=
  ∀ s t : State, step s = .next t →
    (∃ e, t = endStep (takeTrap e s) ∧
      (t.csrs.mcause.toNat ∈ [0, 1, 2, 4, 5, 6, 7] ∧ t.csrs.mepc = s.pc ∨
        t.csrs.mcause.toNat ∈ [3, 8, 9, 11] ∧ t.csrs.mepc = s.pc + 4#32)) ∨
    ∃ i, nextInstr s = .ok i ∧
      (t.csrs.mepc = s.csrs.mepc ∨ csrAccess i = some (csrAddress .mepc, true)) ∧
      (t.csrs.mcause = s.csrs.mcause ∨ csrAccess i = some (csrAddress .mcause, true))

/-- R354: when `mtvec` is misaligned, is not fetchable, or holds an illegal word, the machine that has
entered the handler traps again at every step, for ever, and executes no instruction. An inference the
spec marks as derived (section 4 of 60_exceptions.md); the use of mtvec and the bits of mstatus are its
own decisions D13, D21 (log entry 11). -/
def Obligations.UnusableVectorLoopsForever : Prop :=
  ∀ (s : State) (code n : Nat), s.pc = s.csrs.mtvec →
    (code = 0 ∧ s.pc.toNat % 4 ≠ 0 ∨
      code = 1 ∧ s.pc.toNat % 4 = 0 ∧ mapFetch s.memMap s.pc = false ∨
      code = 2 ∧ s.pc.toNat % 4 = 0 ∧ mapFetch s.memMap s.pc = true ∧
        (∀ a, imemByte s a = memByte s a) ∧ ∃ e, decode (memWord s s.pc) = .error e) →
    ∃ t, Host.Core.run Sys2Proof.core n s = .next t ∧ t.pc = s.csrs.mtvec ∧
      t.csrs.mtvec = s.csrs.mtvec ∧ KeepsRegisters s t ∧ t.instret = s.instret ∧
      (∀ a, memByte t a = memByte s a) ∧
      (0 < n → t.csrs.mepc = s.csrs.mtvec ∧ t.csrs.mcause = BitVec.ofNat 32 code ∧
        statusMIE t.csrs.mstatus = false) ∧
      (1 < n → statusMPIE t.csrs.mstatus = false)

/-- R301, R302: ECALL traps with code 8, 9 or 11 by the mode and EBREAK with code 3 in every mode, both
with the next pc in `mepc` and 0 in `mtval`. The words, the mode encoding and mtval are the spec's own
decisions D5, D13, D20. -/
def Obligations.EcallAndEbreakTrap : Prop :=
  decode 0x00000073#32 = .ok .ecall ∧ decode 0x00100073#32 = .ok .ebreak ∧
  encPriv .U = 0#2 ∧ encPriv .S = 1#2 ∧ encPriv .M = 3#2 ∧
  ∀ s : State,
    TrapsWith .ecall s (8 + (encPriv s.priv).toNat) (s.pc + 4#32) 0#32 ∧
    TrapsWith .ebreak s 3 (s.pc + 4#32) 0#32

/-- R355: a handler that reads `mepc` into a register other than `x0` and jumps through it goes on at
`mepc` with bit 0 cleared, and changes no other register and no CSR cell. The sequence is the spec's own
decision D23. -/
def Obligations.HandlerReturnsThroughMepc : Prop :=
  ∀ (s : State) (rd : RegNum), rd ≠ 0#5 →
    ∃ t, execList [.csrrs rd 0x341#12 0, .jalr 0 rd 0] s = .next t ∧
      t.pc = s.csrs.mepc &&& ~~~1#32 ∧ WritesRegister s t rd s.csrs.mepc ∧
      t.csrs = s.csrs ∧ t.priv = s.priv ∧ KeepsMemory s t

/-- R400: a CSRRW of `mtvec` followed at once by ECALL traps to the new address. The example of the
spec's sentence in section 4 of 70_reset_and_hazards.md; the value written and the use of mtvec are its
own decisions D14, D21 (log entry 5). -/
def Obligations.VectorWriteSeenByNextTrap : Prop :=
  ∀ (s : State) (rd rs1 : RegNum),
    ∃ t, execList [.csrrw rd 0x305#12 rs1, .ecall] s = .next t ∧
      t.pc = readReg s rs1 ∧ t.csrs.mtvec = readReg s rs1 ∧ t.csrs.mepc = s.pc + 8#32

/-- R385: the worked trap, with the load and with ECALL in its place. An example the spec marks as
derived; that the host places the word at pc is the model's reading, log entry 1; the words and values
are the spec's own decisions D5, D13, D20. -/
def Obligations.WorkedTrapExample : Prop :=
  ∀ s : State, s.pc = 0x00001010#32 → mapFetch s.memMap s.pc = true →
    readReg s 6 = 0x00001002#32 → readReg s 5 = 0x55555555#32 → s.csrs.mtvec = 0x00000200#32 →
    s.csrs.mstatus = 0x00000008#32 → s.priv = .M → s.instret = 40#64 →
    ∃ t u,
      step (s.withFetchWord 32 0x00032283) = .next t ∧ t.csrs.mepc = 0x00001010#32 ∧
      t.csrs.mcause = 0x00000004#32 ∧ t.csrs.mtval = 0x00001002#32 ∧
      step (s.withFetchWord 32 0x00000073) = .next u ∧ u.csrs.mepc = 0x00001014#32 ∧
      u.csrs.mcause = 0x0000000B#32 ∧ u.csrs.mtval = 0#32 ∧
      ∀ v ∈ [t, u], v.csrs.mstatus = 0x00001880#32 ∧ v.pc = 0x00000200#32 ∧
        readReg v 5 = 0x55555555#32 ∧ v.instret = 40#64 ∧
        ∀ a, (4 ≤ (a - s.pc).toNat → memByte v a = memByte s a)

/-! ### Whole-machine rules -/

/-- What rules out states that no run reaches holds after reset, for every `RESET_PC` and every memory
map. The form of the lists is the model's own, log entries 3 and 7; the mode is the spec's decision D12. -/
def Obligations.ResetMeetsInvariant : Prop :=
  (∀ (pc : Word) (m : Config.MemMap), (State.resetWith pc m).Inv) ∧ State.reset.Inv

/-- Every step keeps memory canonical, the list behind `IMem` ordered, and machine mode. The form of the
lists is the model's own, log entries 3 and 7; the mode is the spec's decision D12. -/
def Obligations.StepKeepsInvariant : Prop :=
  ∀ s t : State, s.Inv → step s = .next t → t.Inv

/-- R390, R391, R394: after reset the mode is M, `pc` is `RESET_PC`, `x0` reads 0 and `IMem` is `Mem`;
`State.reset` is that state at an aligned `RESET_PC`. The spec's own decisions D11, D12, D27; the chosen
RESET_PC and map are the model's, log entries 1 and 4. -/
def Obligations.StateAfterReset : Prop :=
  (∀ (pc : Word) (m : Config.MemMap),
    (State.resetWith pc m).priv = .M ∧ (State.resetWith pc m).pc = pc ∧
    (State.resetWith pc m).memMap = m ∧ readReg (State.resetWith pc m) 0#5 = 0#32 ∧
    ∀ a, imemByte (State.resetWith pc m) a = memByte (State.resetWith pc m) a) ∧
  State.reset = State.resetWith resetPc resetMemMap ∧ resetPc.toNat % 4 = 0

/-- R361, R362: the mode changes only in a trap, which leads to M; so a step from M stays in M. The
spec's own decisions D12, D22. -/
def Obligations.ModeChangesOnlyByTrap : Prop :=
  (∀ (i : Instr) (s t : State), exec i s = .next t →
    t.priv = s.priv ∨ t.priv = .M ∧ ∃ e, t = takeTrap e s) ∧
  ∀ (n : Nat) (s t : State), s.priv = .M → Host.Core.run Sys2Proof.core n s = .next t → t.priv = .M

/-- R22: no instruction writes a general register other than the `rd` that its format has, a trap writes
none, and `x0` reads 0 in every state (R21). An inference the spec marks as derived (section 1 of
10_state.md). -/
def Obligations.OnlyNamedRegistersChange : Prop :=
  ∀ s t : State, step s = .next t →
    readReg t 0#5 = 0#32 ∧
    ∀ r, readReg t r ≠ readReg s r → ∃ i, nextInstr s = .ok i ∧ destination i = some r

/-- R22: no instruction reads a general register that its encoding does not name: with another value
there, it does the same, and the register keeps that value. An inference the spec marks as derived
(section 1 of 10_state.md). -/
def Obligations.UnnamedRegistersDoNotMatter : Prop :=
  ∀ (i : Instr) (s : State) (r : RegNum) (v : Word), r ∉ sources i → destination i ≠ some r →
    exec i (writeReg r v s) = mapNext (writeReg r v) (exec i s)

/-- R2, R85: only the three stores write memory, `IMem` changes at once only by FENCEI (R125), and an
instruction that is neither a load nor a store does the same whatever memory holds. That stores leave
IMem is the spec's own decision D27. -/
def Obligations.OnlyLoadsAndStoresUseMemory : Prop :=
  (∀ (i : Instr) (s t : State), exec i s = .next t →
    (isStore i = false → ∀ a, memByte t a = memByte s a) ∧
    ((∀ imm12 rs1 rd, i ≠ .fencei imm12 rs1 rd) → ∀ a, imemByte t a = imemByte s a)) ∧
  ∀ (i : Instr) (s : State) (m : Memory), isStore i = false → isLoad i = false →
    exec i { s with mem := m } = mapNext (fun t => { t with mem := m }) (exec i s)

/-- R85: the CSRs are reached only by the CSR instructions and the trap entry: an instruction that
writes no CSR leaves every CSR cell, or traps and changes the four that the trap entry writes. The
spec's sentence on the CSR space in section 5 of 10_state.md. -/
def Obligations.CsrsChangeOnlyByCsrInstructionsAndTraps : Prop :=
  ∀ (i : Instr) (s t : State) (c : Csr), exec i s = .next t → c ∉ counterCsrs →
    readCsr c t ≠ readCsr c s →
    csrAccess i = some (csrAddress c, true) ∧ csrReadOnly c = false ∨
      c ∈ trapCsrs ∧ ∃ e, t = takeTrap e s

/-- R63: a step that ends in a trap leaves `instret`; a step that writes `minstret` leaves its upper
half (R60); every other step adds 1 modulo 2^64. The spec's own decision D17. -/
def Obligations.RetiredInstructionsAreCounted : Prop :=
  ∀ s t : State, step s = .next t →
    (∃ e, t = endStep (takeTrap e s) ∧ t.instret = s.instret) ∨
    (∃ i, nextInstr s = .ok i ∧ csrAccess i = some (csrAddress .minstret, true) ∧
      t.instret.extractLsb' 32 32 = s.instret.extractLsb' 32 32) ∨
    (∃ i, nextInstr s = .ok i ∧ csrAccess i ≠ some (csrAddress .minstret, true) ∧
      t.instret = s.instret + 1#64)

/-- R62: the cycle counter matters to no instruction but those that access it: with another count, they
do the same. The spec's own decision D17. -/
def Obligations.CycleCounterIsInvisible : Prop :=
  ∀ (i : Instr) (s : State) (n : BitVec 64), readsCycle i = false →
    exec i { s with cycle := n } = mapNext (fun t => { t with cycle := n }) (exec i s)

/-- R112, R342, R357: no CSR but the trap's own registers and the counters has any effect: with another
value in it, a step that accesses no CSR does the same. The spec's own decisions D18, D19, D28; both
steps take the same draw of the free values, log entries 6 and 7. -/
def Obligations.InertCsrsHaveNoEffect : Prop :=
  ∀ (s : State) (c : Csr) (v : Word), c ∉ [.mtvec, .mstatus, .mepc, .mcause, .mtval] →
    c ∉ counterCsrs → (∀ i, nextInstr s = .ok i → csrAccess i = none) →
    step (putCsr c v s) = mapNext (putCsr c v) (step s)

/-- R86, R125, R126: a step leaves each byte of `IMem` as it was or refills it from `Mem`; a byte of
`IMem` that agrees with `Mem` goes on agreeing as long as no store changes that byte of `Mem`. The
spec's own decision D27; that the refill falls at the end of a step is the model's choice, log entry 7. -/
def Obligations.FetchViewSeesOldOrNewByte : Prop :=
  ∀ (s t : State) (a : Word), step s = .next t →
    (imemByte t a = imemByte s a ∨ imemByte t a = memByte t a) ∧
    (imemByte s a = memByte s a → memByte t a = memByte s a → imemByte t a = memByte t a)

/-- R86: execution never reads `IMem`: with another fetch view, an instruction does the same. The spec's
own decision D27. -/
def Obligations.ExecutionDoesNotReadFetchView : Prop :=
  ∀ (i : Instr) (s : State) (cells : List Host.Cell),
    ∃ t u, exec i s = .next t ∧ exec i { s with icache := cells } = .next u ∧
      { u with icache := t.icache } = t

/-! ### Integer, logical and shift instructions -/

/-- R226, R227, R221, R222: ADD, SUB, SLT and SLTU, with their encodings. -/
def Obligations.RegisterArithmeticResults : Prop :=
  ∀ (s : State) (rd rs1 rs2 : RegNum),
    decode (0b0000000#7 ++ rs2 ++ rs1 ++ 0b000#3 ++ rd ++ 0b0110011#7) = .ok (.add rd rs1 rs2) ∧
    RegisterResult (.add rd rs1 rs2) s rd (readReg s rs1 + readReg s rs2) (s.pc + 4#32) ∧
    decode (0b0100000#7 ++ rs2 ++ rs1 ++ 0b000#3 ++ rd ++ 0b0110011#7) = .ok (.sub rd rs1 rs2) ∧
    RegisterResult (.sub rd rs1 rs2) s rd (readReg s rs1 - readReg s rs2) (s.pc + 4#32) ∧
    decode (0b0000000#7 ++ rs2 ++ rs1 ++ 0b010#3 ++ rd ++ 0b0110011#7) = .ok (.slt rd rs1 rs2) ∧
    RegisterResult (.slt rd rs1 rs2) s rd
      (if (readReg s rs1).toInt < (readReg s rs2).toInt then 1#32 else 0#32) (s.pc + 4#32) ∧
    decode (0b0000000#7 ++ rs2 ++ rs1 ++ 0b011#3 ++ rd ++ 0b0110011#7) = .ok (.sltu rd rs1 rs2) ∧
    RegisterResult (.sltu rd rs1 rs2) s rd
      (if (readReg s rs1).toNat < (readReg s rs2).toNat then 1#32 else 0#32) (s.pc + 4#32)

/-- R228, R223, R224: ADDI, SLTI and SLTIU, with their encodings; the immediate is sign-extended in all
three. -/
def Obligations.ImmediateArithmeticResults : Prop :=
  ∀ (s : State) (rd rs1 : RegNum) (imm : BitVec 12),
    decode (imm ++ rs1 ++ 0b000#3 ++ rd ++ 0b0010011#7) = .ok (.addi rd rs1 imm) ∧
    RegisterResult (.addi rd rs1 imm) s rd (readReg s rs1 + imm.signExtend 32) (s.pc + 4#32) ∧
    decode (imm ++ rs1 ++ 0b010#3 ++ rd ++ 0b0010011#7) = .ok (.slti rd rs1 imm) ∧
    RegisterResult (.slti rd rs1 imm) s rd
      (if (readReg s rs1).toInt < (imm.signExtend 32).toInt then 1#32 else 0#32) (s.pc + 4#32) ∧
    decode (imm ++ rs1 ++ 0b011#3 ++ rd ++ 0b0010011#7) = .ok (.sltiu rd rs1 imm) ∧
    RegisterResult (.sltiu rd rs1 imm) s rd
      (if (readReg s rs1).toNat < (imm.signExtend 32).toNat then 1#32 else 0#32) (s.pc + 4#32)

/-- R225, R220: LUI and AUIPC, with their encodings. -/
def Obligations.UpperImmediateResults : Prop :=
  ∀ (s : State) (rd : RegNum) (imm : BitVec 20),
    decode (imm ++ rd ++ 0b0110111#7) = .ok (.lui rd imm) ∧
    RegisterResult (.lui rd imm) s rd (imm ++ 0#12) (s.pc + 4#32) ∧
    decode (imm ++ rd ++ 0b0010111#7) = .ok (.auipc rd imm) ∧
    RegisterResult (.auipc rd imm) s rd (s.pc + (imm ++ 0#12)) (s.pc + 4#32)

/-- R230: the sums and the difference are the low 32 bits of the exact ones, read as unsigned or as
signed; and SLTU of a sum and its first operand gives the carry out (R222). Wrap-around and two's
complement are the spec's own decisions D10, D32. -/
def Obligations.ArithmeticIsModular : Prop :=
  ∀ (s t u v : State) (rd rs1 rs2 : RegNum) (imm : BitVec 12), rd ≠ 0#5 →
    exec (.add rd rs1 rs2) s = .next t → exec (.sub rd rs1 rs2) s = .next u →
    exec (.addi rd rs1 imm) s = .next v →
    (readReg t rd).toNat = ((readReg s rs1).toNat + (readReg s rs2).toNat) % 2 ^ 32 ∧
    (readReg t rd).toInt = ((readReg s rs1).toInt + (readReg s rs2).toInt).bmod (2 ^ 32) ∧
    (readReg u rd).toInt = ((readReg s rs1).toInt - (readReg s rs2).toInt).bmod (2 ^ 32) ∧
    (readReg v rd).toInt = ((readReg s rs1).toInt + imm.toInt).bmod (2 ^ 32) ∧
    (rs1 ≠ rd → ∀ r, r ≠ 0#5 → ∃ w, exec (.sltu r rd rs1) t = .next w ∧
      (readReg w r).toNat = ((readReg s rs1).toNat + (readReg s rs2).toNat) / 2 ^ 32)

/-- R250, R251, R252: XOR, OR and AND, with their encodings. -/
def Obligations.LogicalRegisterResults : Prop :=
  ∀ (s : State) (rd rs1 rs2 : RegNum),
    decode (0b0000000#7 ++ rs2 ++ rs1 ++ 0b100#3 ++ rd ++ 0b0110011#7) = .ok (.xor rd rs1 rs2) ∧
    RegisterResult (.xor rd rs1 rs2) s rd (readReg s rs1 ^^^ readReg s rs2) (s.pc + 4#32) ∧
    decode (0b0000000#7 ++ rs2 ++ rs1 ++ 0b110#3 ++ rd ++ 0b0110011#7) = .ok (.or rd rs1 rs2) ∧
    RegisterResult (.or rd rs1 rs2) s rd (readReg s rs1 ||| readReg s rs2) (s.pc + 4#32) ∧
    decode (0b0000000#7 ++ rs2 ++ rs1 ++ 0b111#3 ++ rd ++ 0b0110011#7) = .ok (.and rd rs1 rs2) ∧
    RegisterResult (.and rd rs1 rs2) s rd (readReg s rs1 &&& readReg s rs2) (s.pc + 4#32)

/-- R253, R254, R255: ORI, XORI and ANDI, with their encodings. -/
def Obligations.LogicalImmediateResults : Prop :=
  ∀ (s : State) (rd rs1 : RegNum) (imm : BitVec 12),
    decode (imm ++ rs1 ++ 0b110#3 ++ rd ++ 0b0010011#7) = .ok (.ori rd rs1 imm) ∧
    RegisterResult (.ori rd rs1 imm) s rd (readReg s rs1 ||| imm.signExtend 32) (s.pc + 4#32) ∧
    decode (imm ++ rs1 ++ 0b100#3 ++ rd ++ 0b0010011#7) = .ok (.xori rd rs1 imm) ∧
    RegisterResult (.xori rd rs1 imm) s rd (readReg s rs1 ^^^ imm.signExtend 32) (s.pc + 4#32) ∧
    decode (imm ++ rs1 ++ 0b111#3 ++ rd ++ 0b0010011#7) = .ok (.andi rd rs1 imm) ∧
    RegisterResult (.andi rd rs1 imm) s rd (readReg s rs1 &&& imm.signExtend 32) (s.pc + 4#32)

/-- R282, R283, R284: SRA, SRL and SLL by the low five bits of `x[rs2]`, with their encodings, as
operations on the exact readings: rounding toward minus infinity, quotient, low bits of the product. -/
def Obligations.RegisterShiftResults : Prop :=
  ∀ (s : State) (rd rs1 rs2 : RegNum) (n : Nat) (left logical arith : Word),
    n = (readReg s rs2).toNat % 32 →
    left.toNat = (readReg s rs1).toNat * 2 ^ n % 2 ^ 32 →
    logical.toNat = (readReg s rs1).toNat / 2 ^ n →
    arith.toInt = (readReg s rs1).toInt / 2 ^ n →
    decode (0b0100000#7 ++ rs2 ++ rs1 ++ 0b101#3 ++ rd ++ 0b0110011#7) = .ok (.sra rd rs1 rs2) ∧
    RegisterResult (.sra rd rs1 rs2) s rd arith (s.pc + 4#32) ∧
    decode (0b0000000#7 ++ rs2 ++ rs1 ++ 0b101#3 ++ rd ++ 0b0110011#7) = .ok (.srl rd rs1 rs2) ∧
    RegisterResult (.srl rd rs1 rs2) s rd logical (s.pc + 4#32) ∧
    decode (0b0000000#7 ++ rs2 ++ rs1 ++ 0b001#3 ++ rd ++ 0b0110011#7) = .ok (.sll rd rs1 rs2) ∧
    RegisterResult (.sll rd rs1 rs2) s rd left (s.pc + 4#32)

/-- R281, R285: SLLI and SRLI, with their encodings, on the exact readings: zeros enter and the bits
shifted out are lost. The seven fixed bits and the place of the amount are the spec's own decisions D6,
D33. -/
def Obligations.ImmediateLogicalShiftResults : Prop :=
  ∀ (s : State) (rd rs1 : RegNum) (shamt : BitVec 5), ∃ left logical : Word,
    left.toNat = (readReg s rs1).toNat * 2 ^ shamt.toNat % 2 ^ 32 ∧
    decode (0b0000000#7 ++ shamt ++ rs1 ++ 0b001#3 ++ rd ++ 0b0010011#7) = .ok (.slli rd rs1 shamt) ∧
    RegisterResult (.slli rd rs1 shamt) s rd left (s.pc + 4#32) ∧
    logical.toNat = (readReg s rs1).toNat / 2 ^ shamt.toNat ∧
    decode (0b0000000#7 ++ shamt ++ rs1 ++ 0b101#3 ++ rd ++ 0b0010011#7) = .ok (.srli rd rs1 shamt) ∧
    RegisterResult (.srli rd rs1 shamt) s rd logical (s.pc + 4#32)

/-- R280: SRAI, with its encoding: bit by bit, copies of bit 31 enter; and as a division that rounds
toward minus infinity. The encoding is the spec's own decision D6. -/
def Obligations.ImmediateArithmeticShiftResults : Prop :=
  ∀ (s : State) (rd rs1 : RegNum) (shamt : BitVec 5), ∃ arith : Word,
    (∀ k < 32, arith.getLsbD k = (readReg s rs1).getLsbD (min 31 (k + shamt.toNat))) ∧
    arith.toInt = (readReg s rs1).toInt / 2 ^ shamt.toNat ∧
    decode (0b0100000#7 ++ shamt ++ rs1 ++ 0b101#3 ++ rd ++ 0b0010011#7) = .ok (.srai rd rs1 shamt) ∧
    RegisterResult (.srai rd rs1 shamt) s rd arith (s.pc + 4#32)

/-! ### Jumps and branches -/

/-- R240: JAL, with its encoding: the link value in `rd`, then on at `pc + offset`. -/
def Obligations.JalResults : Prop :=
  ∀ (s : State) (rd : RegNum) (b20 b11 : BitVec 1) (b19 : BitVec 8) (b10 : BitVec 10)
    (offset : BitVec 21),
    decode (b20 ++ b10 ++ b11 ++ b19 ++ rd ++ 0b1101111#7) =
      .ok (.jal rd (b20 ++ b19 ++ b11 ++ b10 ++ 0#1)) ∧
    RegisterResult (.jal rd offset) s rd (s.pc + 4#32) (s.pc + offset.signExtend 32)

/-- R241: JALR, with its encoding: the link value in `rd`, then on at `x[rs1] + offset` with bit 0
cleared, from the old `x[rs1]` also when `rd` is `rs1`. Reading rs1 before the write of rd is the spec's
own decision D9. -/
def Obligations.JalrResults : Prop :=
  ∀ (s : State) (rd rs1 : RegNum) (offset : BitVec 12),
    decode (offset ++ rs1 ++ 0b000#3 ++ rd ++ 0b1100111#7) = .ok (.jalr rd rs1 offset) ∧
    RegisterResult (.jalr rd rs1 offset) s rd (s.pc + 4#32)
      ((readReg s rs1 + offset.signExtend 32) &&& 0xFFFFFFFE#32)

/-- R200 to R205: the six branches, with their encodings; each goes to `pc + offset` exactly when its
condition holds and changes nothing but `pc` (and counts as retired). -/
def Obligations.BranchResults : Prop :=
  ∀ (s : State) (rs1 rs2 : RegNum) (b12 b11 : BitVec 1) (b10 : BitVec 6) (b4 : BitVec 4)
    (off : BitVec 13),
    let a := readReg s rs1
    let b := readReg s rs2
    let target := s.pc + off.signExtend 32
    let word := fun funct3 : BitVec 3 =>
      b12 ++ b10 ++ rs2 ++ rs1 ++ funct3 ++ b4 ++ b11 ++ 0b1100011#7
    let offset := b12 ++ b11 ++ b10 ++ b4 ++ 0#1
    decode (word 0b001#3) = .ok (.bne rs1 rs2 offset) ∧
    OnlyGoesTo (.bne rs1 rs2 off) s (if a ≠ b then target else s.pc + 4#32) ∧
    decode (word 0b000#3) = .ok (.beq rs1 rs2 offset) ∧
    OnlyGoesTo (.beq rs1 rs2 off) s (if a = b then target else s.pc + 4#32) ∧
    decode (word 0b100#3) = .ok (.blt rs1 rs2 offset) ∧
    OnlyGoesTo (.blt rs1 rs2 off) s (if a.toInt < b.toInt then target else s.pc + 4#32) ∧
    decode (word 0b101#3) = .ok (.bge rs1 rs2 offset) ∧
    OnlyGoesTo (.bge rs1 rs2 off) s (if b.toInt ≤ a.toInt then target else s.pc + 4#32) ∧
    decode (word 0b110#3) = .ok (.bltu rs1 rs2 offset) ∧
    OnlyGoesTo (.bltu rs1 rs2 off) s (if a.toNat < b.toNat then target else s.pc + 4#32) ∧
    decode (word 0b111#3) = .ok (.bgeu rs1 rs2 offset) ∧
    OnlyGoesTo (.bgeu rs1 rs2 off) s (if b.toNat ≤ a.toNat then target else s.pc + 4#32)

/-- R244: a jump to a misaligned target completes, with the link written, and the next step traps there
with `mepc` and `mtval` the target. The spec's own decisions D3, D9, D20, and D13, D22 for the trap
entry (log entry 11). -/
def Obligations.MisalignedJumpTargetTrapsNextStep : Prop :=
  ∀ (s : State) (rd rs1 : RegNum) (off21 : BitVec 21) (off12 : BitVec 12) (i : Instr) (target : Word),
    nextInstr s = .ok i →
    (i = .jal rd off21 ∧ target = s.pc + off21.signExtend 32 ∨
      i = .jalr rd rs1 off12 ∧
        target = (readReg s rs1 + off12.signExtend 32) &&& 0xFFFFFFFE#32) →
    target.toNat % 4 ≠ 0 →
    ∃ t, step s = .next t ∧ WritesRegister s t rd (s.pc + 4#32) ∧ t.pc = target ∧
      t.instret = s.instret + 1#64 ∧ StepTraps t 0 target target

/-- R207: each of the six branches completes; it leads to a misaligned `pc` only when it is taken, and
then the next step traps there with `mepc` and `mtval` the target. The spec's own decisions D3, D20, and
D13, D22 for the trap entry (log entry 11). -/
def Obligations.MisalignedBranchTargetTrapsNextStep : Prop :=
  ∀ (s t : State) (i : Instr) (rs1 rs2 : RegNum) (off : BitVec 13),
    i ∈ [.bne rs1 rs2 off, .beq rs1 rs2 off, .blt rs1 rs2 off, .bge rs1 rs2 off, .bltu rs1 rs2 off,
      .bgeu rs1 rs2 off] →
    nextInstr s = .ok i → exec i s = .next t →
    ∃ u, step s = .next u ∧ u.pc = t.pc ∧ KeepsRegisters s u ∧ u.instret = s.instret + 1#64 ∧
      (t.pc.toNat % 4 ≠ 0 → t.pc = s.pc + off.signExtend 32 ∧ t.pc ≠ s.pc + 4#32 ∧
        StepTraps u 0 t.pc t.pc)

/-! ### Loads and stores -/

/-- R261, R264: LB and LBU, with their encodings: the byte at `ea` extended, or a load access fault.
Byte loads are never misaligned. What the spec decides itself: the map of accesses D4 (its form is the
model's, log entry 4), the sign of the offset D8, and in the trap D13, D20, D22 (log entry 11). -/
def Obligations.ByteLoadOutcomes : Prop :=
  ∀ (s : State) (rd rs1 : RegNum) (offset : BitVec 12) (ea : Word),
    ea = effectiveAddress s rs1 offset →
    ea = readReg s rs1 + offset.signExtend 32 ∧
    decode (offset ++ rs1 ++ 0b000#3 ++ rd ++ 0b0000011#7) = .ok (.lb rd offset rs1) ∧
    decode (offset ++ rs1 ++ 0b100#3 ++ rd ++ 0b0000011#7) = .ok (.lbu rd offset rs1) ∧
    (mapLoad s.memMap ea 1 = true →
      RegisterResult (.lb rd offset rs1) s rd ((memByte s ea).signExtend 32) (s.pc + 4#32) ∧
      RegisterResult (.lbu rd offset rs1) s rd ((memByte s ea).zeroExtend 32) (s.pc + 4#32)) ∧
    (mapLoad s.memMap ea 1 = false →
      TrapsWith (.lb rd offset rs1) s 5 s.pc ea ∧ TrapsWith (.lbu rd offset rs1) s 5 s.pc ea)

/-- R262, R265: LH and LHU, with their encodings: the little-endian halfword at an even `ea` extended, a
load misalignment at an odd one, or a load access fault. What the spec decides itself: byte order D1,
natural alignment D2 and its priority D25, the map of accesses D4 (its form is the model's, log entry
4), the sign of the offset D8, and in the trap D13, D20, D22 (log entry 11). -/
def Obligations.HalfwordLoadOutcomes : Prop :=
  ∀ (s : State) (rd rs1 : RegNum) (offset : BitVec 12) (ea : Word),
    ea = effectiveAddress s rs1 offset →
    ea = readReg s rs1 + offset.signExtend 32 ∧
    decode (offset ++ rs1 ++ 0b001#3 ++ rd ++ 0b0000011#7) = .ok (.lh rd offset rs1) ∧
    decode (offset ++ rs1 ++ 0b101#3 ++ rd ++ 0b0000011#7) = .ok (.lhu rd offset rs1) ∧
    (ea.toNat % 2 = 0 → mapLoad s.memMap ea 2 = true →
      RegisterResult (.lh rd offset rs1) s rd
        ((memByte s (ea + 1#32) ++ memByte s ea).signExtend 32) (s.pc + 4#32) ∧
      RegisterResult (.lhu rd offset rs1) s rd
        ((memByte s (ea + 1#32) ++ memByte s ea).zeroExtend 32) (s.pc + 4#32)) ∧
    (ea.toNat % 2 ≠ 0 →
      TrapsWith (.lh rd offset rs1) s 4 s.pc ea ∧ TrapsWith (.lhu rd offset rs1) s 4 s.pc ea) ∧
    (ea.toNat % 2 = 0 → mapLoad s.memMap ea 2 = false →
      TrapsWith (.lh rd offset rs1) s 5 s.pc ea ∧ TrapsWith (.lhu rd offset rs1) s 5 s.pc ea)

/-- R263: LW, with its encoding: the little-endian word at a multiple of 4, a load misalignment
elsewhere, or a load access fault. What the spec decides itself: byte order D1, natural alignment D2 and
its priority D25, the map of accesses D4 (its form is the model's, log entry 4), the sign of the offset
D8, and in the trap D13, D20, D22 (log entry 11). -/
def Obligations.WordLoadOutcomes : Prop :=
  ∀ (s : State) (rd rs1 : RegNum) (offset : BitVec 12) (ea : Word),
    ea = effectiveAddress s rs1 offset →
    ea = readReg s rs1 + offset.signExtend 32 ∧
    decode (offset ++ rs1 ++ 0b010#3 ++ rd ++ 0b0000011#7) = .ok (.lw rd offset rs1) ∧
    (ea.toNat % 4 = 0 → mapLoad s.memMap ea 4 = true →
      RegisterResult (.lw rd offset rs1) s rd
        (memByte s (ea + 3#32) ++ memByte s (ea + 2#32) ++ memByte s (ea + 1#32) ++ memByte s ea)
        (s.pc + 4#32)) ∧
    (ea.toNat % 4 ≠ 0 → TrapsWith (.lw rd offset rs1) s 4 s.pc ea) ∧
    (ea.toNat % 4 = 0 → mapLoad s.memMap ea 4 = false → TrapsWith (.lw rd offset rs1) s 5 s.pc ea)

/-- R266: SB, with its encoding: the low byte of `x[rs2]` at `ea` and nowhere else, or a store access
fault. Byte stores are never misaligned. What the spec decides itself: the map of accesses D4 (its form
is the model's, log entry 4), the sign of the offset D8, the untouched IMem D27 (log entry 7), and in
the trap D13, D20, D22 (log entry 11). -/
def Obligations.ByteStoreOutcomes : Prop :=
  ∀ (s : State) (rs1 rs2 : RegNum) (hi : BitVec 7) (lo : BitVec 5) (ea : Word),
    ea = effectiveAddress s rs1 (hi ++ lo) →
    ea = readReg s rs1 + (hi ++ lo).signExtend 32 ∧
    decode (hi ++ rs2 ++ rs1 ++ 0b000#3 ++ lo ++ 0b0100011#7) = .ok (.sb rs2 (hi ++ lo) rs1) ∧
    (mapStore s.memMap ea 1 = true → StoreResult (.sb rs2 (hi ++ lo) rs1) s ea 1 (readReg s rs2)) ∧
    (mapStore s.memMap ea 1 = false → TrapsWith (.sb rs2 (hi ++ lo) rs1) s 7 s.pc ea)

/-- R267: SH, with its encoding: the low two bytes of `x[rs2]` at an even `ea` and nowhere else, a store
misalignment at an odd one, or a store access fault. What the spec decides itself: byte order D1,
natural alignment D2 and its priority D25, the map of accesses D4 (its form is the model's, log entry
4), the sign of the offset D8, the untouched IMem D27 (log entry 7), and in the trap D13, D20, D22 (log
entry 11). -/
def Obligations.HalfwordStoreOutcomes : Prop :=
  ∀ (s : State) (rs1 rs2 : RegNum) (hi : BitVec 7) (lo : BitVec 5) (ea : Word),
    ea = effectiveAddress s rs1 (hi ++ lo) →
    ea = readReg s rs1 + (hi ++ lo).signExtend 32 ∧
    decode (hi ++ rs2 ++ rs1 ++ 0b001#3 ++ lo ++ 0b0100011#7) = .ok (.sh rs2 (hi ++ lo) rs1) ∧
    (ea.toNat % 2 = 0 → mapStore s.memMap ea 2 = true →
      StoreResult (.sh rs2 (hi ++ lo) rs1) s ea 2 (readReg s rs2)) ∧
    (ea.toNat % 2 ≠ 0 → TrapsWith (.sh rs2 (hi ++ lo) rs1) s 6 s.pc ea) ∧
    (ea.toNat % 2 = 0 → mapStore s.memMap ea 2 = false →
      TrapsWith (.sh rs2 (hi ++ lo) rs1) s 7 s.pc ea)

/-- R260: SW, with its encoding: the four bytes of `x[rs2]` at a multiple of 4 and nowhere else, a store
misalignment elsewhere, or a store access fault. What the spec decides itself: byte order D1, natural
alignment D2 and its priority D25, the map of accesses D4 (its form is the model's, log entry 4), the
sign of the offset D8, the untouched IMem D27 (log entry 7), and in the trap D13, D20, D22 (log entry
11). -/
def Obligations.WordStoreOutcomes : Prop :=
  ∀ (s : State) (rs1 rs2 : RegNum) (hi : BitVec 7) (lo : BitVec 5) (ea : Word),
    ea = effectiveAddress s rs1 (hi ++ lo) →
    ea = readReg s rs1 + (hi ++ lo).signExtend 32 ∧
    decode (hi ++ rs2 ++ rs1 ++ 0b010#3 ++ lo ++ 0b0100011#7) = .ok (.sw rs2 (hi ++ lo) rs1) ∧
    (ea.toNat % 4 = 0 → mapStore s.memMap ea 4 = true →
      StoreResult (.sw rs2 (hi ++ lo) rs1) s ea 4 (readReg s rs2)) ∧
    (ea.toNat % 4 ≠ 0 → TrapsWith (.sw rs2 (hi ++ lo) rs1) s 6 s.pc ea) ∧
    (ea.toNat % 4 = 0 → mapStore s.memMap ea 4 = false →
      TrapsWith (.sw rs2 (hi ++ lo) rs1) s 7 s.pc ea)

/-- R115: after SW of a word at `ea`, the narrow loads at `ea` to `ea + 3` read its bytes and halves,
the least significant lowest, and LW reads it whole. Byte order is the spec's own decision D1 (log entry
11), the map of accesses D4 (log entry 4). -/
def Obligations.NarrowLoadsAfterWordStore : Prop :=
  ∀ (s t : State) (rs1 rs2 rd r : RegNum) (offset off : BitVec 12) (ea v : Word) (k : Nat),
    ea = effectiveAddress s rs1 offset → v = readReg s rs2 → ea.toNat % 4 = 0 →
    mapStore s.memMap ea 4 = true → exec (.sw rs2 offset rs1) s = .next t → k < 4 →
    effectiveAddress t r off = ea + BitVec.ofNat 32 k →
    (mapLoad t.memMap (ea + BitVec.ofNat 32 k) 1 = true →
      RegisterResult (.lbu rd off r) t rd ((v.extractLsb' (8 * k) 8).zeroExtend 32) (t.pc + 4#32) ∧
      RegisterResult (.lb rd off r) t rd ((v.extractLsb' (8 * k) 8).signExtend 32) (t.pc + 4#32)) ∧
    (k % 2 = 0 → mapLoad t.memMap (ea + BitVec.ofNat 32 k) 2 = true →
      RegisterResult (.lhu rd off r) t rd ((v.extractLsb' (8 * k) 16).zeroExtend 32) (t.pc + 4#32) ∧
      RegisterResult (.lh rd off r) t rd ((v.extractLsb' (8 * k) 16).signExtend 32) (t.pc + 4#32)) ∧
    (k = 0 → mapLoad t.memMap ea 4 = true → RegisterResult (.lw rd off r) t rd v (t.pc + 4#32))

/-! ### Synchronization -/

/-- R290, R291: FENCEI makes every byte of `IMem` the byte of `Mem` and changes nothing else but `pc`;
FENCE changes nothing but `pc`; both whatever the ignored fields hold, and both count as retired. The
spec's own decisions D7, D26, D27 (log entries 7, 16, 17). -/
def Obligations.FenceResults : Prop :=
  ∀ (s : State) (rd rs1 : RegNum) (imm : BitVec 12) (fm pred succ : BitVec 4),
    decode (imm ++ rs1 ++ 0b001#3 ++ rd ++ 0b0001111#7) = .ok (.fencei imm rs1 rd) ∧
    (∃ t, exec (.fencei imm rs1 rd) s = .next t ∧ KeepsRegisters s t ∧
      CompletesAt s t (s.pc + 4#32) ∧ t.priv = s.priv ∧ t.csrs = s.csrs ∧ t.cycle = s.cycle ∧
      KeepsPlatform s t ∧ (∀ a, memByte t a = memByte s a) ∧ ∀ a, imemByte t a = memByte s a) ∧
    decode (fm ++ pred ++ succ ++ rs1 ++ 0b000#3 ++ rd ++ 0b0001111#7) =
      .ok (.fence fm pred succ rs1 rd) ∧
    OnlyGoesTo (.fence fm pred succ rs1 rd) s (s.pc + 4#32)

/-! ### CSR instructions -/

/-- R303, R304, R305: CSRRW, CSRRS and CSRRC, with their encodings, for every CSR address. What the spec
decides itself: the written value D14 (log entry 5) and its read-back from inert CSRs D18, D28 (log
entry 12), the traps on an unlisted or read-only CSR D15, D16, the count of minstret D17, sources read
first D9, the place of the address D33, and in the trap the word in mtval D20 (log entries 11, 13) and
D13, D22 (log entry 11). -/
def Obligations.CsrRegisterForms : Prop :=
  ∀ (s : State) (rd rs1 : RegNum),
    CsrForm (fun csr => .csrrw rd csr rs1) (fun csr => csr ++ rs1 ++ 0b001#3 ++ rd ++ 0b1110011#7)
      s rd true (fun _ => readReg s rs1) ∧
    CsrForm (fun csr => .csrrs rd csr rs1) (fun csr => csr ++ rs1 ++ 0b010#3 ++ rd ++ 0b1110011#7)
      s rd (rs1 != 0#5) (fun old => old ||| readReg s rs1) ∧
    CsrForm (fun csr => .csrrc rd csr rs1) (fun csr => csr ++ rs1 ++ 0b011#3 ++ rd ++ 0b1110011#7)
      s rd (rs1 != 0#5) (fun old => old &&& ~~~readReg s rs1)

/-- R306, R307, R308: CSRRWI, CSRRSI and CSRRCI, with their encodings, for every CSR address. What the
spec decides itself: the written value D14 (log entry 5) and its read-back from inert CSRs D18, D28 (log
entry 12), the traps on an unlisted or read-only CSR D15, D16, the count of minstret D17, the places of
the address and the immediate D33, and in the trap the word in mtval D20 (log entries 11, 13) and D13,
D22 (log entry 11). -/
def Obligations.CsrImmediateForms : Prop :=
  ∀ (s : State) (rd : RegNum) (uimm : BitVec 5),
    CsrForm (fun csr => .csrrwi rd csr uimm) (fun csr => csr ++ uimm ++ 0b101#3 ++ rd ++ 0b1110011#7)
      s rd true (fun _ => 0#27 ++ uimm) ∧
    CsrForm (fun csr => .csrrsi rd csr uimm) (fun csr => csr ++ uimm ++ 0b110#3 ++ rd ++ 0b1110011#7)
      s rd (uimm != 0#5) (fun old => old ||| (0#27 ++ uimm)) ∧
    CsrForm (fun csr => .csrrci rd csr uimm) (fun csr => csr ++ uimm ++ 0b111#3 ++ rd ++ 0b1110011#7)
      s rd (uimm != 0#5) (fun old => old &&& ~~~(0#27 ++ uimm))

/-- The 38 addresses of R40 in the source's order, each the address of one CSR, every other address of
none (R83), and the four read-only views among them (R70 to R73). The views, the read-only CSRs and the
rejection of every other address are the spec's own decisions D15, D16, D17. -/
def Obligations.CsrAddressesAndViews : Prop :=
  allCsrs.map csrAddress =
    [0x300#12, 0x301#12, 0x302#12, 0x303#12, 0x304#12, 0x305#12, 0x306#12, 0x340#12, 0x341#12,
      0x342#12, 0x343#12, 0x344#12, 0x3A0#12, 0x3B0#12, 0x3B1#12, 0x3B2#12, 0x3B3#12] ++
    [0xB00#12, 0xB02#12, 0xB03#12, 0xB04#12, 0xB05#12, 0x323#12, 0x324#12, 0x325#12, 0xC00#12,
      0xC02#12, 0xC80#12, 0xC82#12, 0x100#12, 0x104#12, 0x105#12, 0x140#12, 0x141#12, 0x142#12,
      0x143#12, 0x144#12, 0x180#12] ∧
  (∀ (a : CsrAddr) (c : Csr), csrAt a = some c ↔ a = csrAddress c) ∧
  (∀ c : Csr, csrReadOnly c = true ↔
    csrAddress c ∈ [0xC00#12, 0xC02#12, 0xC80#12, 0xC82#12]) ∧
  ∀ s : State, readCsr .mcycle s = readCsr .ucycle s ∧ readCsr .minstret s = readCsr .uinstret s ∧
    s.cycle = readCsr .ucycleh s ++ readCsr .ucycle s ∧
    s.instret = readCsr .uinstreth s ++ readCsr .uinstret s

/-- R310: `CSRRS rd, minstret, x0` reads the count without itself, and a second one immediately after
reads one more; R60: after a write of `minstret` the next instruction reads exactly the written value.
The spec's own decision D17. -/
def Obligations.RetiredCounterReads : Prop :=
  ∀ (s : State) (r1 r2 rs1 : RegNum), r1 ≠ 0#5 → r2 ≠ 0#5 → r1 ≠ r2 →
    (∃ t, execList [.csrrs r1 0xB02#12 0, .csrrs r2 0xB02#12 0] s = .next t ∧
      readReg t r1 = s.instret.extractLsb' 0 32 ∧
      readReg t r2 = s.instret.extractLsb' 0 32 + 1#32) ∧
    ∃ t, execList [.csrrw 0 0xB02#12 rs1, .csrrs r2 0xB02#12 0] s = .next t ∧
      readReg t r2 = readReg s rs1

/-! ### Pseudo-instructions -/

/-- R183: the words and effects of the seven single-instruction expansions. The words are an inference
the spec marks as derived. -/
def Obligations.SinglePseudoInstructions : Prop :=
  ∀ (s : State) (rd rs : RegNum) (offset : BitVec 21),
    (expand .nop).map encode = [0x00000013#32] ∧
    (expand (.mv rd rs)).map encode =
      [0x00000013#32 ||| rs.zeroExtend 32 <<< 15 ||| rd.zeroExtend 32 <<< 7] ∧
    (expand (.not rd rs)).map encode =
      [0xFFF04013#32 ||| rs.zeroExtend 32 <<< 15 ||| rd.zeroExtend 32 <<< 7] ∧
    (expand (.neg rd rs)).map encode =
      [0x40000033#32 ||| rs.zeroExtend 32 <<< 20 ||| rd.zeroExtend 32 <<< 7] ∧
    (expand .ret).map encode = [0x00008067#32] ∧
    (expand (.j offset)).map encode =
      [0x0000006F#32 ||| offset.extractLsb' 20 1 ++ offset.extractLsb' 1 10 ++
        offset.extractLsb' 11 1 ++ offset.extractLsb' 12 8 ++ 0#12] ∧
    (expand (.jr rs)).map encode = [0x00000067#32 ||| rs.zeroExtend 32 <<< 15] ∧
    ∃ tn tm tc tg tr tj tx,
      execList (expand .nop) s = .next tn ∧ KeepsRegisters s tn ∧ tn.pc = s.pc + 4#32 ∧
      execList (expand (.mv rd rs)) s = .next tm ∧ WritesRegister s tm rd (readReg s rs) ∧
      execList (expand (.not rd rs)) s = .next tc ∧ WritesRegister s tc rd (~~~readReg s rs) ∧
      execList (expand (.neg rd rs)) s = .next tg ∧ WritesRegister s tg rd (0#32 - readReg s rs) ∧
      execList (expand .ret) s = .next tr ∧ KeepsRegisters s tr ∧ tr.pc = readReg s 1 &&& ~~~1#32 ∧
      execList (expand (.j offset)) s = .next tj ∧ KeepsRegisters s tj ∧
      tj.pc = s.pc + offset.signExtend 32 ∧
      execList (expand (.jr rs)) s = .next tx ∧ KeepsRegisters s tx ∧
      tx.pc = readReg s rs &&& ~~~1#32

/-- R184 to R186: LI leaves the immediate, LA the label's address, and CALL jumps to the label with the
address after it in `x1`, for every immediate and every distance. The expansions are the spec's own
decision D36. -/
def Obligations.MultiplePseudoInstructions : Prop :=
  ∀ (s : State) (rd : RegNum) (imm delta : Word),
    (∃ t, execList (expand (.li rd imm)) s = .next t ∧ WritesRegister s t rd imm ∧
      t.pc = s.pc + 4#32 * BitVec.ofNat 32 (expand (.li rd imm)).length) ∧
    (rd ≠ 0#5 → ∃ t, execList (expand (.la rd delta)) s = .next t ∧
      WritesRegister s t rd (s.pc + delta) ∧ t.pc = s.pc + 8#32) ∧
    ∃ t, execList (expand (.call delta)) s = .next t ∧
      WritesRegister s t 1 (s.pc + 8#32) ∧ t.pc = (s.pc + delta) &&& ~~~1#32
end

