-- ==== Sys2Proof/Laws/Encoding.lean ====
section
/-! SUPPORT. The fields of an encoded word, format by format: the decoder's readers give back what the
encoder wrote (`30_encoding.md` R141 to R156), and the table's rows do not overlap (R160). -/

namespace Sys2Proof

section
variable (f7 : BitVec 7) (rs2 rs1 rd : RegNum) (f3 : BitVec 3) (op : BitVec 7)

/-! ### R-type -/

theorem rdOf_encodeR : rdOf (encodeR f7 rs2 rs1 f3 rd op) = rd := by
  apply BitVec.eq_of_getLsbD_eq
  intro i hi
  simp only [rdOf, encodeR, BitVec.getLsbD_extractLsb', BitVec.getLsbD_append]
  interval_cases i <;> simp

theorem rs1Of_encodeR : rs1Of (encodeR f7 rs2 rs1 f3 rd op) = rs1 := by
  apply BitVec.eq_of_getLsbD_eq
  intro i hi
  simp only [rs1Of, encodeR, BitVec.getLsbD_extractLsb', BitVec.getLsbD_append]
  interval_cases i <;> simp

theorem rs2Of_encodeR : rs2Of (encodeR f7 rs2 rs1 f3 rd op) = rs2 := by
  apply BitVec.eq_of_getLsbD_eq
  intro i hi
  simp only [rs2Of, encodeR, BitVec.getLsbD_extractLsb', BitVec.getLsbD_append]
  interval_cases i <;> simp

/-! ### I-type -/

variable (imm : BitVec 12)

theorem rdOf_encodeI : rdOf (encodeI imm rs1 f3 rd op) = rd := by
  apply BitVec.eq_of_getLsbD_eq
  intro i hi
  simp only [rdOf, encodeI, BitVec.getLsbD_extractLsb', BitVec.getLsbD_append]
  interval_cases i <;> simp

theorem rs1Of_encodeI : rs1Of (encodeI imm rs1 f3 rd op) = rs1 := by
  apply BitVec.eq_of_getLsbD_eq
  intro i hi
  simp only [rs1Of, encodeI, BitVec.getLsbD_extractLsb', BitVec.getLsbD_append]
  interval_cases i <;> simp

theorem immIOf_encodeI : immIOf (encodeI imm rs1 f3 rd op) = imm := by
  apply BitVec.eq_of_getLsbD_eq
  intro i hi
  simp only [immIOf, encodeI, BitVec.getLsbD_extractLsb', BitVec.getLsbD_append]
  interval_cases i <;> simp

/-! ### S-type -/

theorem rs1Of_encodeS : rs1Of (encodeS imm rs2 rs1 f3 op) = rs1 := by
  apply BitVec.eq_of_getLsbD_eq
  intro i hi
  simp only [rs1Of, encodeS, BitVec.getLsbD_extractLsb', BitVec.getLsbD_append]
  interval_cases i <;> simp

theorem rs2Of_encodeS : rs2Of (encodeS imm rs2 rs1 f3 op) = rs2 := by
  apply BitVec.eq_of_getLsbD_eq
  intro i hi
  simp only [rs2Of, encodeS, BitVec.getLsbD_extractLsb', BitVec.getLsbD_append]
  interval_cases i <;> simp

theorem immSOf_encodeS : immSOf (encodeS imm rs2 rs1 f3 op) = imm := by
  apply BitVec.eq_of_getLsbD_eq
  intro i hi
  simp only [immSOf, encodeS, BitVec.getLsbD_extractLsb', BitVec.getLsbD_append]
  interval_cases i <;> simp

/-! ### B-type -/

theorem rs1Of_encodeB (off : BitVec 13) : rs1Of (encodeB off rs2 rs1 f3 op) = rs1 := by
  apply BitVec.eq_of_getLsbD_eq
  intro i hi
  simp only [rs1Of, encodeB, BitVec.getLsbD_extractLsb', BitVec.getLsbD_append]
  interval_cases i <;> simp

theorem rs2Of_encodeB (off : BitVec 13) : rs2Of (encodeB off rs2 rs1 f3 op) = rs2 := by
  apply BitVec.eq_of_getLsbD_eq
  intro i hi
  simp only [rs2Of, encodeB, BitVec.getLsbD_extractLsb', BitVec.getLsbD_append]
  interval_cases i <;> simp

theorem immBOf_encodeB {off : BitVec 13} (h : evenOffset off = true) :
    immBOf (encodeB off rs2 rs1 f3 op) = off := by
  have h0 : off[0] = false := by simpa [evenOffset] using h
  apply BitVec.eq_of_getLsbD_eq
  intro i hi
  simp only [immBOf, encodeB, BitVec.getLsbD_extractLsb', BitVec.getLsbD_append]
  interval_cases i <;> simp [h0]

/-! ### U-type and J-type -/

theorem rdOf_encodeU (imm20 : BitVec 20) : rdOf (encodeU imm20 rd op) = rd := by
  apply BitVec.eq_of_getLsbD_eq
  intro i hi
  simp only [rdOf, encodeU, BitVec.getLsbD_extractLsb', BitVec.getLsbD_append]
  interval_cases i <;> simp

theorem immUOf_encodeU (imm20 : BitVec 20) : immUOf (encodeU imm20 rd op) = imm20 := by
  apply BitVec.eq_of_getLsbD_eq
  intro i hi
  simp only [immUOf, encodeU, BitVec.getLsbD_extractLsb', BitVec.getLsbD_append]
  interval_cases i <;> simp

theorem rdOf_encodeJ (off : BitVec 21) : rdOf (encodeJ off rd op) = rd := by
  apply BitVec.eq_of_getLsbD_eq
  intro i hi
  simp only [rdOf, encodeJ, BitVec.getLsbD_extractLsb', BitVec.getLsbD_append]
  interval_cases i <;> simp

theorem immJOf_encodeJ {off : BitVec 21} (h : evenOffset off = true) :
    immJOf (encodeJ off rd op) = off := by
  have h0 : off[0] = false := by simpa [evenOffset] using h
  apply BitVec.eq_of_getLsbD_eq
  intro i hi
  simp only [immJOf, encodeJ, BitVec.getLsbD_extractLsb', BitVec.getLsbD_append]
  interval_cases i <;> simp [h0]

/-! ### FENCE -/

theorem fmOf_encodeI_fence (fm pred succ : BitVec 4) :
    fmOf (encodeI (fm ++ pred ++ succ) rs1 f3 rd op) = fm := by
  apply BitVec.eq_of_getLsbD_eq
  intro i hi
  simp only [fmOf, encodeI, BitVec.getLsbD_extractLsb', BitVec.getLsbD_append]
  interval_cases i <;> simp

theorem predOf_encodeI_fence (fm pred succ : BitVec 4) :
    predOf (encodeI (fm ++ pred ++ succ) rs1 f3 rd op) = pred := by
  apply BitVec.eq_of_getLsbD_eq
  intro i hi
  simp only [predOf, encodeI, BitVec.getLsbD_extractLsb', BitVec.getLsbD_append]
  interval_cases i <;> simp

theorem succOf_encodeI_fence (fm pred succ : BitVec 4) :
    succOf (encodeI (fm ++ pred ++ succ) rs1 f3 rd op) = succ := by
  apply BitVec.eq_of_getLsbD_eq
  intro i hi
  simp only [succOf, encodeI, BitVec.getLsbD_extractLsb', BitVec.getLsbD_append]
  interval_cases i <;> simp

/-! ### The fixed bits of a format -/

theorem encodeR_fixed :
    encodeR f7 rs2 rs1 f3 rd op &&& 0xFE00707F#32 = encodeR f7 0 0 f3 0 op := by
  apply BitVec.eq_of_getLsbD_eq
  intro i hi
  simp only [encodeR, BitVec.getLsbD_and, BitVec.getLsbD_append]
  interval_cases i <;> simp

theorem encodeI_fixed :
    encodeI imm rs1 f3 rd op &&& 0x0000707F#32 = encodeI 0 0 f3 0 op := by
  apply BitVec.eq_of_getLsbD_eq
  intro i hi
  simp only [encodeI, BitVec.getLsbD_and, BitVec.getLsbD_append]
  interval_cases i <;> simp

theorem encodeS_fixed :
    encodeS imm rs2 rs1 f3 op &&& 0x0000707F#32 = encodeS 0 0 0 f3 op := by
  apply BitVec.eq_of_getLsbD_eq
  intro i hi
  simp only [encodeS, BitVec.getLsbD_and, BitVec.getLsbD_append]
  interval_cases i <;> simp

theorem encodeB_fixed (off : BitVec 13) :
    encodeB off rs2 rs1 f3 op &&& 0x0000707F#32 = encodeB 0 0 0 f3 op := by
  apply BitVec.eq_of_getLsbD_eq
  intro i hi
  simp only [encodeB, BitVec.getLsbD_and, BitVec.getLsbD_append]
  interval_cases i <;> simp

theorem encodeU_fixed (imm20 : BitVec 20) :
    encodeU imm20 rd op &&& 0x0000007F#32 = encodeU 0 0 op := by
  apply BitVec.eq_of_getLsbD_eq
  intro i hi
  simp only [encodeU, BitVec.getLsbD_and, BitVec.getLsbD_append]
  interval_cases i <;> simp

theorem encodeJ_fixed (off : BitVec 21) :
    encodeJ off rd op &&& 0x0000007F#32 = encodeJ 0 0 op := by
  apply BitVec.eq_of_getLsbD_eq
  intro i hi
  simp only [encodeJ, BitVec.getLsbD_and, BitVec.getLsbD_append]
  interval_cases i <;> simp

end

/-! ### The table -/

/-- Two rows overlap only if their fixed bits agree where both fix them (R160). -/
def rowsDisjoint (p q : Row) : Bool := !(p.pat &&& (p.mask &&& q.mask) == q.pat &&& (p.mask &&& q.mask))

/-- No two rows of the table overlap. -/
theorem opcodeTable_disjoint : opcodeTable.Pairwise (fun p q => rowsDisjoint p q = true) := by decide

theorem rowsDisjoint_iff {p q : Row} (h : rowsDisjoint p q = true) {w : Word}
    (hp : rowMatches w p = true) : rowMatches w q = false := by
  by_contra hq
  rw [Bool.not_eq_false, rowMatches, beq_iff_eq] at hq
  rw [rowMatches, beq_iff_eq] at hp
  have : p.pat &&& (p.mask &&& q.mask) = q.pat &&& (p.mask &&& q.mask) := by
    rw [← hp, ← hq]; ext i hi; simp; grind
  simp [rowsDisjoint, this] at h

theorem find_of_disjoint {rows : List Row} (hd : rows.Pairwise (fun p q => rowsDisjoint p q = true))
    {r : Row} (hr : r ∈ rows) {w : Word} (hw : rowMatches w r = true) :
    rows.find? (rowMatches w) = some r := by
  induction rows with
  | nil => cases hr
  | cons p rest ih =>
    obtain ⟨hp, hrest⟩ := List.pairwise_cons.mp hd
    rcases List.mem_cons.mp hr with e | e
    · rw [← e, List.find?_cons, hw]
    · have : rowMatches w p = false := by
        by_contra hpw
        rw [rowsDisjoint_iff (hp r e) (by simpa using hpw)] at hw
        cases hw
      rw [List.find?_cons, this]
      exact ih hrest e

/-- A word that matches a row of the table decodes by that row, whichever row it is. -/
theorem decode_of_row {r : Row} (hr : r ∈ opcodeTable) {w : Word} (hw : w &&& r.mask = r.pat) :
    decode w = .ok (r.build w) := by
  rw [decode, find_of_disjoint opcodeTable_disjoint hr (by simpa [rowMatches] using hw)]

/-- What the decoder can answer: the instruction of a row that the word matches, or the name of a
rejection when it matches none. -/
theorem decode_cases (w : Word) :
    (∃ r ∈ opcodeTable, w &&& r.mask = r.pat ∧ decode w = .ok (r.build w)) ∨
    ((∀ r ∈ opcodeTable, w &&& r.mask ≠ r.pat) ∧ decode w = .error (rejectOf w)) := by
  unfold decode
  cases h : opcodeTable.find? (rowMatches w) with
  | some r =>
    exact .inl ⟨r, List.mem_of_find?_eq_some h, by simpa [rowMatches] using List.find?_some h, rfl⟩
  | none => exact .inr ⟨by simpa [rowMatches] using List.find?_eq_none.mp h, rfl⟩

/-- The bytes of a word give the word back (R103). -/
@[simp] theorem wordOfBytes_wordByte (w : Word) :
    wordOfBytes (wordByte w 0) (wordByte w 1) (wordByte w 2) (wordByte w 3) = w := by
  apply BitVec.eq_of_getLsbD_eq
  intro i hi
  simp only [wordOfBytes, wordByte, BitVec.getLsbD_append]
  interval_cases i <;> simp

end Sys2Proof
end

