-- ==== Sys2Proof/Laws/Memory.lean ====
section
/-! SUPPORT. Lists of cells and memory: read after write, and that every operation keeps the canonical
form. -/

namespace Sys2Proof.Machine

/-! ### Lists of cells -/

@[simp] theorem cellFind_insert_same (m : List Host.Cell) (a : Nat) (b : Byte) :
    cellFind (cellInsert m a b) a = some b := by
  induction m with
  | nil => simp [cellInsert, cellFind]
  | cons c rest ih =>
    obtain ⟨k, x⟩ := c
    rw [cellInsert]
    split
    · simp [cellFind]
    · split
      · simp [cellFind]
      · simp [cellFind, *]

theorem cellFind_insert_ne {a d : Nat} (h : d ≠ a) (m : List Host.Cell) (b : Byte) :
    cellFind (cellInsert m a b) d = cellFind m d := by
  induction m with
  | nil => simp [cellInsert, cellFind, Ne.symm h]
  | cons c rest ih =>
    obtain ⟨k, x⟩ := c
    rw [cellInsert]
    split
    · simp [cellFind, Ne.symm h]
    · split
      · next hk => simp [cellFind, hk, Ne.symm h]
      · simp [cellFind, ih]

@[simp] theorem cellFind_erase_same (m : List Host.Cell) (a : Nat) :
    cellFind (cellErase m a) a = none := by
  induction m with
  | nil => rfl
  | cons c rest ih =>
    by_cases hc : c.1 = a
    · simpa [cellErase, hc] using ih
    · simpa [cellErase, cellFind, hc] using ih

theorem cellFind_erase_ne {a d : Nat} (h : d ≠ a) (m : List Host.Cell) :
    cellFind (cellErase m a) d = cellFind m d := by
  induction m with
  | nil => rfl
  | cons c rest ih =>
    by_cases hc : c.1 = a
    · have : c.1 ≠ d := fun e => h (e ▸ hc)
      simpa [cellErase, cellFind, hc, this, Ne.symm h] using ih
    · by_cases hd : c.1 = d
      · simp [cellErase, cellFind, hd, h]
      · simpa [cellErase, cellFind, hc, hd] using ih

theorem mem_cellInsert {m : List Host.Cell} {a : Nat} {b : Byte} {c : Host.Cell}
    (h : c ∈ cellInsert m a b) : c = (a, b) ∨ c ∈ m := by
  induction m with
  | nil => simpa [cellInsert] using h
  | cons d rest ih =>
    obtain ⟨k, x⟩ := d
    rw [cellInsert] at h
    split at h
    · simpa using h
    · split at h
      · rcases List.mem_cons.mp h with e | e
        · exact .inl e
        · exact .inr (List.mem_cons_of_mem _ e)
      · rcases List.mem_cons.mp h with e | e
        · exact .inr (e ▸ List.mem_cons_self)
        · exact (ih e).imp_right (List.mem_cons_of_mem _)

theorem cellInsert_rising {m : List Host.Cell} (h : m.Pairwise (fun c d => c.1 < d.1))
    (a : Nat) (b : Byte) : (cellInsert m a b).Pairwise (fun c d => c.1 < d.1) := by
  induction m with
  | nil => simp [cellInsert]
  | cons d rest ih =>
    obtain ⟨k, x⟩ := d
    obtain ⟨hk, hr⟩ := List.pairwise_cons.mp h
    rw [cellInsert]
    split
    · next hlt =>
      refine List.pairwise_cons.mpr ⟨fun c hc => ?_, h⟩
      rcases List.mem_cons.mp hc with e | e
      · simpa [e] using hlt
      · exact hlt.trans (hk c e)
    · split
      · next heq => exact List.pairwise_cons.mpr ⟨fun c hc => by simpa [heq] using hk c hc, hr⟩
      · next hge hne =>
        refine List.pairwise_cons.mpr ⟨fun c hc => ?_, ih hr⟩
        rcases mem_cellInsert hc with e | e
        · simp only [e]; omega
        · exact hk c e

/-- Listing an address of the address space keeps a list of cells ordered. -/
theorem cellInsert_ordered {m : List Host.Cell} (h : cellsOrdered m) {a : Nat} (ha : a < 2 ^ 32)
    (b : Byte) : cellsOrdered (cellInsert m a b) :=
  ⟨cellInsert_rising h.1 a b, fun _ hc => (mem_cellInsert hc).elim (fun e => e ▸ ha) (h.2 _)⟩

/-- Taking an address out keeps a list of cells ordered. -/
theorem cellErase_ordered {m : List Host.Cell} (h : cellsOrdered m) (a : Nat) :
    cellsOrdered (cellErase m a) :=
  ⟨h.1.filter _, fun _ hc => h.2 _ (List.mem_filter.mp hc).1⟩

/-- Changing bytes and no address keeps a list of cells ordered. -/
theorem cellsOrdered_map {m : List Host.Cell} (h : cellsOrdered m) {f : Host.Cell → Host.Cell}
    (hf : ∀ c, (f c).1 = c.1) : cellsOrdered (m.map f) := by
  refine ⟨List.pairwise_map.mpr (h.1.imp (by simp [hf])), fun c hc => ?_⟩
  obtain ⟨d, hd, rfl⟩ := List.mem_map.mp hc
  exact hf d ▸ h.2 d hd

/-! ### Memory -/

@[simp] theorem Memory.read_nil (a : Nat) : Memory.read [] a = memoryUnlisted := rfl

@[simp] theorem Memory.read_write_same (m : Memory) (a : Nat) (b : Byte) :
    (m.write a b).read a = b := by
  unfold Memory.read Memory.write
  split <;> simp [*]

theorem Memory.read_write_ne {a d : Nat} (h : d ≠ a) (m : Memory) (b : Byte) :
    (m.write a b).read d = m.read d := by
  unfold Memory.read Memory.write
  split <;> simp [cellFind_insert_ne h, cellFind_erase_ne h]

/-- Every write keeps the canonical form. -/
theorem Memory.write_wf {m : Memory} (h : m.wf) {a : Nat} (ha : a < 2 ^ 32) (b : Byte) :
    (m.write a b).wf := by
  unfold Memory.write
  split
  · exact ⟨cellErase_ordered h.1 a, fun _ hc => h.2 _ (List.mem_filter.mp hc).1⟩
  · next hb =>
    exact ⟨cellInsert_ordered h.1 ha b,
      fun _ hc => (mem_cellInsert hc).elim (fun e => e ▸ hb) (h.2 _)⟩

/-- The empty memory is canonical. -/
theorem Memory.nil_wf : Memory.wf [] := by decide

end Sys2Proof.Machine
end

