-- ==== Sys2Proof/Laws/State.lean ====
section
/-! SUPPORT. One lemma per field per update, so that no proof unfolds a record update, and the laws of
the general registers. -/

namespace Sys2Proof.Machine

/-! ### The end of an instruction -/

@[simp] theorem retireTo_regs (t : Word) (s : State) : (retireTo t s).regs = s.regs := rfl
@[simp] theorem retireTo_pc (t : Word) (s : State) : (retireTo t s).pc = t := rfl
@[simp] theorem retireTo_priv (t : Word) (s : State) : (retireTo t s).priv = s.priv := rfl
@[simp] theorem retireTo_csrs (t : Word) (s : State) : (retireTo t s).csrs = s.csrs := rfl
@[simp] theorem retireTo_cycle (t : Word) (s : State) : (retireTo t s).cycle = s.cycle := rfl
@[simp] theorem retireTo_instret (t : Word) (s : State) : (retireTo t s).instret = s.instret + 1#64 :=
  rfl
@[simp] theorem retireTo_mem (t : Word) (s : State) : (retireTo t s).mem = s.mem := rfl
@[simp] theorem retireTo_icache (t : Word) (s : State) : (retireTo t s).icache = s.icache := rfl
@[simp] theorem retireTo_memMap (t : Word) (s : State) : (retireTo t s).memMap = s.memMap := rfl
@[simp] theorem retireTo_draws (t : Word) (s : State) : (retireTo t s).draws = s.draws := rfl

@[simp] theorem retire_regs (s : State) : (retire s).regs = s.regs := rfl
@[simp] theorem retire_pc (s : State) : (retire s).pc = s.pc + 4#32 := rfl
@[simp] theorem retire_priv (s : State) : (retire s).priv = s.priv := rfl
@[simp] theorem retire_csrs (s : State) : (retire s).csrs = s.csrs := rfl
@[simp] theorem retire_cycle (s : State) : (retire s).cycle = s.cycle := rfl
@[simp] theorem retire_instret (s : State) : (retire s).instret = s.instret + 1#64 := rfl
@[simp] theorem retire_mem (s : State) : (retire s).mem = s.mem := rfl
@[simp] theorem retire_icache (s : State) : (retire s).icache = s.icache := rfl
@[simp] theorem retire_memMap (s : State) : (retire s).memMap = s.memMap := rfl
@[simp] theorem retire_draws (s : State) : (retire s).draws = s.draws := rfl

@[simp] theorem retireUncounted_regs (s : State) : (retireUncounted s).regs = s.regs := rfl
@[simp] theorem retireUncounted_pc (s : State) : (retireUncounted s).pc = s.pc + 4#32 := rfl
@[simp] theorem retireUncounted_priv (s : State) : (retireUncounted s).priv = s.priv := rfl
@[simp] theorem retireUncounted_csrs (s : State) : (retireUncounted s).csrs = s.csrs := rfl
@[simp] theorem retireUncounted_cycle (s : State) : (retireUncounted s).cycle = s.cycle := rfl
@[simp] theorem retireUncounted_instret (s : State) : (retireUncounted s).instret = s.instret := rfl
@[simp] theorem retireUncounted_mem (s : State) : (retireUncounted s).mem = s.mem := rfl
@[simp] theorem retireUncounted_icache (s : State) : (retireUncounted s).icache = s.icache := rfl
@[simp] theorem retireUncounted_memMap (s : State) : (retireUncounted s).memMap = s.memMap := rfl
@[simp] theorem retireUncounted_draws (s : State) : (retireUncounted s).draws = s.draws := rfl

/-! ### The trap entry -/

@[simp] theorem takeTrap_regs (e : Exception) (s : State) : (takeTrap e s).regs = s.regs := rfl
@[simp] theorem takeTrap_pc (e : Exception) (s : State) : (takeTrap e s).pc = s.csrs.mtvec := rfl
@[simp] theorem takeTrap_priv (e : Exception) (s : State) : (takeTrap e s).priv = .M := rfl
@[simp] theorem takeTrap_csrs (e : Exception) (s : State) : (takeTrap e s).csrs = { s.csrs with
      mepc := epcOf e s.pc, mcause := BitVec.ofNat 32 (exceptionCode e), mtval := mtvalOf e,
      mstatus := trapStatus s.priv s.csrs.mstatus } := rfl
@[simp] theorem takeTrap_cycle (e : Exception) (s : State) : (takeTrap e s).cycle = s.cycle := rfl
@[simp] theorem takeTrap_instret (e : Exception) (s : State) : (takeTrap e s).instret = s.instret :=
  rfl
@[simp] theorem takeTrap_mem (e : Exception) (s : State) : (takeTrap e s).mem = s.mem := rfl
@[simp] theorem takeTrap_icache (e : Exception) (s : State) : (takeTrap e s).icache = s.icache :=
  rfl
@[simp] theorem takeTrap_memMap (e : Exception) (s : State) : (takeTrap e s).memMap = s.memMap :=
  rfl
@[simp] theorem takeTrap_draws (e : Exception) (s : State) : (takeTrap e s).draws = s.draws := rfl

/-! ### Stores, the fetch view, the end of a step -/

@[simp] theorem storeByte_regs (a : Word) (b : Byte) (s : State) :
    (storeByte a b s).regs = s.regs :=
  rfl
@[simp] theorem storeByte_pc (a : Word) (b : Byte) (s : State) : (storeByte a b s).pc = s.pc := rfl
@[simp] theorem storeByte_priv (a : Word) (b : Byte) (s : State) :
    (storeByte a b s).priv = s.priv :=
  rfl
@[simp] theorem storeByte_csrs (a : Word) (b : Byte) (s : State) :
    (storeByte a b s).csrs = s.csrs :=
  rfl
@[simp] theorem storeByte_cycle (a : Word) (b : Byte) (s : State) :
    (storeByte a b s).cycle = s.cycle :=
  rfl
@[simp] theorem storeByte_instret (a : Word) (b : Byte) (s : State) :
    (storeByte a b s).instret = s.instret :=
  rfl
@[simp] theorem storeByte_mem (a : Word) (b : Byte) (s : State) :
    (storeByte a b s).mem = s.mem.write a.toNat b :=
  rfl
@[simp] theorem storeByte_icache (a : Word) (b : Byte) (s : State) :
    (storeByte a b s).icache = cellInsert s.icache a.toNat (imemByte s a) :=
  rfl
@[simp] theorem storeByte_memMap (a : Word) (b : Byte) (s : State) :
    (storeByte a b s).memMap = s.memMap :=
  rfl
@[simp] theorem storeByte_draws (a : Word) (b : Byte) (s : State) :
    (storeByte a b s).draws = s.draws :=
  rfl

@[simp] theorem flushFetchView_regs (s : State) : (flushFetchView s).regs = s.regs := rfl
@[simp] theorem flushFetchView_pc (s : State) : (flushFetchView s).pc = s.pc := rfl
@[simp] theorem flushFetchView_priv (s : State) : (flushFetchView s).priv = s.priv := rfl
@[simp] theorem flushFetchView_csrs (s : State) : (flushFetchView s).csrs = s.csrs := rfl
@[simp] theorem flushFetchView_cycle (s : State) : (flushFetchView s).cycle = s.cycle := rfl
@[simp] theorem flushFetchView_instret (s : State) : (flushFetchView s).instret = s.instret := rfl
@[simp] theorem flushFetchView_mem (s : State) : (flushFetchView s).mem = s.mem := rfl
@[simp] theorem flushFetchView_icache (s : State) : (flushFetchView s).icache = [] := rfl
@[simp] theorem flushFetchView_memMap (s : State) : (flushFetchView s).memMap = s.memMap := rfl
@[simp] theorem flushFetchView_draws (s : State) : (flushFetchView s).draws = s.draws := rfl

@[simp] theorem endStep_regs (s : State) : (endStep s).regs = s.regs := rfl
@[simp] theorem endStep_pc (s : State) : (endStep s).pc = s.pc := rfl
@[simp] theorem endStep_priv (s : State) : (endStep s).priv = s.priv := rfl
@[simp] theorem endStep_csrs (s : State) : (endStep s).csrs = s.csrs := rfl
@[simp] theorem endStep_cycle (s : State) :
    (endStep s).cycle = s.cycle + Config.cycleAdvance s.draws :=
  rfl
@[simp] theorem endStep_instret (s : State) : (endStep s).instret = s.instret := rfl
@[simp] theorem endStep_mem (s : State) : (endStep s).mem = s.mem := rfl
@[simp] theorem endStep_icache (s : State) : (endStep s).icache = refillFetchView s := rfl
@[simp] theorem endStep_memMap (s : State) : (endStep s).memMap = s.memMap := rfl
@[simp] theorem endStep_draws (s : State) : (endStep s).draws = s.draws + 1 := rfl

/-! ### General registers -/

@[simp] theorem writeReg_pc (r : RegNum) (v : Word) (s : State) : (writeReg r v s).pc = s.pc := by
  unfold writeReg; split <;> rfl
@[simp] theorem writeReg_priv (r : RegNum) (v : Word) (s : State) :
    (writeReg r v s).priv = s.priv := by
  unfold writeReg; split <;> rfl
@[simp] theorem writeReg_csrs (r : RegNum) (v : Word) (s : State) :
    (writeReg r v s).csrs = s.csrs := by
  unfold writeReg; split <;> rfl
@[simp] theorem writeReg_cycle (r : RegNum) (v : Word) (s : State) :
    (writeReg r v s).cycle = s.cycle := by
  unfold writeReg; split <;> rfl
@[simp] theorem writeReg_instret (r : RegNum) (v : Word) (s : State) :
    (writeReg r v s).instret = s.instret := by
  unfold writeReg; split <;> rfl
@[simp] theorem writeReg_mem (r : RegNum) (v : Word) (s : State) :
    (writeReg r v s).mem = s.mem := by
  unfold writeReg; split <;> rfl
@[simp] theorem writeReg_icache (r : RegNum) (v : Word) (s : State) :
    (writeReg r v s).icache = s.icache := by
  unfold writeReg; split <;> rfl
@[simp] theorem writeReg_memMap (r : RegNum) (v : Word) (s : State) :
    (writeReg r v s).memMap = s.memMap := by
  unfold writeReg; split <;> rfl
@[simp] theorem writeReg_draws (r : RegNum) (v : Word) (s : State) :
    (writeReg r v s).draws = s.draws := by
  unfold writeReg; split <;> rfl

/-! ### CSRs -/

@[simp] theorem putCsr_regs (c : Csr) (v : Word) (s : State) : (putCsr c v s).regs = s.regs := by
  cases c <;> rfl
@[simp] theorem putCsr_pc (c : Csr) (v : Word) (s : State) : (putCsr c v s).pc = s.pc := by
  cases c <;> rfl
@[simp] theorem putCsr_priv (c : Csr) (v : Word) (s : State) : (putCsr c v s).priv = s.priv := by
  cases c <;> rfl
@[simp] theorem putCsr_mem (c : Csr) (v : Word) (s : State) : (putCsr c v s).mem = s.mem := by
  cases c <;> rfl
@[simp] theorem putCsr_icache (c : Csr) (v : Word) (s : State) :
    (putCsr c v s).icache = s.icache := by
  cases c <;> rfl
@[simp] theorem putCsr_memMap (c : Csr) (v : Word) (s : State) :
    (putCsr c v s).memMap = s.memMap := by
  cases c <;> rfl
@[simp] theorem putCsr_draws (c : Csr) (v : Word) (s : State) : (putCsr c v s).draws = s.draws := by
  cases c <;> rfl

@[simp] theorem writeCsr_regs (c : Csr) (v : Word) (s : State) :
    (writeCsr c v s).regs = s.regs := by
  simp [writeCsr]
@[simp] theorem writeCsr_pc (c : Csr) (v : Word) (s : State) : (writeCsr c v s).pc = s.pc := by
  simp [writeCsr]
@[simp] theorem writeCsr_priv (c : Csr) (v : Word) (s : State) :
    (writeCsr c v s).priv = s.priv := by
  simp [writeCsr]
@[simp] theorem writeCsr_mem (c : Csr) (v : Word) (s : State) : (writeCsr c v s).mem = s.mem := by
  simp [writeCsr]
@[simp] theorem writeCsr_icache (c : Csr) (v : Word) (s : State) :
    (writeCsr c v s).icache = s.icache := by
  simp [writeCsr]
@[simp] theorem writeCsr_memMap (c : Csr) (v : Word) (s : State) :
    (writeCsr c v s).memMap = s.memMap := by
  simp [writeCsr]
@[simp] theorem writeCsr_draws (c : Csr) (v : Word) (s : State) :
    (writeCsr c v s).draws = s.draws := by
  simp [writeCsr]

/-! ### Reading registers -/

@[simp] theorem readReg_zero (s : State) : readReg s 0#5 = 0#32 := rfl

theorem readReg_congr {s t : State} (h : t.regs = s.regs) (r : RegNum) : readReg t r = readReg s r := by
  simp only [readReg, h]

theorem regSlot_injective {r q : RegNum} (hr : r ≠ 0#5) (hq : q ≠ 0#5)
    (h : (regSlot r hr).val = (regSlot q hq).val) : r = q := by
  have h1 : r.toNat ≠ 0 := fun e => hr (BitVec.eq_of_toNat_eq e)
  have h2 : q.toNat ≠ 0 := fun e => hq (BitVec.eq_of_toNat_eq e)
  apply BitVec.eq_of_toNat_eq
  simp only [regSlot] at h
  omega

/-- The one law of the register file: `x0` reads 0, the written register reads the written value, every
other register is as before (R14, R21). -/
theorem readReg_writeReg (s : State) (rd : RegNum) (v : Word) (r : RegNum) :
    readReg (writeReg rd v s) r = if r = 0#5 then 0#32 else if r = rd then v else readReg s r := by
  by_cases hr : r = 0#5
  · simp [hr]
  by_cases hd : rd = 0#5
  · simp [writeReg, hd, hr]
  by_cases he : r = rd
  · subst he
    simp [writeReg, readReg, hr]
  · have hs : (regSlot rd hd).val ≠ (regSlot r hr).val := fun e => he (regSlot_injective hd hr e).symm
    simp [writeReg, readReg, hr, hd, he, Vector.getElem_set_ne, hs]

theorem readReg_writeReg_ne {r q : RegNum} (h : q ≠ r) (v : Word) (s : State) :
    readReg (writeReg r v s) q = readReg s q := by
  by_cases h0 : q = 0#5 <;> simp [readReg_writeReg, h, h0]

/-- Writes of two registers commute. -/
theorem writeReg_comm {r q : RegNum} (h : r ≠ q) (v u : Word) (s : State) :
    writeReg r v (writeReg q u s) = writeReg q u (writeReg r v s) := by
  unfold writeReg
  split <;> split <;> try rfl
  rename_i hr hq
  have : (regSlot r hr).val ≠ (regSlot q hq).val := fun e => h (regSlot_injective hr hq e)
  simp [Vector.set_comm _ _ this.symm]

@[simp] theorem readReg_retireTo (t : Word) (s : State) (r : RegNum) :
    readReg (retireTo t s) r = readReg s r :=
  readReg_congr (by simp) r

@[simp] theorem readReg_retire (s : State) (r : RegNum) :
    readReg (retire s) r = readReg s r :=
  readReg_congr (by simp) r

@[simp] theorem readReg_retireUncounted (s : State) (r : RegNum) :
    readReg (retireUncounted s) r = readReg s r :=
  readReg_congr (by simp) r

@[simp] theorem readReg_takeTrap (e : Exception) (s : State) (r : RegNum) :
    readReg (takeTrap e s) r = readReg s r :=
  readReg_congr (by simp) r

@[simp] theorem readReg_storeByte (a : Word) (b : Byte) (s : State) (r : RegNum) :
    readReg (storeByte a b s) r = readReg s r :=
  readReg_congr (by simp) r

@[simp] theorem readReg_flushFetchView (s : State) (r : RegNum) :
    readReg (flushFetchView s) r = readReg s r :=
  readReg_congr (by simp) r

@[simp] theorem readReg_endStep (s : State) (r : RegNum) :
    readReg (endStep s) r = readReg s r :=
  readReg_congr (by simp) r

@[simp] theorem readReg_putCsr (c : Csr) (v : Word) (s : State) (r : RegNum) :
    readReg (putCsr c v s) r = readReg s r :=
  readReg_congr (by simp) r

@[simp] theorem readReg_writeCsr (c : Csr) (v : Word) (s : State) (r : RegNum) :
    readReg (writeCsr c v s) r = readReg s r :=
  readReg_congr (by simp) r

end Sys2Proof.Machine
end

