-- ==== Sys2Proof/Laws/Ops.lean ====
section
/-! SUPPORT. What each shared operation can do, once: memory bytes, stores, loads, CSR access, the step.
Proofs cite these instead of unfolding the operations. -/

namespace Sys2Proof.Machine

/-! ### Bytes of memory and of the fetch view -/

theorem memByte_congr {s t : State} (h : t.mem = s.mem) (a : Word) : memByte t a = memByte s a := by
  simp only [memByte, h]

theorem imemByte_congr {s t : State} (hm : t.mem = s.mem) (hi : t.icache = s.icache) (a : Word) :
    imemByte t a = imemByte s a := by
  simp only [imemByte, hi, memByte_congr hm]

/-- `Mem` after the store of one byte. -/
theorem memByte_storeByte (a : Word) (b : Byte) (s : State) (d : Word) :
    memByte (storeByte a b s) d = if d = a then b else memByte s d := by
  by_cases h : d = a
  · simp [memByte, h]
  · have : d.toNat ≠ a.toNat := fun e => h (BitVec.eq_of_toNat_eq e)
    simp [memByte, h, Memory.read_write_ne this]

/-- A store leaves `IMem` as it was (R105, R125). -/
@[simp] theorem imemByte_storeByte (a : Word) (b : Byte) (s : State) (d : Word) :
    imemByte (storeByte a b s) d = imemByte s d := by
  by_cases h : d = a
  · simp [imemByte, h]
  · have : d.toNat ≠ a.toNat := fun e => h (BitVec.eq_of_toNat_eq e)
    simp [imemByte, cellFind_insert_ne this, memByte_storeByte, h]

/-! ### Stores of several bytes -/

/-- A store changes memory and the list behind the fetch view, and nothing else. -/
theorem storeBytes_frame (bs : List Byte) (a : Word) (s : State) :
    storeBytes a bs s =
      { s with mem := (storeBytes a bs s).mem, icache := (storeBytes a bs s).icache } := by
  induction bs generalizing a s with
  | nil => rfl
  | cons b rest ih => rw [storeBytes, ih]; rfl

@[simp] theorem storeBytes_regs (bs : List Byte) (a : Word) (s : State) :
    (storeBytes a bs s).regs = s.regs := by rw [storeBytes_frame]
@[simp] theorem storeBytes_pc (bs : List Byte) (a : Word) (s : State) :
    (storeBytes a bs s).pc = s.pc := by rw [storeBytes_frame]
@[simp] theorem storeBytes_priv (bs : List Byte) (a : Word) (s : State) :
    (storeBytes a bs s).priv = s.priv := by rw [storeBytes_frame]
@[simp] theorem storeBytes_csrs (bs : List Byte) (a : Word) (s : State) :
    (storeBytes a bs s).csrs = s.csrs := by rw [storeBytes_frame]
@[simp] theorem storeBytes_cycle (bs : List Byte) (a : Word) (s : State) :
    (storeBytes a bs s).cycle = s.cycle := by rw [storeBytes_frame]
@[simp] theorem storeBytes_instret (bs : List Byte) (a : Word) (s : State) :
    (storeBytes a bs s).instret = s.instret := by rw [storeBytes_frame]
@[simp] theorem storeBytes_memMap (bs : List Byte) (a : Word) (s : State) :
    (storeBytes a bs s).memMap = s.memMap := by rw [storeBytes_frame]
@[simp] theorem storeBytes_draws (bs : List Byte) (a : Word) (s : State) :
    (storeBytes a bs s).draws = s.draws := by rw [storeBytes_frame]
@[simp] theorem readReg_storeBytes (bs : List Byte) (a : Word) (s : State) (r : RegNum) :
    readReg (storeBytes a bs s) r = readReg s r := readReg_congr (by simp) r

/-- A store of any number of bytes leaves `IMem` as it was (R125). -/
@[simp] theorem imemByte_storeBytes (bs : List Byte) (a : Word) (s : State) (d : Word) :
    imemByte (storeBytes a bs s) d = imemByte s d := by
  induction bs generalizing a s with
  | nil => rfl
  | cons b rest ih => rw [storeBytes, ih, imemByte_storeByte]

/-- `Mem` after a store of several bytes: byte `k` of the list lies at `a + k` (R105), every other byte is
as before. -/
theorem memByte_storeBytes {bs : List Byte} (h : bs.length ≤ 2 ^ 32) (a : Word) (s : State) (d : Word) :
    memByte (storeBytes a bs s) d = (bs[(d - a).toNat]?).getD (memByte s d) := by
  induction bs generalizing a s with
  | nil => rfl
  | cons b rest ih =>
    rw [List.length_cons] at h
    rw [storeBytes, ih (by omega), memByte_storeByte]
    by_cases hd : d = a
    · subst hd
      have : (d - (d + 1#32)).toNat = 2 ^ 32 - 1 := by bv_omega
      rw [this, List.getElem?_eq_none (by omega)]
      simp
    · have : (d - a).toNat = (d - (a + 1#32)).toNat + 1 := by bv_omega
      rw [this, List.getElem?_cons_succ, if_neg hd]

/-- `Mem` after a store of the low `n` bytes of a word, the form that the three stores use. -/
theorem memByte_storeBytes_lowBytes {n : Nat} (hn : n ≤ 4) (a v : Word) (s : State) (d : Word) :
    memByte (storeBytes a (lowBytes v n) s) d =
      if (d - a).toNat < n then v.extractLsb' (8 * (d - a).toNat) 8 else memByte s d := by
  have hl : (lowBytes v n).length = n := by simp [lowBytes, bytesOfWord, hn]
  rw [memByte_storeBytes (by omega)]
  by_cases h : (d - a).toNat < n
  · rw [if_pos h]
    generalize (d - a).toNat = k at h
    have : k < 4 := by omega
    interval_cases k <;> simp [lowBytes, bytesOfWord, wordByte, h]
  · rw [if_neg h, List.getElem?_eq_none (by omega)]
    rfl

/-- A store keeps memory canonical. -/
theorem storeBytes_mem_wf (bs : List Byte) (a : Word) (s : State) (h : s.mem.wf) :
    (storeBytes a bs s).mem.wf := by
  induction bs generalizing a s with
  | nil => exact h
  | cons b rest ih => exact ih _ _ (Memory.write_wf h a.isLt b)

/-- A store keeps the list behind the fetch view ordered. -/
theorem storeBytes_icache_ordered (bs : List Byte) (a : Word) (s : State) (h : cellsOrdered s.icache) :
    cellsOrdered (storeBytes a bs s).icache := by
  induction bs generalizing a s with
  | nil => exact h
  | cons b rest ih => exact ih _ _ (cellInsert_ordered h a.isLt _)

/-- Placing an instruction word keeps memory canonical. -/
theorem placeWord_mem_wf (a w : Word) (s : State) (h : s.mem.wf) : (placeWord a w s).mem.wf :=
  storeBytes_mem_wf _ a s h

/-- Placing an instruction word keeps the list behind the fetch view ordered. -/
theorem placeWord_icache_ordered (a w : Word) (s : State) (h : cellsOrdered s.icache) :
    cellsOrdered (placeWord a w s).icache :=
  cellErase_ordered (cellErase_ordered (cellErase_ordered (cellErase_ordered h _) _) _) _

/-- The memory after reset is canonical, for every `RESET_PC` and every map. -/
theorem resetWith_mem_wf (pc : Word) (m : Config.MemMap) : (State.resetWith pc m).mem.wf :=
  Memory.nil_wf

/-! ### Comparisons, shifts and status fields -/

theorem truthWord_lessSigned (a b : Word) :
    truthWord (lessSigned a b) = if a.toInt < b.toInt then 1#32 else 0#32 := by
  by_cases h : a.toInt < b.toInt <;> simp [truthWord, lessSigned, h]

theorem truthWord_lessUnsigned (a b : Word) :
    truthWord (lessUnsigned a b) = if a.toNat < b.toNat then 1#32 else 0#32 := by
  by_cases h : a.toNat < b.toNat <;> simp [truthWord, lessUnsigned, h]

/-- R281: the exact reading of a left shift. -/
theorem shiftLeft_toNat (a : Word) (n : BitVec 5) :
    (shiftLeft a n).toNat = a.toNat * 2 ^ n.toNat % 2 ^ 32 := by
  rw [shiftLeft, BitVec.toNat_shiftLeft, Nat.shiftLeft_eq]

/-- R283: the exact reading of a logical right shift. -/
theorem shiftRightLogical_toNat (a : Word) (n : BitVec 5) :
    (shiftRightLogical a n).toNat = a.toNat / 2 ^ n.toNat := by
  rw [shiftRightLogical, BitVec.toNat_ushiftRight, Nat.shiftRight_eq_div_pow]

/-- R280: the exact reading of an arithmetic right shift. -/
theorem shiftRightArith_toInt (a : Word) (n : BitVec 5) :
    (shiftRightArith a n).toInt = a.toInt / 2 ^ n.toNat := by
  rw [shiftRightArith, BitVec.toInt_sshiftRight, Int.shiftRight_eq_div_pow]
  rfl

/-- R286: the shift amount of the register forms is the register modulo 32. -/
theorem shiftAmount_toNat (v : Word) : (shiftAmount v).toNat = v.toNat % 32 := by
  simp [shiftAmount]

/-- R350, step 4. -/
@[simp] theorem statusMPP_trapStatus (p : Priv) (m : Word) : statusMPP (trapStatus p m) = encPriv p := by
  apply BitVec.eq_of_getLsbD_eq
  intro i hi
  simp only [statusMPP, trapStatus, setStatus, BitVec.getLsbD_extractLsb', BitVec.getLsbD_append]
  interval_cases i <;> simp

/-- R350, step 5. -/
@[simp] theorem statusMPIE_trapStatus (p : Priv) (m : Word) :
    statusMPIE (trapStatus p m) = statusMIE m := by
  simp only [statusMPIE, trapStatus, setStatus, statusMIE, BitVec.getLsbD_append,
    BitVec.getLsbD_extractLsb']
  simp

/-- R350, step 6. -/
@[simp] theorem statusMIE_trapStatus (p : Priv) (m : Word) : statusMIE (trapStatus p m) = false := by
  simp only [trapStatus, setStatus, statusMIE, BitVec.getLsbD_append, BitVec.getLsbD_extractLsb']
  simp

/-- R350: a trap leaves every other bit of `mstatus`. -/
theorem trapStatus_getLsbD (p : Priv) (m : Word) {k : Nat} (h3 : k ≠ 3) (h7 : k ≠ 7) (h11 : k ≠ 11)
    (h12 : k ≠ 12) : (trapStatus p m).getLsbD k = m.getLsbD k := by
  by_cases hk : k < 32
  · simp only [trapStatus, setStatus, BitVec.getLsbD_extractLsb', BitVec.getLsbD_append]
    interval_cases k <;> first | omega | simp
  · rw [BitVec.getLsbD_of_ge _ _ (by omega), BitVec.getLsbD_of_ge _ _ (by omega)]

theorem misaligned_iff (n : Nat) (a : Word) : misaligned n a = true ↔ a.toNat % n ≠ 0 := by
  simp [misaligned]

theorem misaligned_false_iff (n : Nat) (a : Word) : misaligned n a = false ↔ a.toNat % n = 0 := by
  simp [misaligned]

/-! ### Loads and stores -/

/-- What a load can do: the trap of the check that fails, or the write of `rd`. -/
theorem load_cases (n : Nat) (value : State → Word → Word) (rd : RegNum) (ea : Word) (s : State) :
    (∃ e, loadException n ea s = some e ∧ load n value rd ea s = .next (takeTrap e s)) ∨
    (loadException n ea s = none ∧
      load n value rd ea s = .next (retire (writeReg rd (value s ea) s))) := by
  unfold load
  cases h : loadException n ea s with
  | some e => exact .inl ⟨e, rfl, rfl⟩
  | none => exact .inr ⟨rfl, rfl⟩

/-- What a store can do: the trap of the check that fails, or the write of its bytes. -/
theorem store_cases (n : Nat) (v ea : Word) (s : State) :
    (∃ e, storeException n ea s = some e ∧ store n v ea s = .next (takeTrap e s)) ∨
    (storeException n ea s = none ∧
      store n v ea s = .next (retire (storeBytes ea (lowBytes v n) s))) := by
  unfold store
  cases h : storeException n ea s with
  | some e => exact .inl ⟨e, rfl, rfl⟩
  | none => exact .inr ⟨rfl, rfl⟩

/-! ### CSRs -/

/-- Every CSR is found at its own address. -/
@[simp] theorem csrAt_address (c : Csr) : csrAt (csrAddress c) = some c := by
  cases c <;> decide

/-- A CSR found at an address has that address. -/
theorem csrAt_some {a : CsrAddr} {c : Csr} (h : csrAt a = some c) : a = csrAddress c := by
  have h' : (csrAddress c == a) = true := List.find?_some (p := fun c => csrAddress c == a) h
  exact (by simpa using h' : csrAddress c = a).symm

/-- A CSR that is not read-only reads the value put into it. -/
theorem readCsr_putCsr_same {c : Csr} (h : csrReadOnly c = false) (v : Word) (s : State) :
    readCsr c (putCsr c v s) = v := by
  cases c <;> first
    | rfl
    | (exfalso; revert h; decide)
    | exact BitVec.extractLsb'_append_eq_right

/-- Putting a value into one CSR leaves every other storage cell as it was. -/
theorem readCsr_putCsr_ne {c d : Csr} (h : d ≠ c) (hd : d ∉ counterCsrs) (v : Word) (s : State) :
    readCsr d (putCsr c v s) = readCsr d s := by
  cases d <;> first
    | (exfalso; revert hd; decide)
    | (cases c <;> first | rfl | exact absurd rfl h)

/-- A CSR cell depends on nothing but the cells. -/
theorem readCsr_congr {c : Csr} (h : c ∉ counterCsrs) {s t : State} (hc : t.csrs = s.csrs) :
    readCsr c t = readCsr c s := by
  cases c <;> first
    | (simp only [readCsr, hc]; done)
    | (exfalso; revert h; decide)

/-- A trap leaves every CSR but the four that it writes (R350). -/
theorem readCsr_takeTrap {c : Csr} (h : c ∉ trapCsrs) (e : Exception) (s : State) :
    readCsr c (takeTrap e s) = readCsr c s := by
  cases c <;> first
    | rfl
    | (exfalso; revert h; decide)

/-- Every bit of a written value is kept, since `CsrWritable` is all ones (R41 (c)). -/
@[simp] theorem mergeCsr_eq (c : Csr) (old v : Word) : mergeCsr c old v = v := by
  have h : csrWritable (csrAddress c) = BitVec.allOnes 32 := rfl
  rw [mergeCsr, h, BitVec.not_allOnes, BitVec.and_zero, BitVec.zero_or, BitVec.and_allOnes]

/-- What a CSR instruction can do: the illegal-instruction trap, a pure read, or a read and a write. -/
theorem csrInstr_cases (w : Word) (rd : RegNum) (csr : CsrAddr) (doWrite : Bool) (new : Word → Word)
    (s : State) :
    ((csrAt csr = none ∨ ∃ c, csrAt csr = some c ∧ doWrite = true ∧ csrReadOnly c = true) ∧
      csrInstr w rd csr doWrite new s = .next (takeTrap (.illegalInstr w) s)) ∨
    (∃ c, csrAt csr = some c ∧ doWrite = false ∧
      csrInstr w rd csr doWrite new s = .next (retire (writeReg rd (readCsr c s) s))) ∨
    (∃ c, csrAt csr = some c ∧ doWrite = true ∧ csrReadOnly c = false ∧
      csrInstr w rd csr doWrite new s =
        .next ((if c = .minstret then retireUncounted else retire)
          (writeReg rd (readCsr c s) (putCsr c (new (readCsr c s)) s)))) := by
  unfold csrInstr
  cases h : csrAt csr with
  | none => exact .inl ⟨.inl rfl, rfl⟩
  | some c =>
    cases doWrite with
    | false => exact .inr (.inl ⟨c, rfl, rfl, by simp⟩)
    | true =>
      cases hr : csrReadOnly c with
      | true => exact .inl ⟨.inr ⟨c, rfl, rfl, hr⟩, by simp [hr, raise]⟩
      | false =>
        refine .inr (.inr ⟨c, rfl, rfl, hr, ?_⟩)
        by_cases hm : c = .minstret
        · subst hm
          simp [writeCsr, show csrReadOnly .minstret = false from rfl]
        · simp [hr, hm, writeCsr]

/-! ### The step -/

/-- What happens before execution, by phase (R344). -/
theorem nextInstr_cases (s : State) :
    (misaligned 4 s.pc = true ∧ nextInstr s = .error (.instrAddrMisaligned s.pc)) ∨
    (misaligned 4 s.pc = false ∧ mapFetch s.memMap s.pc = false ∧
      nextInstr s = .error (.instrAccessFault s.pc)) ∨
    (misaligned 4 s.pc = false ∧ mapFetch s.memMap s.pc = true ∧
      ∃ r, decode (imemWord s s.pc) = .error r ∧
        nextInstr s = .error (.illegalInstr (imemWord s s.pc))) ∨
    (misaligned 4 s.pc = false ∧ mapFetch s.memMap s.pc = true ∧
      ∃ i, decode (imemWord s s.pc) = .ok i ∧ nextInstr s = .ok i) := by
  unfold nextInstr
  cases misaligned 4 s.pc <;> cases mapFetch s.memMap s.pc <;>
    cases decode (imemWord s s.pc) <;> simp

/-- What a step that goes on did: the trap of a phase before execution, or the execution of the decoded
instruction; then the end of the step. -/
theorem step_cases {s t : State} (h : step s = .next t) :
    (∃ e, nextInstr s = .error e ∧ t = endStep (takeTrap e s)) ∨
    (∃ i u, nextInstr s = .ok i ∧ exec i s = .next u ∧ t = endStep u) := by
  unfold step at h
  cases hn : nextInstr s with
  | error e =>
    rw [hn] at h
    exact .inl ⟨e, rfl, (Host.Outcome.next.inj h).symm⟩
  | ok i =>
    rw [hn] at h
    change endResult (exec i s) = _ at h
    cases he : exec i s with
    | next u =>
      rw [he] at h
      exact .inr ⟨i, u, rfl, he, (Host.Outcome.next.inj h).symm⟩
    | fault f => rw [he] at h; cases h
    | refused r => rw [he] at h; cases h

/-- The end of a step leaves `Mem`. -/
@[simp] theorem memByte_endStep (s : State) (a : Word) : memByte (endStep s) a = memByte s a := rfl

theorem cellFind_map_byte (m : List Host.Cell) (f : Host.Cell → Byte) (a : Nat) :
    cellFind (m.map (fun c => (c.1, f c))) a = none ∧ cellFind m a = none ∨
    ∃ b, cellFind m a = some b ∧ cellFind (m.map (fun c => (c.1, f c))) a = some (f (a, b)) := by
  induction m with
  | nil => exact .inl ⟨rfl, rfl⟩
  | cons c rest ih =>
    obtain ⟨k, x⟩ := c
    by_cases hk : k = a
    · subst hk; exact .inr ⟨x, by simp [cellFind], by simp [cellFind]⟩
    · simpa [cellFind, hk] using ih

/-- At the end of a step a byte of `IMem` stays, or is refilled from `Mem` (R126). -/
theorem imemByte_endStep (s : State) (a : Word) :
    imemByte (endStep s) a = imemByte s a ∨ imemByte (endStep s) a = memByte s a := by
  rcases cellFind_map_byte s.icache
    (fun c => if Config.icacheRefill s.draws c.1 then s.mem.read c.1 else c.2) a.toNat with
    ⟨h1, h2⟩ | ⟨b, h1, h2⟩
  · left; simp [imemByte, refillFetchView, h1, h2]
  · simp only [imemByte, endStep_icache, refillFetchView, h2, h1, Option.getD_some]
    split
    · exact .inr rfl
    · exact .inl rfl

end Sys2Proof.Machine
end

