-- ==== Sys2Proof/Laws/Exec.lean ====
section
/-! SUPPORT. What the execution of an instruction can do, once: every rule about all instructions follows
by these six cases. -/

namespace Sys2Proof.Machine

/-- `t` is where an instruction that raises nothing may go on. -/
def GoesOnAt (i : Instr) (s : State) (t : Word) : Prop :=
  (t = s.pc + 4#32 ∧ ∀ rd rs1 o p, i ≠ .jal rd o ∧ i ≠ .jalr rd rs1 p) ∨ target i s = some t

/-- What executing an instruction can do: take a trap; write `rd`; transfer control or do nothing;
flush the fetch view; store bytes; write a CSR and `rd`. -/
theorem exec_cases (i : Instr) (s : State) :
    (∃ e, exec i s = .next (takeTrap e s)) ∨
    (∃ rd v t, destination i = some rd ∧ isStore i = false ∧ GoesOnAt i s t ∧
      (∀ a, csrAccess i ≠ some (a, true)) ∧ exec i s = .next (retireTo t (writeReg rd v s))) ∨
    (∃ t, isStore i = false ∧ csrAccess i = none ∧ GoesOnAt i s t ∧
      exec i s = .next (retireTo t s)) ∨
    (∃ imm12 rs1 rd, i = .fencei imm12 rs1 rd ∧ exec i s = .next (retire (flushFetchView s))) ∨
    (∃ ea bs, isStore i = true ∧ csrAccess i = none ∧ GoesOnAt i s (s.pc + 4#32) ∧
      exec i s = .next (retire (storeBytes ea bs s))) ∨
    (∃ rd c v, destination i = some rd ∧ isStore i = false ∧
      csrAccess i = some (csrAddress c, true) ∧ csrReadOnly c = false ∧ GoesOnAt i s (s.pc + 4#32) ∧
      exec i s = .next ((if c = .minstret then retireUncounted else retire)
        (writeReg rd (readCsr c s) (putCsr c v s)))) := by
  have hload : ∀ n f rd ea, exec i s = load n f rd ea s → destination i = some rd →
      isStore i = false → GoesOnAt i s (s.pc + 4#32) → (∀ a, csrAccess i ≠ some (a, true)) →
      (∃ e, exec i s = .next (takeTrap e s)) ∨
      (∃ rd v t, destination i = some rd ∧ isStore i = false ∧ GoesOnAt i s t ∧
        (∀ a, csrAccess i ≠ some (a, true)) ∧ exec i s = .next (retireTo t (writeReg rd v s))) := by
    intro n f rd ea he hd hs hg hc
    rcases load_cases n f rd ea s with ⟨e, -, h⟩ | ⟨-, h⟩
    · exact .inl ⟨e, he.trans h⟩
    · exact .inr ⟨rd, _, _, hd, hs, hg, hc, (he.trans h).trans (by rw [retire, writeReg_pc])⟩
  have hstore : ∀ n v ea, exec i s = store n v ea s → isStore i = true → csrAccess i = none →
      GoesOnAt i s (s.pc + 4#32) →
      (∃ e, exec i s = .next (takeTrap e s)) ∨
      (∃ ea bs, isStore i = true ∧ csrAccess i = none ∧ GoesOnAt i s (s.pc + 4#32) ∧
        exec i s = .next (retire (storeBytes ea bs s))) := by
    intro n v ea he hs hc hg
    rcases store_cases n v ea s with ⟨e, -, h⟩ | ⟨-, h⟩
    · exact .inl ⟨e, he.trans h⟩
    · exact .inr ⟨_, _, hs, hc, hg, he.trans h⟩
  have hcsr : ∀ w rd a d f, exec i s = csrInstr w rd a d f s → csrAccess i = some (a, d) →
      destination i = some rd → isStore i = false → GoesOnAt i s (s.pc + 4#32) →
      (∃ e, exec i s = .next (takeTrap e s)) ∨
      (∃ rd v t, destination i = some rd ∧ isStore i = false ∧ GoesOnAt i s t ∧
        (∀ a, csrAccess i ≠ some (a, true)) ∧ exec i s = .next (retireTo t (writeReg rd v s))) ∨
      (∃ rd c v, destination i = some rd ∧ isStore i = false ∧
        csrAccess i = some (csrAddress c, true) ∧ csrReadOnly c = false ∧ GoesOnAt i s (s.pc + 4#32) ∧
        exec i s = .next ((if c = .minstret then retireUncounted else retire)
          (writeReg rd (readCsr c s) (putCsr c v s)))) := by
    intro w rd a d f he ha hd hs hg
    rcases csrInstr_cases w rd a d f s with ⟨-, h⟩ | ⟨c, hc, hw, h⟩ | ⟨c, hc, hw, hr, h⟩
    · exact .inl ⟨_, he.trans h⟩
    · refine .inr (.inl ⟨rd, _, _, hd, hs, hg, ?_, (he.trans h).trans (by rw [retire, writeReg_pc])⟩)
      intro b hb
      rw [ha, hw] at hb
      cases hb
    · refine .inr (.inr ⟨rd, c, _, hd, hs, ?_, hr, hg, he.trans h⟩)
      rw [ha, hw, csrAt_some hc]
  have hset : ∀ rd v t, exec i s = .next (retireTo t (writeReg rd v s)) → destination i = some rd →
      isStore i = false → GoesOnAt i s t → csrAccess i = none →
      (∃ rd v t, destination i = some rd ∧ isStore i = false ∧ GoesOnAt i s t ∧
        (∀ a, csrAccess i ≠ some (a, true)) ∧ exec i s = .next (retireTo t (writeReg rd v s))) :=
    fun rd v t he hd hs hg hc => ⟨rd, v, t, hd, hs, hg, by simp [hc], he⟩
  have hnext : ∀ j : Instr, (∀ rd rs1 o p, j ≠ .jal rd o ∧ j ≠ .jalr rd rs1 p) →
      GoesOnAt j s (s.pc + 4#32) := fun j hj => .inl ⟨rfl, hj⟩
  have hbranch : ∀ (c : Bool) (o : BitVec 13), exec i s = branchIf c o s →
      (∀ rd rs1 o p, i ≠ .jal rd o ∧ i ≠ .jalr rd rs1 p) → target i s = some (s.pc + o.signExtend 32) →
      isStore i = false → csrAccess i = none →
      ∃ t, isStore i = false ∧ csrAccess i = none ∧ GoesOnAt i s t ∧
        exec i s = .next (retireTo t s) := by
    intro c o he hn ht hs hc
    refine ⟨_, hs, hc, ?_, he⟩
    cases c
    · exact .inl ⟨rfl, hn⟩
    · exact .inr ht
  cases i with
  | bne a b o =>
    exact .inr (.inr (.inl (hbranch _ o (by rw [exec, execBne]) (by simp) rfl rfl rfl)))
  | beq a b o =>
    exact .inr (.inr (.inl (hbranch _ o (by rw [exec, execBeq]) (by simp) rfl rfl rfl)))
  | blt a b o =>
    exact .inr (.inr (.inl (hbranch _ o (by rw [exec, execBlt]) (by simp) rfl rfl rfl)))
  | bge a b o =>
    exact .inr (.inr (.inl (hbranch _ o (by rw [exec, execBge]) (by simp) rfl rfl rfl)))
  | bltu a b o =>
    exact .inr (.inr (.inl (hbranch _ o (by rw [exec, execBltu]) (by simp) rfl rfl rfl)))
  | bgeu a b o =>
    exact .inr (.inr (.inl (hbranch _ o (by rw [exec, execBgeu]) (by simp) rfl rfl rfl)))
  | jal d o =>
    exact .inr (.inl (hset d (s.pc + 4#32) (s.pc + jumpOffset o) rfl rfl rfl (.inr rfl) rfl))
  | jalr d a o =>
    exact .inr (.inl (hset d (s.pc + 4#32) ((readReg s a + imm12Value o) &&& 0xFFFFFFFE#32) rfl rfl rfl (.inr rfl) rfl))
  | ecall => cases h : s.priv <;> exact .inl ⟨_, by simp only [exec, execEcall, h]; rfl⟩
  | ebreak => exact .inl ⟨_, rfl⟩
  | fence fm p q a d => exact .inr (.inr (.inl ⟨_, rfl, rfl, hnext _ (by simp), rfl⟩))
  | fencei m a d => exact .inr (.inr (.inr (.inl ⟨m, a, d, rfl, rfl⟩)))
  | sw b o a =>
    rcases hstore _ _ _ (by rw [exec, execSw]) rfl rfl (hnext _ (by simp)) with h | h
    · exact .inl h
    · exact .inr (.inr (.inr (.inr (.inl h))))
  | sb b o a =>
    rcases hstore _ _ _ (by rw [exec, execSb]) rfl rfl (hnext _ (by simp)) with h | h
    · exact .inl h
    · exact .inr (.inr (.inr (.inr (.inl h))))
  | sh b o a =>
    rcases hstore _ _ _ (by rw [exec, execSh]) rfl rfl (hnext _ (by simp)) with h | h
    · exact .inl h
    · exact .inr (.inr (.inr (.inr (.inl h))))
  | lb d o a =>
    rcases hload _ _ d _ (by rw [exec, execLb]) rfl rfl (hnext _ (by simp)) (by simp [csrAccess]) with h | h
    · exact .inl h
    · exact .inr (.inl h)
  | lh d o a =>
    rcases hload _ _ d _ (by rw [exec, execLh]) rfl rfl (hnext _ (by simp)) (by simp [csrAccess]) with h | h
    · exact .inl h
    · exact .inr (.inl h)
  | lw d o a =>
    rcases hload _ _ d _ (by rw [exec, execLw]) rfl rfl (hnext _ (by simp)) (by simp [csrAccess]) with h | h
    · exact .inl h
    · exact .inr (.inl h)
  | lbu d o a =>
    rcases hload _ _ d _ (by rw [exec, execLbu]) rfl rfl (hnext _ (by simp)) (by simp [csrAccess]) with h | h
    · exact .inl h
    · exact .inr (.inl h)
  | lhu d o a =>
    rcases hload _ _ d _ (by rw [exec, execLhu]) rfl rfl (hnext _ (by simp)) (by simp [csrAccess]) with h | h
    · exact .inl h
    · exact .inr (.inl h)
  | csrrw d c a =>
    rcases hcsr _ d c _ _ (by rw [exec, execCsrrw]) rfl rfl rfl (hnext _ (by simp)) with h | h | h
    · exact .inl h
    · exact .inr (.inl h)
    · exact .inr (.inr (.inr (.inr (.inr h))))
  | csrrs d c a =>
    rcases hcsr _ d c _ _ (by rw [exec, execCsrrs]) rfl rfl rfl (hnext _ (by simp)) with h | h | h
    · exact .inl h
    · exact .inr (.inl h)
    · exact .inr (.inr (.inr (.inr (.inr h))))
  | csrrc d c a =>
    rcases hcsr _ d c _ _ (by rw [exec, execCsrrc]) rfl rfl rfl (hnext _ (by simp)) with h | h | h
    · exact .inl h
    · exact .inr (.inl h)
    · exact .inr (.inr (.inr (.inr (.inr h))))
  | csrrwi d c a =>
    rcases hcsr _ d c _ _ (by rw [exec, execCsrrwi]) rfl rfl rfl (hnext _ (by simp)) with h | h | h
    · exact .inl h
    · exact .inr (.inl h)
    · exact .inr (.inr (.inr (.inr (.inr h))))
  | csrrsi d c a =>
    rcases hcsr _ d c _ _ (by rw [exec, execCsrrsi]) rfl rfl rfl (hnext _ (by simp)) with h | h | h
    · exact .inl h
    · exact .inr (.inl h)
    · exact .inr (.inr (.inr (.inr (.inr h))))
  | csrrci d c a =>
    rcases hcsr _ d c _ _ (by rw [exec, execCsrrci]) rfl rfl rfl (hnext _ (by simp)) with h | h | h
    · exact .inl h
    · exact .inr (.inl h)
    · exact .inr (.inr (.inr (.inr (.inr h))))
  | auipc d m =>
    exact .inr (.inl (hset d _ (s.pc + 4#32) (by rw [exec, execAuipc, setRegister, retire, writeReg_pc])
      rfl rfl (hnext _ (by simp)) rfl))
  | lui d m =>
    exact .inr (.inl (hset d _ (s.pc + 4#32) (by rw [exec, execLui, setRegister, retire, writeReg_pc])
      rfl rfl (hnext _ (by simp)) rfl))
  | slt d a b =>
    exact .inr (.inl (hset d _ (s.pc + 4#32) (by rw [exec, execSlt, setRegister, retire, writeReg_pc])
      rfl rfl (hnext _ (by simp)) rfl))
  | sltu d a b =>
    exact .inr (.inl (hset d _ (s.pc + 4#32) (by rw [exec, execSltu, setRegister, retire, writeReg_pc])
      rfl rfl (hnext _ (by simp)) rfl))
  | slti d a b =>
    exact .inr (.inl (hset d _ (s.pc + 4#32) (by rw [exec, execSlti, setRegister, retire, writeReg_pc])
      rfl rfl (hnext _ (by simp)) rfl))
  | sltiu d a b =>
    exact .inr (.inl (hset d _ (s.pc + 4#32) (by rw [exec, execSltiu, setRegister, retire, writeReg_pc])
      rfl rfl (hnext _ (by simp)) rfl))
  | add d a b =>
    exact .inr (.inl (hset d _ (s.pc + 4#32) (by rw [exec, execAdd, setRegister, retire, writeReg_pc])
      rfl rfl (hnext _ (by simp)) rfl))
  | sub d a b =>
    exact .inr (.inl (hset d _ (s.pc + 4#32) (by rw [exec, execSub, setRegister, retire, writeReg_pc])
      rfl rfl (hnext _ (by simp)) rfl))
  | addi d a b =>
    exact .inr (.inl (hset d _ (s.pc + 4#32) (by rw [exec, execAddi, setRegister, retire, writeReg_pc])
      rfl rfl (hnext _ (by simp)) rfl))
  | xor d a b =>
    exact .inr (.inl (hset d _ (s.pc + 4#32) (by rw [exec, execXor, setRegister, retire, writeReg_pc])
      rfl rfl (hnext _ (by simp)) rfl))
  | or d a b =>
    exact .inr (.inl (hset d _ (s.pc + 4#32) (by rw [exec, execOr, setRegister, retire, writeReg_pc])
      rfl rfl (hnext _ (by simp)) rfl))
  | and d a b =>
    exact .inr (.inl (hset d _ (s.pc + 4#32) (by rw [exec, execAnd, setRegister, retire, writeReg_pc])
      rfl rfl (hnext _ (by simp)) rfl))
  | ori d a b =>
    exact .inr (.inl (hset d _ (s.pc + 4#32) (by rw [exec, execOri, setRegister, retire, writeReg_pc])
      rfl rfl (hnext _ (by simp)) rfl))
  | xori d a b =>
    exact .inr (.inl (hset d _ (s.pc + 4#32) (by rw [exec, execXori, setRegister, retire, writeReg_pc])
      rfl rfl (hnext _ (by simp)) rfl))
  | andi d a b =>
    exact .inr (.inl (hset d _ (s.pc + 4#32) (by rw [exec, execAndi, setRegister, retire, writeReg_pc])
      rfl rfl (hnext _ (by simp)) rfl))
  | srai d a b =>
    exact .inr (.inl (hset d _ (s.pc + 4#32) (by rw [exec, execSrai, setRegister, retire, writeReg_pc])
      rfl rfl (hnext _ (by simp)) rfl))
  | slli d a b =>
    exact .inr (.inl (hset d _ (s.pc + 4#32) (by rw [exec, execSlli, setRegister, retire, writeReg_pc])
      rfl rfl (hnext _ (by simp)) rfl))
  | sra d a b =>
    exact .inr (.inl (hset d _ (s.pc + 4#32) (by rw [exec, execSra, setRegister, retire, writeReg_pc])
      rfl rfl (hnext _ (by simp)) rfl))
  | srl d a b =>
    exact .inr (.inl (hset d _ (s.pc + 4#32) (by rw [exec, execSrl, setRegister, retire, writeReg_pc])
      rfl rfl (hnext _ (by simp)) rfl))
  | sll d a b =>
    exact .inr (.inl (hset d _ (s.pc + 4#32) (by rw [exec, execSll, setRegister, retire, writeReg_pc])
      rfl rfl (hnext _ (by simp)) rfl))
  | srli d a b =>
    exact .inr (.inl (hset d _ (s.pc + 4#32) (by rw [exec, execSrli, setRegister, retire, writeReg_pc])
      rfl rfl (hnext _ (by simp)) rfl))

/-- An update of the state that commutes with every operation, and that no instruction looks at,
commutes with execution. -/
theorem exec_commutes {f : State → State} {i : Instr} {s : State}
    (hread : ∀ r, readReg (f s) r = readReg s r) (hpc : (f s).pc = s.pc) (hpriv : (f s).priv = s.priv)
    (hmap : (f s).memMap = s.memMap) (hmem : ∀ a, memByte (f s) a = memByte s a)
    (htrap : ∀ e, takeTrap e (f s) = f (takeTrap e s))
    (hretire : ∀ t s, retireTo t (f s) = f (retireTo t s))
    (hwrite : ∀ r v s, writeReg r v (f s) = f (writeReg r v s))
    (hflush : ∀ m a d, i = .fencei m a d → flushFetchView (f s) = f (flushFetchView s))
    (hstore : isStore i = true → ∀ a b s, storeByte a b (f s) = f (storeByte a b s))
    (hcsr : ∀ w rd a d g, csrAccess i = some (a, d) →
      csrInstr w rd a d g (f s) = mapNext f (csrInstr w rd a d g s)) :
    exec i (f s) = mapNext f (exec i s) := by
  have hset : ∀ rd v, setRegister rd v (f s) = mapNext f (setRegister rd v s) := by
    intro rd v
    simp only [setRegister, retire, hwrite, mapNext, writeReg_pc]
    rw [← hwrite, writeReg_pc, hpc, hwrite, hretire]
  have hjump : ∀ rd t, jumpAndLink rd t (f s) = mapNext f (jumpAndLink rd t s) := by
    intro rd t; simp only [jumpAndLink, hwrite, hpc, hretire, mapNext]
  have hbranch : ∀ c o, branchIf c o (f s) = mapNext f (branchIf c o s) := by
    intro c o; simp only [branchIf, hpc, hretire, mapNext]
  have hbytes : isStore i = true → ∀ bs a s, storeBytes a bs (f s) = f (storeBytes a bs s) := by
    intro hs bs
    induction bs with
    | nil => intro a s; rfl
    | cons b rest ih => intro a s; rw [storeBytes, hstore hs, ih]; rfl
  have hst : isStore i = true → ∀ n v ea, store n v ea (f s) = mapNext f (store n v ea s) := by
    intro hs n v ea
    have : storeException n ea (f s) = storeException n ea s := by simp only [storeException, hmap]
    unfold store
    rw [this]
    cases storeException n ea s with
    | some e => simp only [raise, htrap, mapNext]
    | none =>
      simp only [mapNext, retire]
      rw [storeBytes_pc, hpc, hbytes hs, hretire, storeBytes_pc]
  have hld : ∀ n (g : State → Word → Word) rd ea, g (f s) ea = g s ea →
      load n g rd ea (f s) = mapNext f (load n g rd ea s) := by
    intro n g rd ea hg
    have : loadException n ea (f s) = loadException n ea s := by simp only [loadException, hmap]
    unfold load
    rw [this]
    cases loadException n ea s with
    | some e => simp only [raise, htrap, mapNext]
    | none =>
      have := hset rd (g s ea)
      simp only [setRegister] at this
      simp only [hg, this]
  cases i
  case ecall =>
    simp only [exec, execEcall, hpriv]
    cases s.priv <;> simp only [raise, htrap, mapNext]
  case ebreak => simp only [exec, execEbreak, raise, htrap, mapNext]
  case fence => simp only [exec, execFence, retire, hpc, hretire, mapNext]
  case fencei =>
    simp only [exec, execFencei, retire, mapNext]
    rw [flushFetchView_pc, hpc, hflush _ _ _ rfl, hretire, flushFetchView_pc]
  case csrrw rd csr x =>
    simp only [exec, execCsrrw, hread]; exact hcsr _ rd csr true _ (by simp only [csrAccess])
  case csrrs rd csr x =>
    simp only [exec, execCsrrs, hread]; exact hcsr _ rd csr (x != 0#5) _ (by simp only [csrAccess])
  case csrrc rd csr x =>
    simp only [exec, execCsrrc, hread]; exact hcsr _ rd csr (x != 0#5) _ (by simp only [csrAccess])
  case csrrwi rd csr x =>
    simp only [exec, execCsrrwi]; exact hcsr _ rd csr true _ (by simp only [csrAccess])
  case csrrsi rd csr x =>
    simp only [exec, execCsrrsi]; exact hcsr _ rd csr (x != 0#5) _ (by simp only [csrAccess])
  case csrrci rd csr x =>
    simp only [exec, execCsrrci]; exact hcsr _ rd csr (x != 0#5) _ (by simp only [csrAccess])
  case sw => simp only [exec, execSw, effectiveAddress, hread, hst rfl]
  case sb => simp only [exec, execSb, effectiveAddress, hread, hst rfl]
  case sh => simp only [exec, execSh, effectiveAddress, hread, hst rfl]
  case lb => simp only [exec, execLb, effectiveAddress, hread]; exact hld _ _ _ _ (by simp only [hmem])
  case lh => simp only [exec, execLh, effectiveAddress, hread]; exact hld _ _ _ _ (by simp only [memHalf, hmem])
  case lw => simp only [exec, execLw, effectiveAddress, hread]; exact hld _ _ _ _ (by simp only [memWord, hmem])
  case lbu => simp only [exec, execLbu, effectiveAddress, hread]; exact hld _ _ _ _ (by simp only [hmem])
  case lhu => simp only [exec, execLhu, effectiveAddress, hread]; exact hld _ _ _ _ (by simp only [memHalf, hmem])
  all_goals
    simp only [exec, execBne, execBeq, execBlt, execBge, execBltu, execBgeu, execAuipc, execSlt, execSltu,
      execSlti, execSltiu, execLui, execAdd, execSub, execAddi, execJal, execJalr, execXor, execOr,
      execAnd, execOri, execXori, execAndi, execSrai, execSlli, execSra, execSrl, execSll, execSrli,
      hread, hpc, hbranch, hset, hjump]

/-- A run takes one step and goes on. -/
theorem run_succ {s t : State} (h : step s = .next t) (n : Nat) :
    Host.Core.run Sys2Proof.core (n + 1) s = Host.Core.run Sys2Proof.core n t := by
  have h' : Sys2Proof.core.step s = .next t := h
  have := Host.Core.run.eq_2 Sys2Proof.core s n
  rw [h'] at this
  exact this

end Sys2Proof.Machine
end

