-- ==== Sys2Proof/Laws/PerInstr.lean ====
section
/-! SUPPORT. Statements made per instruction. `EncodeMatches`: the encoder's word of an instruction matches
a row of the table of `30_encoding.md` R163. -/

namespace Sys2Proof.Laws.EncodeMatches

/-- The word of the instruction matches a row of the table. -/
def Statement (i : Instr) : Prop := ∃ r ∈ opcodeTable, encode i &&& r.mask = r.pat

theorem bne (rs1 rs2 : RegNum) (offset : BitVec 13) : Statement (.bne rs1 rs2 offset) :=
  ⟨opcodeTable[0], List.getElem_mem _, encodeB_fixed ..⟩
theorem beq (rs1 rs2 : RegNum) (offset : BitVec 13) : Statement (.beq rs1 rs2 offset) :=
  ⟨opcodeTable[1], List.getElem_mem _, encodeB_fixed ..⟩
theorem blt (rs1 rs2 : RegNum) (offset : BitVec 13) : Statement (.blt rs1 rs2 offset) :=
  ⟨opcodeTable[2], List.getElem_mem _, encodeB_fixed ..⟩
theorem bge (rs1 rs2 : RegNum) (offset : BitVec 13) : Statement (.bge rs1 rs2 offset) :=
  ⟨opcodeTable[3], List.getElem_mem _, encodeB_fixed ..⟩
theorem bltu (rs1 rs2 : RegNum) (offset : BitVec 13) : Statement (.bltu rs1 rs2 offset) :=
  ⟨opcodeTable[4], List.getElem_mem _, encodeB_fixed ..⟩
theorem bgeu (rs1 rs2 : RegNum) (offset : BitVec 13) : Statement (.bgeu rs1 rs2 offset) :=
  ⟨opcodeTable[5], List.getElem_mem _, encodeB_fixed ..⟩
theorem auipc (rd : RegNum) (imm20 : BitVec 20) : Statement (.auipc rd imm20) :=
  ⟨opcodeTable[6], List.getElem_mem _, encodeU_fixed ..⟩
theorem slt (rd rs1 rs2 : RegNum) : Statement (.slt rd rs1 rs2) :=
  ⟨opcodeTable[7], List.getElem_mem _, encodeR_fixed ..⟩
theorem sltu (rd rs1 rs2 : RegNum) : Statement (.sltu rd rs1 rs2) :=
  ⟨opcodeTable[8], List.getElem_mem _, encodeR_fixed ..⟩
theorem slti (rd rs1 : RegNum) (imm12 : BitVec 12) : Statement (.slti rd rs1 imm12) :=
  ⟨opcodeTable[9], List.getElem_mem _, encodeI_fixed ..⟩
theorem sltiu (rd rs1 : RegNum) (imm12 : BitVec 12) : Statement (.sltiu rd rs1 imm12) :=
  ⟨opcodeTable[10], List.getElem_mem _, encodeI_fixed ..⟩
theorem lui (rd : RegNum) (imm20 : BitVec 20) : Statement (.lui rd imm20) :=
  ⟨opcodeTable[11], List.getElem_mem _, encodeU_fixed ..⟩
theorem add (rd rs1 rs2 : RegNum) : Statement (.add rd rs1 rs2) :=
  ⟨opcodeTable[12], List.getElem_mem _, encodeR_fixed ..⟩
theorem sub (rd rs1 rs2 : RegNum) : Statement (.sub rd rs1 rs2) :=
  ⟨opcodeTable[13], List.getElem_mem _, encodeR_fixed ..⟩
theorem addi (rd rs1 : RegNum) (imm12 : BitVec 12) : Statement (.addi rd rs1 imm12) :=
  ⟨opcodeTable[14], List.getElem_mem _, encodeI_fixed ..⟩
theorem jal (rd : RegNum) (offset : BitVec 21) : Statement (.jal rd offset) :=
  ⟨opcodeTable[15], List.getElem_mem _, encodeJ_fixed ..⟩
theorem jalr (rd rs1 : RegNum) (offset : BitVec 12) : Statement (.jalr rd rs1 offset) :=
  ⟨opcodeTable[16], List.getElem_mem _, encodeI_fixed ..⟩
theorem xor (rd rs1 rs2 : RegNum) : Statement (.xor rd rs1 rs2) :=
  ⟨opcodeTable[17], List.getElem_mem _, encodeR_fixed ..⟩
theorem or (rd rs1 rs2 : RegNum) : Statement (.or rd rs1 rs2) :=
  ⟨opcodeTable[18], List.getElem_mem _, encodeR_fixed ..⟩
theorem and (rd rs1 rs2 : RegNum) : Statement (.and rd rs1 rs2) :=
  ⟨opcodeTable[19], List.getElem_mem _, encodeR_fixed ..⟩
theorem ori (rd rs1 : RegNum) (imm12 : BitVec 12) : Statement (.ori rd rs1 imm12) :=
  ⟨opcodeTable[20], List.getElem_mem _, encodeI_fixed ..⟩
theorem xori (rd rs1 : RegNum) (imm12 : BitVec 12) : Statement (.xori rd rs1 imm12) :=
  ⟨opcodeTable[21], List.getElem_mem _, encodeI_fixed ..⟩
theorem andi (rd rs1 : RegNum) (imm12 : BitVec 12) : Statement (.andi rd rs1 imm12) :=
  ⟨opcodeTable[22], List.getElem_mem _, encodeI_fixed ..⟩
theorem sw (rs2 : RegNum) (offset : BitVec 12) (rs1 : RegNum) : Statement (.sw rs2 offset rs1) :=
  ⟨opcodeTable[23], List.getElem_mem _, encodeS_fixed ..⟩
theorem lb (rd : RegNum) (offset : BitVec 12) (rs1 : RegNum) : Statement (.lb rd offset rs1) :=
  ⟨opcodeTable[24], List.getElem_mem _, encodeI_fixed ..⟩
theorem lh (rd : RegNum) (offset : BitVec 12) (rs1 : RegNum) : Statement (.lh rd offset rs1) :=
  ⟨opcodeTable[25], List.getElem_mem _, encodeI_fixed ..⟩
theorem lw (rd : RegNum) (offset : BitVec 12) (rs1 : RegNum) : Statement (.lw rd offset rs1) :=
  ⟨opcodeTable[26], List.getElem_mem _, encodeI_fixed ..⟩
theorem lbu (rd : RegNum) (offset : BitVec 12) (rs1 : RegNum) : Statement (.lbu rd offset rs1) :=
  ⟨opcodeTable[27], List.getElem_mem _, encodeI_fixed ..⟩
theorem lhu (rd : RegNum) (offset : BitVec 12) (rs1 : RegNum) : Statement (.lhu rd offset rs1) :=
  ⟨opcodeTable[28], List.getElem_mem _, encodeI_fixed ..⟩
theorem sb (rs2 : RegNum) (offset : BitVec 12) (rs1 : RegNum) : Statement (.sb rs2 offset rs1) :=
  ⟨opcodeTable[29], List.getElem_mem _, encodeS_fixed ..⟩
theorem sh (rs2 : RegNum) (offset : BitVec 12) (rs1 : RegNum) : Statement (.sh rs2 offset rs1) :=
  ⟨opcodeTable[30], List.getElem_mem _, encodeS_fixed ..⟩
theorem srai (rd rs1 : RegNum) (shamt5 : BitVec 5) : Statement (.srai rd rs1 shamt5) :=
  ⟨opcodeTable[31], List.getElem_mem _, encodeR_fixed ..⟩
theorem slli (rd rs1 : RegNum) (shamt5 : BitVec 5) : Statement (.slli rd rs1 shamt5) :=
  ⟨opcodeTable[32], List.getElem_mem _, encodeR_fixed ..⟩
theorem sra (rd rs1 rs2 : RegNum) : Statement (.sra rd rs1 rs2) :=
  ⟨opcodeTable[33], List.getElem_mem _, encodeR_fixed ..⟩
theorem srl (rd rs1 rs2 : RegNum) : Statement (.srl rd rs1 rs2) :=
  ⟨opcodeTable[34], List.getElem_mem _, encodeR_fixed ..⟩
theorem sll (rd rs1 rs2 : RegNum) : Statement (.sll rd rs1 rs2) :=
  ⟨opcodeTable[35], List.getElem_mem _, encodeR_fixed ..⟩
theorem srli (rd rs1 : RegNum) (shamt5 : BitVec 5) : Statement (.srli rd rs1 shamt5) :=
  ⟨opcodeTable[36], List.getElem_mem _, encodeR_fixed ..⟩
theorem fencei (imm12 : BitVec 12) (rs1 rd : RegNum) : Statement (.fencei imm12 rs1 rd) :=
  ⟨opcodeTable[37], List.getElem_mem _, encodeI_fixed ..⟩
theorem fence (fm pred succ : BitVec 4) (rs1 rd : RegNum) : Statement (.fence fm pred succ rs1 rd) :=
  ⟨opcodeTable[38], List.getElem_mem _, encodeI_fixed ..⟩
theorem csrrci (rd : RegNum) (csr : CsrAddr) (uimm5 : BitVec 5) : Statement (.csrrci rd csr uimm5) :=
  ⟨opcodeTable[39], List.getElem_mem _, encodeI_fixed ..⟩
theorem ecall : Statement .ecall :=
  ⟨opcodeTable[40], List.getElem_mem _, rfl⟩
theorem ebreak : Statement .ebreak :=
  ⟨opcodeTable[41], List.getElem_mem _, rfl⟩
theorem csrrw (rd : RegNum) (csr : CsrAddr) (rs1 : RegNum) : Statement (.csrrw rd csr rs1) :=
  ⟨opcodeTable[42], List.getElem_mem _, encodeI_fixed ..⟩
theorem csrrs (rd : RegNum) (csr : CsrAddr) (rs1 : RegNum) : Statement (.csrrs rd csr rs1) :=
  ⟨opcodeTable[43], List.getElem_mem _, encodeI_fixed ..⟩
theorem csrrc (rd : RegNum) (csr : CsrAddr) (rs1 : RegNum) : Statement (.csrrc rd csr rs1) :=
  ⟨opcodeTable[44], List.getElem_mem _, encodeI_fixed ..⟩
theorem csrrwi (rd : RegNum) (csr : CsrAddr) (uimm5 : BitVec 5) : Statement (.csrrwi rd csr uimm5) :=
  ⟨opcodeTable[45], List.getElem_mem _, encodeI_fixed ..⟩
theorem csrrsi (rd : RegNum) (csr : CsrAddr) (uimm5 : BitVec 5) : Statement (.csrrsi rd csr uimm5) :=
  ⟨opcodeTable[46], List.getElem_mem _, encodeI_fixed ..⟩

end Sys2Proof.Laws.EncodeMatches
end

