-- ==== Sys2Proof/Machine/Abi.lean ====
section
/-! DEFINITION. The ABI names of the general registers and the two calling-convention tables
(`10_state.md` R23, R28), as printed. They bind software, not the machine: no step reads them (R29; log entry 15). -/

namespace Sys2Proof.Machine

/-- One register's rows in the tables of R23 and R28. -/
structure AbiRow where
  /-- The ABI name, which the assembler accepts in place of the `x` name (R23). -/
  name : String
  /-- The Callee-Saved column of R23; `none` is the dash of `x0`. -/
  calleeSaved : Option Bool
  /-- The Caller-Saved column of R28. -/
  callerSaved : Bool
  /-- The Argument column of R28. -/
  argument : Bool
  deriving DecidableEq, Repr

/-- A row that is callee-saved. -/
def abiSaved (name : String) : AbiRow := ⟨name, some true, false, false⟩

/-- A temporary: caller-saved, no argument. -/
def abiTemporary (name : String) : AbiRow := ⟨name, some false, true, false⟩

/-- An argument register. -/
def abiArgument (name : String) : AbiRow := ⟨name, some false, true, true⟩

/-- The rows of `x0` to `x15`; `x1` is "No" in both saved columns (R28). -/
def abiLow : List AbiRow := [
  ⟨"zero", none, false, false⟩, ⟨"ra", some false, false, false⟩, abiSaved "sp", abiSaved "gp",
  abiSaved "tp", abiTemporary "t0", abiTemporary "t1", abiTemporary "t2",
  abiSaved "s0", abiSaved "s1", abiArgument "a0", abiArgument "a1",
  abiArgument "a2", abiArgument "a3", abiArgument "a4", abiArgument "a5"]

/-- The rows of `x16` to `x31`. -/
def abiHigh : List AbiRow := [
  abiArgument "a6", abiArgument "a7", abiSaved "s2", abiSaved "s3",
  abiSaved "s4", abiSaved "s5", abiSaved "s6", abiSaved "s7",
  abiSaved "s8", abiSaved "s9", abiSaved "s10", abiSaved "s11",
  abiTemporary "t3", abiTemporary "t4", abiTemporary "t5", abiTemporary "t6"]

/-- The 32 rows, `x0` first. -/
def abiTable : List AbiRow := abiLow ++ abiHigh

/-- The register that an ABI name stands for (R23). -/
def abiRegister (name : String) : Option RegNum :=
  match abiTable.findIdx? (fun row => row.name == name) with
  | some k => some (BitVec.ofNat 5 k)
  | none => none

end Sys2Proof.Machine
end

