-- ==== Sys2Proof/Tests/Slice0.lean ====
section
/-! SUPPORT. Tests: terms that the well-formedness check refuses; the word of every instruction, written
out from the format tables of `30_encoding.md` (R141 to R156) with the operands of the spec's examples;
one-step tests whose expected values are the examples of R200 to R308; and states that meet the hypotheses
of the obligations. -/

open Sys2Proof Sys2Proof.Machine

namespace Sys2Proof.Tests

/-! ### States for tests -/

/-- The reset state at `pc` with some registers written. -/
def start (pc : Word) (regs : List (RegNum × Word)) : State :=
  regs.foldl (fun s p => writeReg p.1 p.2 s) (State.resetWith pc resetMemMap)

/-- The state after the step that runs the word `w`; the reset state if the step stopped. -/
def ran (w : Nat) (s : State) : State :=
  match step (s.withFetchWord 32 w) with
  | .next t => t
  | _ => State.reset

/-- A state with some CSRs written. -/
def withCsrs (csrs : List (Csr × Word)) (s : State) : State :=
  csrs.foldl (fun s p => putCsr p.1 p.2 s) s

/-- The memory of the examples of R260 to R267: the word 0x80FF7F01 at 0x1000. -/
def withData (s : State) : State := storeBytes 0x1000#32 (bytesOfWord 0x80FF7F01#32) s

/-- The state with a memory map that answers only below 0x2000. -/
def lowMap (s : State) : State := { s with memMap := [⟨0, 0x2000, true, true, true⟩] }

/-! ### Terms that the well-formedness check refuses (R150, R152) -/
theorem test_wellFormed_refuses_bne : (Instr.bne 1 2 1).wellFormed = false := by decide
theorem test_wellFormed_refuses_beq : (Instr.beq 1 2 (-1)).wellFormed = false := by decide
theorem test_wellFormed_refuses_blt : (Instr.blt 1 2 3).wellFormed = false := by decide
theorem test_wellFormed_refuses_bge : (Instr.bge 1 2 4095).wellFormed = false := by decide
theorem test_wellFormed_refuses_bltu : (Instr.bltu 1 2 (-4095)).wellFormed = false := by decide
theorem test_wellFormed_refuses_bgeu : (Instr.bgeu 1 2 5).wellFormed = false := by decide
theorem test_wellFormed_refuses_jal : (Instr.jal 1 1048575).wellFormed = false := by decide


/-! ### The word of every instruction, field by field (R141 to R156) -/

/-- 0xFE629CE3. -/
theorem test_decode_bne : decode (0b1#1 ++ 0b111111#6 ++ 0b00110#5 ++ 0b00101#5 ++ 0b001#3 ++ 0b1100#4 ++ 0b1#1 ++ 0b1100011#7) =
    .ok (.bne 5 6 (-8)) := rfl

/-- 0x00B50863. -/
theorem test_decode_beq : decode (0b0#1 ++ 0b000000#6 ++ 0b01011#5 ++ 0b01010#5 ++ 0b000#3 ++ 0b1000#4 ++ 0b0#1 ++ 0b1100011#7) =
    .ok (.beq 10 11 16) := rfl

/-- 0x0062C663. -/
theorem test_decode_blt : decode (0b0#1 ++ 0b000000#6 ++ 0b00110#5 ++ 0b00101#5 ++ 0b100#3 ++ 0b0110#4 ++ 0b0#1 ++ 0b1100011#7) =
    .ok (.blt 5 6 12) := rfl

/-- 0x8062D063. -/
theorem test_decode_bge : decode (0b1#1 ++ 0b000000#6 ++ 0b00110#5 ++ 0b00101#5 ++ 0b101#3 ++ 0b0000#4 ++ 0b0#1 ++ 0b1100011#7) =
    .ok (.bge 5 6 (-4096)) := rfl

/-- 0x7E62EFE3. -/
theorem test_decode_bltu : decode (0b0#1 ++ 0b111111#6 ++ 0b00110#5 ++ 0b00101#5 ++ 0b110#3 ++ 0b1111#4 ++ 0b1#1 ++ 0b1100011#7) =
    .ok (.bltu 5 6 4094) := rfl

/-- 0x00057463. -/
theorem test_decode_bgeu : decode (0b0#1 ++ 0b000000#6 ++ 0b00000#5 ++ 0b01010#5 ++ 0b111#3 ++ 0b0100#4 ++ 0b0#1 ++ 0b1100011#7) =
    .ok (.bgeu 10 0 8) := rfl

/-- 0x12345297. -/
theorem test_decode_auipc : decode (0b00010010001101000101#20 ++ 0b00101#5 ++ 0b0010111#7) =
    .ok (.auipc 5 0x12345) := rfl

/-- 0x007322B3. -/
theorem test_decode_slt : decode (0b0000000#7 ++ 0b00111#5 ++ 0b00110#5 ++ 0b010#3 ++ 0b00101#5 ++ 0b0110011#7) =
    .ok (.slt 5 6 7) := rfl

/-- 0x007032B3. -/
theorem test_decode_sltu : decode (0b0000000#7 ++ 0b00111#5 ++ 0b00000#5 ++ 0b011#3 ++ 0b00101#5 ++ 0b0110011#7) =
    .ok (.sltu 5 0 7) := rfl

/-- 0xFFF32293. -/
theorem test_decode_slti : decode (0b111111111111#12 ++ 0b00110#5 ++ 0b010#3 ++ 0b00101#5 ++ 0b0010011#7) =
    .ok (.slti 5 6 (-1)) := rfl

/-- 0x00133293. -/
theorem test_decode_sltiu : decode (0b000000000001#12 ++ 0b00110#5 ++ 0b011#3 ++ 0b00101#5 ++ 0b0010011#7) =
    .ok (.sltiu 5 6 1) := rfl

/-- 0x123452B7. -/
theorem test_decode_lui : decode (0b00010010001101000101#20 ++ 0b00101#5 ++ 0b0110111#7) =
    .ok (.lui 5 0x12345) := rfl

/-- 0x007302B3. -/
theorem test_decode_add : decode (0b0000000#7 ++ 0b00111#5 ++ 0b00110#5 ++ 0b000#3 ++ 0b00101#5 ++ 0b0110011#7) =
    .ok (.add 5 6 7) := rfl

/-- 0x407302B3. -/
theorem test_decode_sub : decode (0b0100000#7 ++ 0b00111#5 ++ 0b00110#5 ++ 0b000#3 ++ 0b00101#5 ++ 0b0110011#7) =
    .ok (.sub 5 6 7) := rfl

/-- 0xFFF30293. -/
theorem test_decode_addi : decode (0b111111111111#12 ++ 0b00110#5 ++ 0b000#3 ++ 0b00101#5 ++ 0b0010011#7) =
    .ok (.addi 5 6 (-1)) := rfl

/-- 0x001000EF. -/
theorem test_decode_jal : decode (0b0#1 ++ 0b0000000000#10 ++ 0b1#1 ++ 0b00000000#8 ++ 0b00001#5 ++ 0b1101111#7) =
    .ok (.jal 1 2048) := rfl

/-- 0xFFC280E7. -/
theorem test_decode_jalr : decode (0b111111111100#12 ++ 0b00101#5 ++ 0b000#3 ++ 0b00001#5 ++ 0b1100111#7) =
    .ok (.jalr 1 5 (-4)) := rfl

/-- 0x007342B3. -/
theorem test_decode_xor : decode (0b0000000#7 ++ 0b00111#5 ++ 0b00110#5 ++ 0b100#3 ++ 0b00101#5 ++ 0b0110011#7) =
    .ok (.xor 5 6 7) := rfl

/-- 0x007362B3. -/
theorem test_decode_or : decode (0b0000000#7 ++ 0b00111#5 ++ 0b00110#5 ++ 0b110#3 ++ 0b00101#5 ++ 0b0110011#7) =
    .ok (.or 5 6 7) := rfl

/-- 0x007372B3. -/
theorem test_decode_and : decode (0b0000000#7 ++ 0b00111#5 ++ 0b00110#5 ++ 0b111#3 ++ 0b00101#5 ++ 0b0110011#7) =
    .ok (.and 5 6 7) := rfl

/-- 0x0F036293. -/
theorem test_decode_ori : decode (0b000011110000#12 ++ 0b00110#5 ++ 0b110#3 ++ 0b00101#5 ++ 0b0010011#7) =
    .ok (.ori 5 6 0x0F0) := rfl

/-- 0xFFF34293. -/
theorem test_decode_xori : decode (0b111111111111#12 ++ 0b00110#5 ++ 0b100#3 ++ 0b00101#5 ++ 0b0010011#7) =
    .ok (.xori 5 6 (-1)) := rfl

/-- 0xF0037293. -/
theorem test_decode_andi : decode (0b111100000000#12 ++ 0b00110#5 ++ 0b111#3 ++ 0b00101#5 ++ 0b0010011#7) =
    .ok (.andi 5 6 (-256)) := rfl

/-- 0xFE62AE23. -/
theorem test_decode_sw : decode (0b1111111#7 ++ 0b00110#5 ++ 0b00101#5 ++ 0b010#3 ++ 0b11100#5 ++ 0b0100011#7) =
    .ok (.sw 6 (-4) 5) := rfl

/-- 0xFFF30283. -/
theorem test_decode_lb : decode (0b111111111111#12 ++ 0b00110#5 ++ 0b000#3 ++ 0b00101#5 ++ 0b0000011#7) =
    .ok (.lb 5 (-1) 6) := rfl

/-- 0x00231283. -/
theorem test_decode_lh : decode (0b000000000010#12 ++ 0b00110#5 ++ 0b001#3 ++ 0b00101#5 ++ 0b0000011#7) =
    .ok (.lh 5 2 6) := rfl

/-- 0x00832283. -/
theorem test_decode_lw : decode (0b000000001000#12 ++ 0b00110#5 ++ 0b010#3 ++ 0b00101#5 ++ 0b0000011#7) =
    .ok (.lw 5 8 6) := rfl

/-- 0x00334283. -/
theorem test_decode_lbu : decode (0b000000000011#12 ++ 0b00110#5 ++ 0b100#3 ++ 0b00101#5 ++ 0b0000011#7) =
    .ok (.lbu 5 3 6) := rfl

/-- 0xFFE35283. -/
theorem test_decode_lhu : decode (0b111111111110#12 ++ 0b00110#5 ++ 0b101#3 ++ 0b00101#5 ++ 0b0000011#7) =
    .ok (.lhu 5 (-2) 6) := rfl

/-- 0x006281A3. -/
theorem test_decode_sb : decode (0b0000000#7 ++ 0b00110#5 ++ 0b00101#5 ++ 0b000#3 ++ 0b00011#5 ++ 0b0100011#7) =
    .ok (.sb 6 3 5) := rfl

/-- 0x7E629FA3. -/
theorem test_decode_sh : decode (0b0111111#7 ++ 0b00110#5 ++ 0b00101#5 ++ 0b001#3 ++ 0b11111#5 ++ 0b0100011#7) =
    .ok (.sh 6 2047 5) := rfl

/-- 0x41F35293. -/
theorem test_decode_srai : decode (0b0100000#7 ++ 0b11111#5 ++ 0b00110#5 ++ 0b101#3 ++ 0b00101#5 ++ 0b0010011#7) =
    .ok (.srai 5 6 31) := rfl

/-- 0x00431293. -/
theorem test_decode_slli : decode (0b0000000#7 ++ 0b00100#5 ++ 0b00110#5 ++ 0b001#3 ++ 0b00101#5 ++ 0b0010011#7) =
    .ok (.slli 5 6 4) := rfl

/-- 0x407352B3. -/
theorem test_decode_sra : decode (0b0100000#7 ++ 0b00111#5 ++ 0b00110#5 ++ 0b101#3 ++ 0b00101#5 ++ 0b0110011#7) =
    .ok (.sra 5 6 7) := rfl

/-- 0x007352B3. -/
theorem test_decode_srl : decode (0b0000000#7 ++ 0b00111#5 ++ 0b00110#5 ++ 0b101#3 ++ 0b00101#5 ++ 0b0110011#7) =
    .ok (.srl 5 6 7) := rfl

/-- 0x007312B3. -/
theorem test_decode_sll : decode (0b0000000#7 ++ 0b00111#5 ++ 0b00110#5 ++ 0b001#3 ++ 0b00101#5 ++ 0b0110011#7) =
    .ok (.sll 5 6 7) := rfl

/-- 0x01F35293. -/
theorem test_decode_srli : decode (0b0000000#7 ++ 0b11111#5 ++ 0b00110#5 ++ 0b101#3 ++ 0b00101#5 ++ 0b0010011#7) =
    .ok (.srli 5 6 31) := rfl

/-- 0x0000100F. -/
theorem test_decode_fencei : decode (0b000000000000#12 ++ 0b00000#5 ++ 0b001#3 ++ 0b00000#5 ++ 0b0001111#7) =
    .ok (.fencei 0 0 0) := rfl

/-- 0x0120000F. -/
theorem test_decode_fence : decode (0b000000010010#12 ++ 0b00000#5 ++ 0b000#3 ++ 0b00000#5 ++ 0b0001111#7) =
    .ok (.fence 0 0b0001 0b0010 0 0) := rfl

/-- 0x30047073. -/
theorem test_decode_csrrci : decode (0b001100000000#12 ++ 0b01000#5 ++ 0b111#3 ++ 0b00000#5 ++ 0b1110011#7) =
    .ok (.csrrci 0 0x300 8) := rfl

/-- 0x00000073. -/
theorem test_decode_ecall : decode (0b000000000000#12 ++ 0b00000#5 ++ 0b000#3 ++ 0b00000#5 ++ 0b1110011#7) =
    .ok .ecall := rfl

/-- 0x00100073. -/
theorem test_decode_ebreak : decode (0b000000000001#12 ++ 0b00000#5 ++ 0b000#3 ++ 0b00000#5 ++ 0b1110011#7) =
    .ok .ebreak := rfl

/-- 0x340292F3. -/
theorem test_decode_csrrw : decode (0b001101000000#12 ++ 0b00101#5 ++ 0b001#3 ++ 0b00101#5 ++ 0b1110011#7) =
    .ok (.csrrw 5 0x340 5) := rfl

/-- 0x341022F3. -/
theorem test_decode_csrrs : decode (0b001101000001#12 ++ 0b00000#5 ++ 0b010#3 ++ 0b00101#5 ++ 0b1110011#7) =
    .ok (.csrrs 5 0x341 0) := rfl

/-- 0x300332F3. -/
theorem test_decode_csrrc : decode (0b001100000000#12 ++ 0b00110#5 ++ 0b011#3 ++ 0b00101#5 ++ 0b1110011#7) =
    .ok (.csrrc 5 0x300 6) := rfl

/-- 0x340FD2F3. -/
theorem test_decode_csrrwi : decode (0b001101000000#12 ++ 0b11111#5 ++ 0b101#3 ++ 0b00101#5 ++ 0b1110011#7) =
    .ok (.csrrwi 5 0x340 31) := rfl

/-- 0xC02062F3. -/
theorem test_decode_csrrsi : decode (0b110000000010#12 ++ 0b00000#5 ++ 0b110#3 ++ 0b00101#5 ++ 0b1110011#7) =
    .ok (.csrrsi 5 0xC02 0) := rfl


/-- The bits of the opcode table's row for FENCEI, and no bit for the word that matches no row. -/
theorem test_decodeTableWord : decodeTableWord 32 0x0000100F = some (.fencei 0 0 0) ∧
    decodeTableWord 32 0x00000000 = none := ⟨rfl, rfl⟩

/-- Fewer than four bytes decode to nothing. -/
theorem test_decodeBytes_truncated : decodeBytes [0x13#8, 0x00#8, 0x00#8] = .error .truncated := rfl


/-! ### One step (the examples of R200 to R308) -/
theorem test_bne_taken : (ran 0xFE629CE3 (start 0x108 [(5, 1), (6, 0)])).pc = 0x100#32 := by decide
theorem test_bne_not_taken : (ran 0xFE629CE3 (start 0x108 [(5, 1), (6, 1)])).pc = 0x10C#32 := by decide
theorem test_beq_taken : (ran 0x00B50863 (start 0x200 [(10, 7), (11, 7)])).pc = 0x210#32 := by decide
theorem test_beq_not_taken : (ran 0x00B50863 (start 0x200 [(10, 7), (11, 8)])).pc = 0x204#32 := by decide
theorem test_blt_signed :
    (ran 0x0062C663 (start 0x300 [(5, 0xFFFFFFFF), (6, 1)])).pc =
      0x30C#32 := by decide
theorem test_blt_not_taken :
    (ran 0x0062C663 (start 0x300 [(5, 0x7FFFFFFF), (6, 0x80000000)])).pc =
      0x304#32 := by decide
theorem test_bge_backward :
    (ran 0x8062D063 (start 0x2000 [(5, 0), (6, 0xFFFFFFFF)])).pc =
      0x1000#32 := by decide
theorem test_bge_not_taken :
    (ran 0x8062D063 (start 0x2000 [(5, 0xFFFFFFFF), (6, 1)])).pc =
      0x2004#32 := by decide
theorem test_bltu_forward :
    (ran 0x7E62EFE3 (start 0x0 [(5, 1), (6, 0xFFFFFFFF)])).pc =
      0xFFE#32 := by decide
theorem test_bltu_not_taken :
    (ran 0x7E62EFE3 (start 0x0 [(5, 0xFFFFFFFF), (6, 1)])).pc =
      0x4#32 := by decide
theorem test_bgeu_taken : (ran 0x00057463 (start 0x400 [(10, 0)])).pc = 0x408#32 := by decide
theorem test_bgeu_not_taken :
    (ran 0x0062F463 (start 0x400 [(5, 1), (6, 0xFFFFFFFF)])).pc =
      0x404#32 := by decide
theorem test_auipc : readReg (ran 0x12345297 (start 0x1000 [])) 5 = 0x12346000#32 := by decide
theorem test_auipc_wraps : readReg (ran 0xFFFFF517 (start 0x1000 [])) 10 = 0x00000000#32 := by decide
theorem test_slt : readReg (ran 0x007322B3 (start 0 [(6, 0xFFFFFFFF), (7, 1)])) 5 = 1#32 := by decide
theorem test_slt_false :
    readReg (ran 0x007322B3 (start 0 [(5, 9), (6, 1), (7, 0xFFFFFFFF)])) 5 =
      0#32 := by decide
theorem test_sltu : readReg (ran 0x007032B3 (start 0 [(7, 0x80000000)])) 5 = 1#32 := by decide
theorem test_sltu_zero : readReg (ran 0x007032B3 (start 0 [(5, 9), (7, 0)])) 5 = 0#32 := by decide
theorem test_slti : readReg (ran 0xFFF32293 (start 0 [(6, 0xFFFFFFFE)])) 5 = 1#32 := by decide
theorem test_slti_false : readReg (ran 0xFFF32293 (start 0 [(5, 9), (6, 0)])) 5 = 0#32 := by decide
theorem test_sltiu : readReg (ran 0xFFF33293 (start 0 [(6, 0x80000000)])) 5 = 1#32 := by decide
theorem test_sltiu_false : readReg (ran 0x00133293 (start 0 [(5, 9), (6, 5)])) 5 = 0#32 := by decide
theorem test_lui : readReg (ran 0x800003B7 (start 0 [(7, 0xFFFFFFFF)])) 7 = 0x80000000#32 := by decide
theorem test_add_wraps : readReg (ran 0x007302B3 (start 0 [(6, 0xFFFFFFFF), (7, 2)])) 5 = 1#32 := by decide
theorem test_sub_wraps : readReg (ran 0x407302B3 (start 0 [(6, 3), (7, 5)])) 5 = 0xFFFFFFFE#32 := by decide
theorem test_addi : readReg (ran 0xFFF30293 (start 0 [(6, 0)])) 5 = 0xFFFFFFFF#32 := by decide
theorem test_addi_same_register :
    readReg (ran 0xFF010113 (start 0 [(2, 0x00010000)])) 2 =
      0x0000FFF0#32 := by decide
theorem test_jal_link : readReg (ran 0x001000EF (start 0x1000 [])) 1 = 0x1004#32 := by decide
theorem test_jal_target : (ran 0x001000EF (start 0x1000 [])).pc = 0x1800#32 := by decide
theorem test_jalr_clears_bit_zero :
    (ran 0xFFC280E7 (start 0x2000 [(5, 0x3005)])).pc =
      0x3000#32 := by decide
theorem test_jalr_link_in_source :
    readReg (ran 0x000282E7 (start 0x2000 [(5, 0x4000)])) 5 =
      0x2004#32 := by decide
theorem test_xor :
    readReg (ran 0x007342B3 (start 0 [(6, 0xFF00FF00), (7, 0x0FF00FF0)])) 5 =
      0xF0F0F0F0#32 := by decide
theorem test_or :
    readReg (ran 0x007362B3 (start 0 [(6, 0xFF00FF00), (7, 0x0FF00FF0)])) 5 =
      0xFFF0FFF0#32 := by decide
theorem test_and :
    readReg (ran 0x007372B3 (start 0 [(6, 0xFF00FF00), (7, 0x0FF00FF0)])) 5 =
      0x0F000F00#32 := by decide
theorem test_ori : readReg (ran 0x0F036293 (start 0 [(6, 0x12345608)])) 5 = 0x123456F8#32 := by decide
theorem test_xori : readReg (ran 0xFFF34293 (start 0 [(6, 0x0000FFFF)])) 5 = 0xFFFF0000#32 := by decide
theorem test_andi : readReg (ran 0xF0037293 (start 0 [(6, 0x12345678)])) 5 = 0x12345600#32 := by decide
theorem test_sw_bytes :
    let t := ran 0x0062A423 (start 0 [(5, 0x2000), (6, 0x11223344)])
    [0x2008#32, 0x2009, 0x200A, 0x200B].map (memByte t) =
      [0x44#8, 0x33, 0x22, 0x11] := by decide
theorem test_sw_misaligned :
    readCsr .mtval (ran 0xFE62AE23 (start 0x100 [(5, 0x2002)])) =
      0x1FFE#32 := by decide
theorem test_lb :
    readReg (ran 0x00330283 (withData (start 0 [(6, 0x1000)]))) 5 =
      0xFFFFFF80#32 := by decide
theorem test_lb_unsigned_byte :
    readReg (ran 0x00030283 (withData (start 0 [(6, 0x1000)]))) 5 =
      0x00000001#32 := by decide
theorem test_lh :
    readReg (ran 0x00231283 (withData (start 0 [(6, 0x1000)]))) 5 =
      0xFFFF80FF#32 := by decide
theorem test_lh_misaligned :
    readCsr .mtval (ran 0x00131283 (start 0x100 [(6, 0x1000)])) =
      0x1001#32 := by decide
theorem test_lw :
    readReg (ran 0x00032283 (withData (start 0 [(6, 0x1000)]))) 5 =
      0x80FF7F01#32 := by decide
theorem test_lw_misaligned :
    readCsr .mcause (ran 0x00232283 (start 0x100 [(6, 0x1000)])) =
      4#32 := by decide
theorem test_lbu :
    readReg (ran 0x00334283 (withData (start 0 [(6, 0x1000)]))) 5 =
      0x00000080#32 := by decide
theorem test_lhu :
    readReg (ran 0xFFE35283 (withData (start 0 [(6, 0x1004)]))) 5 =
      0x000080FF#32 := by decide
theorem test_sb :
    memWord (ran 0x006281A3 (withData (start 0 [(5, 0x1000), (6, 0xABCDEF12)]))) 0x1000 =
      0x12FF7F01#32 := by decide
theorem test_sh :
    memWord (ran 0x00629123 (withData (start 0 [(5, 0x1000), (6, 0xABCDEF12)]))) 0x1000 =
      0xEF127F01#32 := by decide
theorem test_sh_misaligned :
    readCsr .mtval (ran 0x7E629FA3 (start 0x100 [(5, 0x1000)])) =
      0x17FF#32 := by decide
theorem test_srai : readReg (ran 0x40435293 (start 0 [(6, 0x80000010)])) 5 = 0xF8000001#32 := by decide
theorem test_slli : readReg (ran 0x00431293 (start 0 [(6, 0xF000000F)])) 5 = 0x000000F0#32 := by decide
theorem test_sra_low_five_bits :
    readReg (ran 0x407352B3 (start 0 [(6, 0x80000000), (7, 36)])) 5 =
      0xF8000000#32 := by decide
theorem test_srl_low_five_bits :
    readReg (ran 0x007352B3 (start 0 [(6, 0x80000000), (7, 32)])) 5 =
      0x80000000#32 := by decide
theorem test_srl :
    readReg (ran 0x007352B3 (start 0 [(6, 0x80000000), (7, 4)])) 5 =
      0x08000000#32 := by decide
theorem test_sll_low_five_bits :
    readReg (ran 0x007312B3 (start 0 [(6, 1), (7, 0x3F)])) 5 =
      0x80000000#32 := by decide
theorem test_srli : readReg (ran 0x00435293 (start 0 [(6, 0x80000010)])) 5 = 0x08000001#32 := by decide
theorem test_fencei_fetches_new_bytes :
    imemWord (ran 0x0000100F (storeBytes 0x2000 (bytesOfWord 0x13) (start 0 []))) 0x2000 =
      0x00000013#32 := by decide
theorem test_store_leaves_the_fetch_view :
    imemWord (storeBytes 0x2000 (bytesOfWord 0x13) (start 0 [])) 0x2000 =
      0x00000000#32 := by decide
theorem test_fence_advances : (ran 0x0120000F (start 0x2000 [])).pc = 0x2004#32 := by decide
theorem test_csrrci :
    readCsr .mstatus (ran 0x30047073 (withCsrs [(.mstatus, 0x1888)] (start 0x1008 []))) =
      0x1880#32 := by decide
theorem test_csrrci_zero_reads :
    readReg (ran 0x300072F3 (withCsrs [(.mstatus, 0x1888)] (start 0x1008 []))) 5 =
      0x1888#32 := by decide
theorem test_ecall :
    [readCsr .mepc (ran 0x00000073 (withCsrs [(.mtvec, 0x100), (.mstatus, 8)] (start 0x1008 []))), readCsr .mcause (ran 0x00000073 (withCsrs [(.mtvec, 0x100), (.mstatus, 8)] (start 0x1008 []))), readCsr .mstatus (ran 0x00000073 (withCsrs [(.mtvec, 0x100), (.mstatus, 8)] (start 0x1008 [])))] =
      [0x100C#32, 11, 0x1880] := by decide
theorem test_ebreak :
    [readCsr .mepc (ran 0x00100073 (withCsrs [(.mtvec, 0x100), (.mstatus, 0)] (start 0x2000 []))), readCsr .mcause (ran 0x00100073 (withCsrs [(.mtvec, 0x100), (.mstatus, 0)] (start 0x2000 []))), readCsr .mstatus (ran 0x00100073 (withCsrs [(.mtvec, 0x100), (.mstatus, 0)] (start 0x2000 [])))] =
      [0x2004#32, 3, 0x1800] := by decide
theorem test_csrrw_swaps :
    [readReg (ran 0x340292F3 (withCsrs [(.mscratch, 0x0000BBBB)] (start 0x1008 [(5, 0xAAAA0000)]))) 5, readCsr .mscratch (ran 0x340292F3 (withCsrs [(.mscratch, 0x0000BBBB)] (start 0x1008 [(5, 0xAAAA0000)])))] =
      [0x0000BBBB#32, 0xAAAA0000] := by decide
theorem test_csrrw_read_only :
    [readCsr .mcause (ran 0xC0029073 (withCsrs [] (start 0x1008 []))), readCsr .mtval (ran 0xC0029073 (withCsrs [] (start 0x1008 [])))] =
      [2#32, 0xC0029073] := by decide
theorem test_csrrs :
    readCsr .mstatus (ran 0x30032073 (withCsrs [(.mstatus, 0x1880)] (start 0x1008 [(6, 8)]))) =
      0x1888#32 := by decide
theorem test_csrrs_unlisted :
    readCsr .mtval (ran 0xF11022F3 (withCsrs [] (start 0x1008 []))) =
      0xF11022F3#32 := by decide
theorem test_csrrc :
    [readReg (ran 0x300332F3 (withCsrs [(.mstatus, 0x1888)] (start 0x1008 [(6, 0x88)]))) 5, readCsr .mstatus (ran 0x300332F3 (withCsrs [(.mstatus, 0x1888)] (start 0x1008 [(6, 0x88)])))] =
      [0x1888#32, 0x1800] := by decide
theorem test_csrrwi :
    [readReg (ran 0x340FD2F3 (withCsrs [(.mscratch, 0x12345678)] (start 0x1008 []))) 5, readCsr .mscratch (ran 0x340FD2F3 (withCsrs [(.mscratch, 0x12345678)] (start 0x1008 [])))] =
      [0x12345678#32, 0x1F] := by decide
theorem test_csrrsi :
    readCsr .mstatus (ran 0x30046073 (withCsrs [(.mstatus, 0x1880)] (start 0x1008 []))) =
      0x1888#32 := by decide

/-! ### States and operands that meet the hypotheses of the obligations -/

/-- A state at 0x100 whose next instruction is the one of the word `w`. -/
def at100 (w : Nat) : State := (start 0x100 [(5, 0x1000), (6, 0x55)]).withFetchWord 32 w

theorem witness_DecodeEncodeRoundTrip : (Instr.bne 31 31 (-4096)).wellFormed = true ∧
    (Instr.jal 31 1048574).wellFormed = true := by decide

theorem witness_EncodeDecodeRoundTrip : decode 0xFFFF9F8F#32 = .ok (.fencei 0xFFF 31 31) := rfl

theorem witness_EveryWordMatchesAtMostOneRow : (∃ r ∈ opcodeTable, 0x40000033#32 &&& r.mask = r.pat) ∧
    ∀ r ∈ opcodeTable, 0#32 &&& r.mask ≠ r.pat := by decide

theorem witness_StepRunsDecodedInstruction :
    let s := at100 0x00530293
    s.pc.toNat % 4 = 0 ∧ mapFetch s.memMap s.pc = true ∧
    decodeBytes [imemByte s s.pc, imemByte s (s.pc + 1#32), imemByte s (s.pc + 2#32),
      imemByte s (s.pc + 3#32)] = .ok (.addi 5 6 5, []) ∧ ∃ t, exec (.addi 5 6 5) s = .next t :=
  ⟨by decide, by decide, rfl, _, rfl⟩

/-- At a `pc` of 2 modulo 4; at the last word of the map and just above it. -/
theorem witness_FetchPhaseExceptionsTrap : (start 0x102 []).pc.toNat % 4 ≠ 0 ∧
    mapFetch (lowMap (start 0x1FFC [])).memMap 0x1FFC#32 = true ∧
    (lowMap (start 0x2000 [])).pc.toNat % 4 = 0 ∧
    mapFetch (lowMap (start 0x2000 [])).memMap 0x2000#32 = false := by decide

theorem witness_IllegalWordTraps :
    let s := at100 0x30200073
    s.pc.toNat % 4 = 0 ∧ mapFetch s.memMap s.pc = true ∧
    imemByte s (s.pc + 3#32) ++ imemByte s (s.pc + 2#32) ++ imemByte s (s.pc + 1#32) ++
      imemByte s s.pc = 0x30200073#32 ∧ decode 0x30200073#32 = .error .unassignedPattern :=
  ⟨by decide, by decide, by decide, rfl⟩

/-- A trap, an instruction that goes on, and a jump. -/
theorem witness_ProgramCounterSuccessors : (∃ t, exec .ecall (start 0 []) = .next t) ∧
    (∃ t, exec (.lui 5 1) (start 0xFFFFFFFC []) = .next t ∧ t.pc = 0#32) ∧
    ∃ t, exec (.jal 1 (-4)) (start 0 []) = .next t ∧ target (.jal 1 (-4)) (start 0 []) = some t.pc :=
  ⟨⟨_, rfl⟩, ⟨_, rfl, by decide⟩, _, rfl, by decide⟩

theorem witness_PlacedWordRunsNext : (start 0xFFFFFFFC []).pc.toNat % 4 = 0 ∧
    mapFetch (start 0xFFFFFFFC []).memMap 0xFFFFFFFC#32 = true ∧
    decode 0x00000013#32 = .ok (.addi 0 0 0) := ⟨by decide, by decide, rfl⟩

/-- A step that traps, one that writes `mepc`, and one that does neither. -/
theorem witness_TrapsRecordPcOrNextPc : (∃ t, step (at100 0x00100073) = .next t ∧ t.csrs.mcause = 3#32) ∧
    (∃ t, step (at100 0x34129073) = .next t ∧ t.csrs.mepc = 0x1000#32) ∧
    ∃ t, step (at100 0x00000013) = .next t ∧ t.csrs.mepc = 0#32 :=
  ⟨⟨_, rfl, by decide⟩, ⟨_, rfl, by decide⟩, _, rfl, by decide⟩

/-- A handler at a misaligned address, outside the map, and at a word of zeros. -/
theorem witness_UnusableVectorLoopsForever :
    (let s := withCsrs [(.mtvec, 0x202)] (start 0x202 []);
      s.pc = s.csrs.mtvec ∧ s.pc.toNat % 4 ≠ 0) ∧
    (let s := withCsrs [(.mtvec, 0x2000)] (lowMap (start 0x2000 []));
      s.pc = s.csrs.mtvec ∧ s.pc.toNat % 4 = 0 ∧ mapFetch s.memMap s.pc = false) ∧
    (let s := withCsrs [(.mtvec, 0x200)] (start 0x200 []);
      s.pc = s.csrs.mtvec ∧ s.pc.toNat % 4 = 0 ∧ mapFetch s.memMap s.pc = true ∧
      (∀ a, imemByte s a = memByte s a) ∧ decode (memWord s s.pc) = .error .unknownOpcode) :=
  ⟨by decide, by decide, by decide, by decide, by decide, fun _ => rfl, rfl⟩

theorem witness_HandlerReturnsThroughMepc : (31#5 : RegNum) ≠ 0#5 := by decide

theorem witness_WorkedTrapExample :
    let s := withCsrs [(.mtvec, 0x200), (.mstatus, 8), (.minstret, 40)]
      (start 0x1010 [(6, 0x1002), (5, 0x55555555)])
    s.pc = 0x00001010#32 ∧ mapFetch s.memMap s.pc = true ∧ readReg s 6 = 0x00001002#32 ∧
    readReg s 5 = 0x55555555#32 ∧ s.csrs.mtvec = 0x00000200#32 ∧ s.csrs.mstatus = 0x00000008#32 ∧
    s.priv = .M ∧ s.instret = 40#64 := by decide

/-- A state with listed memory and a stale fetch view meets the invariant and steps on. -/
theorem witness_StepKeepsInvariant :
    (withData (at100 0x00000013)).Inv ∧ ∃ t, step (withData (at100 0x00000013)) = .next t :=
  ⟨by decide, _, rfl⟩

/-- From U an instruction keeps the mode and ECALL leads to M; a run from M goes on. -/
theorem witness_ModeChangesOnlyByTrap :
    (∃ t, exec (.lui 5 1) { start 0 [] with priv := .U } = .next t ∧ t.priv = .U) ∧
    (∃ t, exec .ecall { start 0 [] with priv := .U } = .next t ∧ t.priv = .M) ∧
    (start 0 []).priv = .M ∧ ∃ t, Host.Core.run Sys2Proof.core 1 (start 0 []) = .next t :=
  ⟨⟨_, rfl, by decide⟩, ⟨_, rfl, by decide⟩, by decide, _, rfl⟩

theorem witness_OnlyNamedRegistersChange :
    ∃ t, step (at100 0x00530293) = .next t ∧ readReg t 5 ≠ readReg (at100 0x00530293) 5 :=
  ⟨_, rfl, by decide⟩

theorem witness_UnnamedRegistersDoNotMatter :
    (7#5 : RegNum) ∉ sources (.add 5 6 6) ∧ destination (.add 5 6 6) ≠ some 7#5 := by decide

theorem witness_OnlyLoadsAndStoresUseMemory : (∃ t, exec (.lb 5 0 6) (start 0 []) = .next t) ∧
    isStore (.lb 5 0 6) = false ∧ (∀ imm12 rs1 rd, Instr.sw 5 0 6 ≠ .fencei imm12 rs1 rd) ∧
    (∃ t, exec (.sw 5 0 6) (start 0 []) = .next t) ∧
    isStore (.add 5 6 7) = false ∧ isLoad (.add 5 6 7) = false :=
  ⟨⟨_, rfl⟩, by decide, by simp, ⟨_, rfl⟩, by decide, by decide⟩

/-- A CSR that a CSR instruction changes, and one that a trap changes. -/
theorem witness_CsrsChangeOnlyByCsrInstructionsAndTraps :
    Csr.mie ∉ counterCsrs ∧ Csr.mcause ∉ counterCsrs ∧
    (∃ t, exec (.csrrw 0 0x304 5) (at100 0) = .next t ∧ readCsr .mie t ≠ readCsr .mie (at100 0)) ∧
    ∃ t, exec .ecall (at100 0) = .next t ∧ readCsr .mcause t ≠ readCsr .mcause (at100 0) :=
  ⟨by decide, by decide, ⟨_, rfl, by decide⟩, _, rfl, by decide⟩

/-- A trap, a write of `minstret`, and an instruction that counts. -/
theorem witness_RetiredInstructionsAreCounted : (∃ t, step (at100 0x00000073) = .next t ∧ t.instret = 0#64) ∧
    (∃ t, step (at100 0xB0229073) = .next t ∧ t.instret = 0x1000#64) ∧
    ∃ t, step (at100 0x00000013) = .next t ∧ t.instret = 1#64 :=
  ⟨⟨_, rfl, by decide⟩, ⟨_, rfl, by decide⟩, _, rfl, by decide⟩

theorem witness_CycleCounterIsInvisible : readsCycle (.csrrw 5 0x340 6) = false ∧
    readsCycle (.csrrs 5 0xC80 0) = true := by decide

theorem witness_InertCsrsHaveNoEffect : Csr.satp ∉ [Csr.mtvec, .mstatus, .mepc, .mcause, .mtval] ∧
    Csr.satp ∉ counterCsrs ∧ ∀ i, nextInstr (at100 0x00000013) = .ok i → csrAccess i = none := by
  refine ⟨by decide, by decide, fun i h => ?_⟩
  have : nextInstr (at100 0x00000013) = .ok (.addi 0 0 0) := rfl
  cases this.symm.trans h
  rfl

/-- A step that stores to 0x1000: at 0x1004 `IMem` agrees with `Mem`, which the store leaves. -/
theorem witness_FetchViewSeesOldOrNewByte :
    let s := at100 0x0062A023
    ∃ t, step s = .next t ∧ imemByte s 0x1004 = memByte s 0x1004 ∧ memByte t 0x1004 = memByte s 0x1004 ∧
      memByte t 0x1000 ≠ memByte s 0x1000 :=
  ⟨_, rfl, by decide, by decide, by decide⟩

theorem witness_ArithmeticIsModular : (5#5 : RegNum) ≠ 0#5 ∧ (6#5 : RegNum) ≠ 5#5 ∧
    (∃ t, exec (.add 5 6 7) (start 0 []) = .next t) ∧ (∃ t, exec (.sub 5 6 7) (start 0 []) = .next t) ∧
    ∃ t, exec (.addi 5 6 (-1)) (start 0 []) = .next t :=
  ⟨by decide, by decide, ⟨_, rfl⟩, ⟨_, rfl⟩, _, rfl⟩

/-- The operand 0x80000001 of R287 by an amount of 31, of which x7 holds the low bits. -/
theorem witness_RegisterShiftResults :
    let s := start 0 [(6, 0x80000001), (7, 0xFFFFFFFF)]
    31 = (readReg s 7).toNat % 32 ∧
    (0x80000000#32).toNat = (readReg s 6).toNat * 2 ^ 31 % 2 ^ 32 ∧
    (0x00000001#32).toNat = (readReg s 6).toNat / 2 ^ 31 ∧
    (0xFFFFFFFF#32).toInt = (readReg s 6).toInt / 2 ^ 31 := by decide

/-- JAL by 2, and JALR through x5 = 0x1000 by 3, whose bit 0 is cleared. -/
theorem witness_MisalignedJumpTargetTrapsNextStep :
    nextInstr (at100 0x002000EF) = .ok (.jal 1 2) ∧
    ((at100 0x002000EF).pc + (2#21).signExtend 32).toNat % 4 ≠ 0 ∧
    nextInstr (at100 0x003280E7) = .ok (.jalr 1 5 3) ∧
    ((readReg (at100 0x003280E7) 5 + (3#12).signExtend 32) &&& 0xFFFFFFFE#32).toNat % 4 ≠ 0 :=
  ⟨rfl, by decide, rfl, by decide⟩

/-- A branch taken to an offset of 2, and one not taken with the same offset. -/
theorem witness_MisalignedBranchTargetTrapsNextStep :
    nextInstr (at100 0x00629163) = .ok (.bne 5 6 2) ∧ nextInstr (at100 0x00628163) = .ok (.beq 5 6 2) ∧
    (∃ t, exec (.bne 5 6 2) (at100 0x00629163) = .next t ∧ t.pc.toNat % 4 ≠ 0) ∧
    ∃ t, exec (.beq 5 6 2) (at100 0x00628163) = .next t ∧ t.pc.toNat % 4 = 0 :=
  ⟨rfl, rfl, ⟨_, rfl, by decide⟩, _, rfl, by decide⟩

/-- Addresses for the clauses of the loads: the last that the map answers, the first that it does not,
and a misaligned one, for each width. -/
theorem witness_loads : let s := lowMap (start 0 [(6, 0x2000)])
    (effectiveAddress s 6 (-1) = 0x1FFF#32 ∧ mapLoad s.memMap 0x1FFF 1 = true) ∧
    (effectiveAddress s 6 0 = 0x2000#32 ∧ mapLoad s.memMap 0x2000 1 = false) ∧
    ((0x1FFE#32).toNat % 2 = 0 ∧ mapLoad s.memMap 0x1FFE 2 = true) ∧
    ((0x2000#32).toNat % 2 = 0 ∧ mapLoad s.memMap 0x2000 2 = false) ∧ (0x1FFF#32).toNat % 2 ≠ 0 ∧
    ((0x1FFC#32).toNat % 4 = 0 ∧ mapLoad s.memMap 0x1FFC 4 = true) ∧
    ((0x2000#32).toNat % 4 = 0 ∧ mapLoad s.memMap 0x2000 4 = false) ∧ (0x1FFE#32).toNat % 4 ≠ 0 := by
  decide

/-- The same for the stores, with the offset in its two parts: SB, then SH, then SW. -/
theorem witness_stores : let s := lowMap (start 0 [(6, 0x2000)])
    (effectiveAddress s 6 (0x7F#7 ++ 0x1F#5) = 0x1FFF#32 ∧ mapStore s.memMap 0x1FFF 1 = true) ∧
    (effectiveAddress s 6 (0x00#7 ++ 0x00#5) = 0x2000#32 ∧ mapStore s.memMap 0x2000 1 = false) ∧
    (effectiveAddress s 6 (0x7F#7 ++ 0x1E#5) = 0x1FFE#32 ∧ (0x1FFE#32).toNat % 2 = 0 ∧
      mapStore s.memMap 0x1FFE 2 = true) ∧
    ((0x2000#32).toNat % 2 = 0 ∧ mapStore s.memMap 0x2000 2 = false) ∧ (0x1FFF#32).toNat % 2 ≠ 0 ∧
    (effectiveAddress s 6 (0x7F#7 ++ 0x1C#5) = 0x1FFC#32 ∧ (0x1FFC#32).toNat % 4 = 0 ∧
      mapStore s.memMap 0x1FFC 4 = true) ∧
    ((0x2000#32).toNat % 4 = 0 ∧ mapStore s.memMap 0x2000 4 = false) ∧ (0x1FFE#32).toNat % 4 ≠ 0 := by
  decide

/-- SW to the last word of the map, and the four bytes of it, at k = 0 and k = 3. -/
theorem witness_NarrowLoadsAfterWordStore : let s := lowMap (start 0 [(6, 0x2000), (7, 0x11223344)])
    effectiveAddress s 6 (-4) = 0x1FFC#32 ∧ (0x1FFC#32).toNat % 4 = 0 ∧
    mapStore s.memMap 0x1FFC 4 = true ∧ ∃ t, exec (.sw 7 (-4) 6) s = .next t ∧
      effectiveAddress t 6 (-4) = 0x1FFC#32 + BitVec.ofNat 32 0 ∧
      effectiveAddress t 6 (-1) = 0x1FFC#32 + BitVec.ofNat 32 3 ∧
      mapLoad t.memMap 0x1FFC 4 = true ∧ mapLoad t.memMap 0x1FFE 2 = true ∧
      mapLoad t.memMap 0x1FFF 1 = true :=
  ⟨by decide, by decide, by decide, _, rfl, by decide, by decide, by decide, by decide, by decide⟩

/-- The clauses of a CSR form: no CSR, a read-only one, one that is written; x0 and another register. -/
theorem witness_CsrForms : csrAt 0xF11 = none ∧ csrAt 0xFFF = none ∧ csrReadOnly .uinstreth = true ∧
    csrReadOnly .mcycle = false ∧ ((0#5 : RegNum) != 0#5) = false ∧ ((31#5 : RegNum) != 0#5) = true := by
  decide

theorem witness_RetiredCounterReads : (1#5 : RegNum) ≠ 0#5 ∧ (31#5 : RegNum) ≠ 0#5 ∧
    (1#5 : RegNum) ≠ 31#5 := by decide

/-- The three lengths of LI, and the ends of the range of one ADDI (R184). -/
theorem witness_MultiplePseudoInstructions : (expand (.li 5 2047)).length = 1 ∧
    (expand (.li 5 2048)).length = 2 ∧ (expand (.li 5 0x12345000)).length = 1 ∧
    (expand (.li 5 0xFFFFF800)).length = 1 ∧ (expand (.li 5 0xFFFFF7FF)).length = 2 := by decide

/-- The rows of R23 and R28 that a pseudo-instruction and C7 rest on. -/
theorem test_abi : abiTable.length = 32 ∧ abiRegister "ra" = some 1 ∧ abiRegister "t6" = some 31 := by
  decide

end Sys2Proof.Tests
end

section
/-! The branches: the B-type words read back (`30_encoding.md` R144, R150), and what a branch does
(`40_branch.md` R200 to R206). -/

namespace Sys2Proof

/-! ### B-type words -/

/-- The reassembled offset of a B-type word has no bit 0 (R150). -/
theorem evenOffset_append_zero (x : BitVec 12) : evenOffset (x ++ 0#1) = true := by
  simp only [evenOffset, BitVec.getLsbD_append]
  simp

/-- The encoder puts the parts of a branch offset back where the word of R144 holds them. -/
theorem encodeB_append (b12 b11 : BitVec 1) (b10 : BitVec 6) (b4 : BitVec 4) (rs2 rs1 : RegNum)
    (f3 : BitVec 3) (op : BitVec 7) :
    encodeB (b12 ++ b11 ++ b10 ++ b4 ++ 0#1) rs2 rs1 f3 op =
      b12 ++ b10 ++ rs2 ++ rs1 ++ f3 ++ b4 ++ b11 ++ op := by
  apply BitVec.eq_of_getLsbD_eq
  intro i hi
  simp only [encodeB, BitVec.getLsbD_extractLsb', BitVec.getLsbD_append]
  interval_cases i <;> simp

/-- The table's row of the branch `mk` with this `funct3`. -/
def branchRow (f3 : BitVec 3) (mk : RegNum → RegNum → BitVec 13 → Instr) : Row :=
  ⟨0x0000707F, encodeB 0 0 0 f3 0x63, fun w => mk (rs1Of w) (rs2Of w) (immBOf w)⟩

/-- The word of a branch decodes by its row to the operands that were encoded. -/
theorem decode_encodeB {f3 : BitVec 3} {mk : RegNum → RegNum → BitVec 13 → Instr}
    (hr : branchRow f3 mk ∈ opcodeTable) (rs1 rs2 : RegNum) {off : BitVec 13}
    (h : evenOffset off = true) : decode (encodeB off rs2 rs1 f3 0x63) = .ok (mk rs1 rs2 off) := by
  have hw : encodeB off rs2 rs1 f3 0x63 &&& (branchRow f3 mk).mask = (branchRow f3 mk).pat :=
    encodeB_fixed ..
  rw [decode_of_row hr hw]
  simp only [branchRow, rs1Of_encodeB, rs2Of_encodeB, immBOf_encodeB _ _ _ _ h]

/-- A B-type word written part by part decodes with the offset reassembled. -/
theorem decode_branchWord {f3 : BitVec 3} {mk : RegNum → RegNum → BitVec 13 → Instr}
    (hr : branchRow f3 mk ∈ opcodeTable) (rs1 rs2 : RegNum) (b12 b11 : BitVec 1) (b10 : BitVec 6)
    (b4 : BitVec 4) :
    decode (b12 ++ b10 ++ rs2 ++ rs1 ++ f3 ++ b4 ++ b11 ++ 0b1100011#7) =
      .ok (mk rs1 rs2 (b12 ++ b11 ++ b10 ++ b4 ++ 0#1)) := by
  rw [← encodeB_append]
  exact decode_encodeB hr rs1 rs2 (evenOffset_append_zero _)

theorem branchRow_bne_mem : branchRow 0b001 .bne ∈ opcodeTable :=
  List.getElem_mem (l := opcodeTable) (n := 0) (by decide)

theorem branchRow_beq_mem : branchRow 0b000 .beq ∈ opcodeTable :=
  List.getElem_mem (l := opcodeTable) (n := 1) (by decide)

theorem branchRow_blt_mem : branchRow 0b100 .blt ∈ opcodeTable :=
  List.getElem_mem (l := opcodeTable) (n := 2) (by decide)

theorem branchRow_bge_mem : branchRow 0b101 .bge ∈ opcodeTable :=
  List.getElem_mem (l := opcodeTable) (n := 3) (by decide)

theorem branchRow_bltu_mem : branchRow 0b110 .bltu ∈ opcodeTable :=
  List.getElem_mem (l := opcodeTable) (n := 4) (by decide)

theorem branchRow_bgeu_mem : branchRow 0b111 .bgeu ∈ opcodeTable :=
  List.getElem_mem (l := opcodeTable) (n := 5) (by decide)

namespace Machine

/-! ### What a branch does -/

theorem lessSigned_iff (a b : Word) : lessSigned a b = true ↔ a.toInt < b.toInt :=
  decide_eq_true_iff

theorem not_lessSigned_iff (a b : Word) : (!lessSigned a b) = true ↔ b.toInt ≤ a.toInt := by
  simp [lessSigned]

theorem lessUnsigned_iff (a b : Word) : lessUnsigned a b = true ↔ a.toNat < b.toNat :=
  decide_eq_true_iff

theorem not_lessUnsigned_iff (a b : Word) : (!lessUnsigned a b) = true ↔ b.toNat ≤ a.toNat := by
  simp [lessUnsigned]

/-- Retiring changes no part of the system. -/
theorem keepsSystem_retireTo (t : Word) (s : State) : KeepsSystem s (retireTo t s) :=
  ⟨rfl, rfl, rfl, ⟨memByte_congr rfl, imemByte_congr rfl rfl⟩, rfl, rfl⟩

/-- An instruction that only retires to `t` goes there and changes nothing else. -/
theorem onlyGoesTo_of_retireTo {i : Instr} {s : State} {t : Word}
    (h : exec i s = .next (retireTo t s)) : OnlyGoesTo i s t :=
  ⟨retireTo t s, h, readReg_retireTo t s, ⟨retireTo_pc t s, retireTo_instret t s⟩,
    keepsSystem_retireTo t s⟩

/-- An instruction whose meaning is `branchIf` goes to its target exactly when the condition holds,
and changes nothing else (R206). -/
theorem onlyGoesTo_of_branchIf {i : Instr} {s : State} {taken : Bool} {off : BitVec 13}
    (h : exec i s = branchIf taken off s) {P : Prop} [Decidable P] (hP : taken = true ↔ P) :
    OnlyGoesTo i s (if P then s.pc + off.signExtend 32 else s.pc + 4#32) := by
  refine onlyGoesTo_of_retireTo ?_
  simp only [h, branchIf, branchOffset, hP]

/-- Settles O44: each word decodes by its row of the table, and each meaning is `branchIf` of a
condition that reads as the stated comparison. -/
theorem branchResults : Obligations.BranchResults := by
  intro s rs1 rs2 b12 b11 b10 b4 off a b target word offset
  have hdec {f3 mk} (hr : branchRow f3 mk ∈ opcodeTable) :
      decode (word f3) = .ok (mk rs1 rs2 offset) :=
    decode_branchWord hr rs1 rs2 b12 b11 b10 b4
  exact ⟨hdec branchRow_bne_mem, onlyGoesTo_of_branchIf rfl bne_iff_ne,
    hdec branchRow_beq_mem, onlyGoesTo_of_branchIf rfl beq_iff_eq,
    hdec branchRow_blt_mem, onlyGoesTo_of_branchIf rfl (lessSigned_iff a b),
    hdec branchRow_bge_mem, onlyGoesTo_of_branchIf rfl (not_lessSigned_iff a b),
    hdec branchRow_bltu_mem, onlyGoesTo_of_branchIf rfl (lessUnsigned_iff a b),
    hdec branchRow_bgeu_mem, onlyGoesTo_of_branchIf rfl (not_lessUnsigned_iff a b)⟩

end Machine

end Sys2Proof
end

section
/-! The register instructions: the R-, I- and U-type words read back (`30_encoding.md` R141, R142,
R145), what a write of `rd` leaves unchanged, and the integer family (`41_integer.md` R220 to R229). -/

namespace Sys2Proof

/-! ### R-, I- and U-type words -/

/-- The table's row of the R-type instruction `mk` with this `funct7`, `funct3` and opcode. -/
def registerRow (f7 : BitVec 7) (f3 : BitVec 3) (op : BitVec 7)
    (mk : RegNum → RegNum → RegNum → Instr) : Row :=
  ⟨0xFE00707F, encodeR f7 0 0 f3 0 op, fun w => mk (rdOf w) (rs1Of w) (rs2Of w)⟩

/-- The table's row of the I-type instruction `mk` with this `funct3` and opcode. -/
def immediateRow (f3 : BitVec 3) (op : BitVec 7)
    (mk : RegNum → RegNum → BitVec 12 → Instr) : Row :=
  ⟨0x0000707F, encodeI 0 0 f3 0 op, fun w => mk (rdOf w) (rs1Of w) (immIOf w)⟩

/-- The table's row of the U-type instruction `mk` with this opcode. -/
def upperRow (op : BitVec 7) (mk : RegNum → BitVec 20 → Instr) : Row :=
  ⟨0x0000007F, encodeU 0 0 op, fun w => mk (rdOf w) (immUOf w)⟩

/-- The word of an R-type instruction decodes by its row to the operands that were encoded. -/
theorem decode_encodeR {f7 : BitVec 7} {f3 : BitVec 3} {op : BitVec 7}
    {mk : RegNum → RegNum → RegNum → Instr} (hr : registerRow f7 f3 op mk ∈ opcodeTable)
    (rd rs1 rs2 : RegNum) : decode (encodeR f7 rs2 rs1 f3 rd op) = .ok (mk rd rs1 rs2) := by
  have hw : encodeR f7 rs2 rs1 f3 rd op &&& (registerRow f7 f3 op mk).mask =
      (registerRow f7 f3 op mk).pat := encodeR_fixed ..
  rw [decode_of_row hr hw]
  simp only [registerRow, rdOf_encodeR, rs1Of_encodeR, rs2Of_encodeR]

/-- The word of an I-type instruction decodes by its row to the operands that were encoded. -/
theorem decode_encodeI {f3 : BitVec 3} {op : BitVec 7} {mk : RegNum → RegNum → BitVec 12 → Instr}
    (hr : immediateRow f3 op mk ∈ opcodeTable) (rd rs1 : RegNum) (imm : BitVec 12) :
    decode (encodeI imm rs1 f3 rd op) = .ok (mk rd rs1 imm) := by
  have hw : encodeI imm rs1 f3 rd op &&& (immediateRow f3 op mk).mask =
      (immediateRow f3 op mk).pat := encodeI_fixed ..
  rw [decode_of_row hr hw]
  simp only [immediateRow, rdOf_encodeI, rs1Of_encodeI, immIOf_encodeI]

/-- The word of a U-type instruction decodes by its row to the operands that were encoded. -/
theorem decode_encodeU {op : BitVec 7} {mk : RegNum → BitVec 20 → Instr}
    (hr : upperRow op mk ∈ opcodeTable) (rd : RegNum) (imm : BitVec 20) :
    decode (encodeU imm rd op) = .ok (mk rd imm) := by
  have hw : encodeU imm rd op &&& (upperRow op mk).mask = (upperRow op mk).pat := encodeU_fixed ..
  rw [decode_of_row hr hw]
  simp only [upperRow, rdOf_encodeU, immUOf_encodeU]

theorem upperRow_auipc_mem : upperRow 0b0010111 .auipc ∈ opcodeTable :=
  List.getElem_mem (l := opcodeTable) (n := 6) (by decide)

theorem registerRow_slt_mem : registerRow 0b0000000 0b010 0b0110011 .slt ∈ opcodeTable :=
  List.getElem_mem (l := opcodeTable) (n := 7) (by decide)

theorem registerRow_sltu_mem : registerRow 0b0000000 0b011 0b0110011 .sltu ∈ opcodeTable :=
  List.getElem_mem (l := opcodeTable) (n := 8) (by decide)

theorem immediateRow_slti_mem : immediateRow 0b010 0b0010011 .slti ∈ opcodeTable :=
  List.getElem_mem (l := opcodeTable) (n := 9) (by decide)

theorem immediateRow_sltiu_mem : immediateRow 0b011 0b0010011 .sltiu ∈ opcodeTable :=
  List.getElem_mem (l := opcodeTable) (n := 10) (by decide)

theorem upperRow_lui_mem : upperRow 0b0110111 .lui ∈ opcodeTable :=
  List.getElem_mem (l := opcodeTable) (n := 11) (by decide)

theorem registerRow_add_mem : registerRow 0b0000000 0b000 0b0110011 .add ∈ opcodeTable :=
  List.getElem_mem (l := opcodeTable) (n := 12) (by decide)

theorem registerRow_sub_mem : registerRow 0b0100000 0b000 0b0110011 .sub ∈ opcodeTable :=
  List.getElem_mem (l := opcodeTable) (n := 13) (by decide)

theorem immediateRow_addi_mem : immediateRow 0b000 0b0010011 .addi ∈ opcodeTable :=
  List.getElem_mem (l := opcodeTable) (n := 14) (by decide)

namespace Machine

/-! ### What an instruction that writes one register does -/

/-- A register write changes no part of the system. -/
theorem keepsSystem_writeReg (rd : RegNum) (v : Word) (s : State) :
    KeepsSystem s (writeReg rd v s) :=
  ⟨writeReg_priv rd v s, writeReg_csrs rd v s, writeReg_cycle rd v s,
    ⟨memByte_congr (writeReg_mem rd v s),
      imemByte_congr (writeReg_mem rd v s) (writeReg_icache rd v s)⟩,
    writeReg_memMap rd v s, writeReg_draws rd v s⟩

theorem KeepsSystem.trans {s t u : State} (hst : KeepsSystem s t) (htu : KeepsSystem t u) :
    KeepsSystem s u := by
  obtain ⟨hpriv, hcsrs, hcycle, ⟨hmem, himem⟩, hmap, hdraws⟩ := hst
  obtain ⟨hpriv', hcsrs', hcycle', ⟨hmem', himem'⟩, hmap', hdraws'⟩ := htu
  exact ⟨hpriv'.trans hpriv, hcsrs'.trans hcsrs, hcycle'.trans hcycle,
    ⟨fun a => (hmem' a).trans (hmem a), fun a => (himem' a).trans (himem a)⟩,
    hmap'.trans hmap, hdraws'.trans hdraws⟩

/-- An instruction that writes `v` to `rd` and retires to `t` has that register result. -/
theorem registerResult_of_retireTo {i : Instr} {s : State} {rd : RegNum} {v t : Word}
    (h : exec i s = .next (retireTo t (writeReg rd v s))) : RegisterResult i s rd v t := by
  have hregs : WritesRegister s (retireTo t (writeReg rd v s)) rd v := fun r => by
    rw [readReg_retireTo, readReg_writeReg]
  have hdone : CompletesAt s (retireTo t (writeReg rd v s)) t :=
    ⟨retireTo_pc .., by rw [retireTo_instret, writeReg_instret]⟩
  exact ⟨_, h, hregs, hdone, (keepsSystem_writeReg rd v s).trans (keepsSystem_retireTo ..)⟩

/-- An instruction whose meaning is `setRegister` writes the value and goes on at the next word
(R229). -/
theorem registerResult_of_setRegister {i : Instr} {s : State} {rd : RegNum} {v : Word}
    (h : exec i s = setRegister rd v s) : RegisterResult i s rd v (s.pc + 4#32) := by
  refine registerResult_of_retireTo ?_
  rw [h, setRegister, retire, writeReg_pc]

/-- An instruction that sets `rd` to the truth of a signed comparison writes 1 or 0 (R221, R223). -/
theorem registerResult_of_lessSigned {i : Instr} {s : State} {rd : RegNum} {a b : Word}
    (h : exec i s = setRegister rd (truthWord (lessSigned a b)) s) :
    RegisterResult i s rd (if a.toInt < b.toInt then 1#32 else 0#32) (s.pc + 4#32) := by
  rw [← truthWord_lessSigned]
  exact registerResult_of_setRegister h

/-- An instruction that sets `rd` to the truth of an unsigned comparison writes 1 or 0 (R222,
R224). -/
theorem registerResult_of_lessUnsigned {i : Instr} {s : State} {rd : RegNum} {a b : Word}
    (h : exec i s = setRegister rd (truthWord (lessUnsigned a b)) s) :
    RegisterResult i s rd (if a.toNat < b.toNat then 1#32 else 0#32) (s.pc + 4#32) := by
  rw [← truthWord_lessUnsigned]
  exact registerResult_of_setRegister h

/-! ### The integer family -/

/-- Settles O33: each word decodes by its row of the table, and each meaning sets `rd` to the sum, the
difference or the truth of the comparison. -/
theorem registerArithmeticResults : Obligations.RegisterArithmeticResults := by
  intro s rd rs1 rs2
  exact ⟨decode_encodeR registerRow_add_mem rd rs1 rs2, registerResult_of_setRegister rfl,
    decode_encodeR registerRow_sub_mem rd rs1 rs2, registerResult_of_setRegister rfl,
    decode_encodeR registerRow_slt_mem rd rs1 rs2, registerResult_of_lessSigned rfl,
    decode_encodeR registerRow_sltu_mem rd rs1 rs2, registerResult_of_lessUnsigned rfl⟩

/-- Settles O34: each word decodes by its row of the table, and each meaning sets `rd` from the
sign-extended immediate. -/
theorem immediateArithmeticResults : Obligations.ImmediateArithmeticResults := by
  intro s rd rs1 imm
  exact ⟨decode_encodeI immediateRow_addi_mem rd rs1 imm, registerResult_of_setRegister rfl,
    decode_encodeI immediateRow_slti_mem rd rs1 imm, registerResult_of_lessSigned rfl,
    decode_encodeI immediateRow_sltiu_mem rd rs1 imm, registerResult_of_lessUnsigned rfl⟩

/-- Settles O35: each word decodes by its row of the table, and each meaning sets `rd` from the upper
immediate, AUIPC on top of its own `pc`. -/
theorem upperImmediateResults : Obligations.UpperImmediateResults := by
  intro s rd imm
  exact ⟨decode_encodeU upperRow_lui_mem rd imm, registerResult_of_setRegister rfl,
    decode_encodeU upperRow_auipc_mem rd imm, registerResult_of_setRegister rfl⟩

end Machine

end Sys2Proof
end

section
/-! The jumps: the J-type words read back (`30_encoding.md` R146, R152), and what a jump that links does
(`42_jump.md` R240, R243). -/

namespace Sys2Proof

/-! ### J-type words -/

/-- Bits put above a 0 form an even offset, whatever their number (R150, R152). -/
theorem evenOffset_append_zeroBit {n : Nat} (x : BitVec n) : evenOffset (x ++ 0#1) = true := by
  simp only [evenOffset, BitVec.getLsbD_append]
  simp

/-- The encoder puts the parts of a jump offset back where the word of R146 holds them. -/
theorem encodeJ_append (b20 b11 : BitVec 1) (b19 : BitVec 8) (b10 : BitVec 10) (rd : RegNum)
    (op : BitVec 7) :
    encodeJ (b20 ++ b19 ++ b11 ++ b10 ++ 0#1) rd op = b20 ++ b10 ++ b11 ++ b19 ++ rd ++ op := by
  apply BitVec.eq_of_getLsbD_eq
  intro i hi
  simp only [encodeJ, BitVec.getLsbD_extractLsb', BitVec.getLsbD_append]
  interval_cases i <;> simp

/-- The table's row of JAL, the one J-type instruction. -/
def jalRow : Row := ⟨0x0000007F, encodeJ 0 0 0x6F, fun w => .jal (rdOf w) (immJOf w)⟩

theorem jalRow_mem : jalRow ∈ opcodeTable :=
  List.getElem_mem (l := opcodeTable) (n := 15) (by decide)

/-- The word of JAL decodes to the register and the even offset that were encoded. -/
theorem decode_encodeJ (rd : RegNum) {off : BitVec 21} (h : evenOffset off = true) :
    decode (encodeJ off rd 0x6F) = .ok (.jal rd off) := by
  have hw : encodeJ off rd 0x6F &&& jalRow.mask = jalRow.pat := encodeJ_fixed ..
  rw [decode_of_row jalRow_mem hw]
  simp only [jalRow, rdOf_encodeJ, immJOf_encodeJ _ _ h]

/-- A J-type word written part by part decodes with the offset reassembled. -/
theorem decode_jalWord (b20 b11 : BitVec 1) (b19 : BitVec 8) (b10 : BitVec 10) (rd : RegNum) :
    decode (b20 ++ b10 ++ b11 ++ b19 ++ rd ++ 0b1101111#7) =
      .ok (.jal rd (b20 ++ b19 ++ b11 ++ b10 ++ 0#1)) := by
  rw [← encodeJ_append]
  exact decode_encodeJ rd (evenOffset_append_zeroBit _)

namespace Machine

/-! ### What a jump that links does -/

/-- An instruction whose meaning is `jumpAndLink` writes the link value, goes on at its target, and
changes nothing else (R243). -/
theorem registerResult_of_jumpAndLink {i : Instr} {s : State} {rd : RegNum} {t : Word}
    (h : exec i s = jumpAndLink rd t s) : RegisterResult i s rd (s.pc + 4#32) t :=
  registerResult_of_retireTo h

/-- Settles O42: the word decodes by the J-type row of the table, and the meaning is `jumpAndLink` to
the `pc` of the JAL itself plus the sign-extended offset. -/
theorem jalResults : Obligations.JalResults := by
  intro s rd b20 b11 b19 b10 offset
  have hlink : exec (.jal rd offset) s = jumpAndLink rd (s.pc + offset.signExtend 32) s := rfl
  exact ⟨decode_jalWord b20 b11 b19 b10 rd, registerResult_of_jumpAndLink hlink⟩

end Machine

end Sys2Proof
end

section
/-! The logical family (`43_logical.md` R250 to R256): its rows of the table, and what its instructions
write. -/

namespace Sys2Proof

/-! ### The rows of the logical instructions -/

theorem registerRow_xor_mem : registerRow 0b0000000 0b100 0b0110011 .xor ∈ opcodeTable :=
  List.getElem_mem (l := opcodeTable) (n := 17) (by decide)

theorem registerRow_or_mem : registerRow 0b0000000 0b110 0b0110011 .or ∈ opcodeTable :=
  List.getElem_mem (l := opcodeTable) (n := 18) (by decide)

theorem registerRow_and_mem : registerRow 0b0000000 0b111 0b0110011 .and ∈ opcodeTable :=
  List.getElem_mem (l := opcodeTable) (n := 19) (by decide)

theorem immediateRow_ori_mem : immediateRow 0b110 0b0010011 .ori ∈ opcodeTable :=
  List.getElem_mem (l := opcodeTable) (n := 20) (by decide)

theorem immediateRow_xori_mem : immediateRow 0b100 0b0010011 .xori ∈ opcodeTable :=
  List.getElem_mem (l := opcodeTable) (n := 21) (by decide)

theorem immediateRow_andi_mem : immediateRow 0b111 0b0010011 .andi ∈ opcodeTable :=
  List.getElem_mem (l := opcodeTable) (n := 22) (by decide)

namespace Machine

/-! ### What the logical instructions do -/

/-- Settles O37: each word decodes by its row of the table, and each meaning sets `rd` to the bitwise
operation on the two registers. -/
theorem logicalRegisterResults : Obligations.LogicalRegisterResults := by
  intro s rd rs1 rs2
  have hxor : exec (.xor rd rs1 rs2) s = setRegister rd (readReg s rs1 ^^^ readReg s rs2) s := rfl
  have hor : exec (.or rd rs1 rs2) s = setRegister rd (readReg s rs1 ||| readReg s rs2) s := rfl
  have hand : exec (.and rd rs1 rs2) s = setRegister rd (readReg s rs1 &&& readReg s rs2) s := rfl
  exact ⟨decode_encodeR registerRow_xor_mem rd rs1 rs2, registerResult_of_setRegister hxor,
    decode_encodeR registerRow_or_mem rd rs1 rs2, registerResult_of_setRegister hor,
    decode_encodeR registerRow_and_mem rd rs1 rs2, registerResult_of_setRegister hand⟩

/-- Settles O38: each word decodes by its row of the table, and each meaning sets `rd` to the bitwise
operation on the register and the sign-extended immediate. -/
theorem logicalImmediateResults : Obligations.LogicalImmediateResults := by
  intro s rd rs1 imm
  have hori : exec (.ori rd rs1 imm) s =
      setRegister rd (readReg s rs1 ||| imm.signExtend 32) s := rfl
  have hxori : exec (.xori rd rs1 imm) s =
      setRegister rd (readReg s rs1 ^^^ imm.signExtend 32) s := rfl
  have handi : exec (.andi rd rs1 imm) s =
      setRegister rd (readReg s rs1 &&& imm.signExtend 32) s := rfl
  exact ⟨decode_encodeI immediateRow_ori_mem rd rs1 imm, registerResult_of_setRegister hori,
    decode_encodeI immediateRow_xori_mem rd rs1 imm, registerResult_of_setRegister hxori,
    decode_encodeI immediateRow_andi_mem rd rs1 imm, registerResult_of_setRegister handi⟩

end Machine

end Sys2Proof
end

section
/-! The register shifts (`45_shift.md` R282 to R284, R286): their rows of the table, and the words that
the exact readings determine. -/

namespace Sys2Proof

/-! ### The rows of the register shifts -/

theorem registerRow_sra_mem : registerRow 0b0100000 0b101 0b0110011 .sra ∈ opcodeTable :=
  List.getElem_mem (l := opcodeTable) (n := 33) (by decide)

theorem registerRow_srl_mem : registerRow 0b0000000 0b101 0b0110011 .srl ∈ opcodeTable :=
  List.getElem_mem (l := opcodeTable) (n := 34) (by decide)

theorem registerRow_sll_mem : registerRow 0b0000000 0b001 0b0110011 .sll ∈ opcodeTable :=
  List.getElem_mem (l := opcodeTable) (n := 35) (by decide)

namespace Machine

/-! ### The word with a shift's exact reading -/

theorem eq_shiftLeft_iff (v a : Word) (n : BitVec 5) :
    v = shiftLeft a n ↔ v.toNat = a.toNat * 2 ^ n.toNat % 2 ^ 32 := by
  rw [← shiftLeft_toNat, BitVec.toNat_inj]

theorem eq_shiftRightLogical_iff (v a : Word) (n : BitVec 5) :
    v = shiftRightLogical a n ↔ v.toNat = a.toNat / 2 ^ n.toNat := by
  rw [← shiftRightLogical_toNat, BitVec.toNat_inj]

theorem eq_shiftRightArith_iff (v a : Word) (n : BitVec 5) :
    v = shiftRightArith a n ↔ v.toInt = a.toInt / 2 ^ n.toNat := by
  rw [← shiftRightArith_toInt, BitVec.toInt_inj]

/-! ### What the register shifts do -/

/-- Settles O39: each word decodes by its row of the table, and each meaning sets `rd` to the one word
with the stated reading, the amount being the low five bits of `x[rs2]`. -/
theorem registerShiftResults : Obligations.RegisterShiftResults := by
  intro s rd rs1 rs2 n left logical arith hn hleft hlogical harith
  rw [← shiftAmount_toNat] at hn
  subst hn
  obtain rfl := (eq_shiftLeft_iff ..).mpr hleft
  obtain rfl := (eq_shiftRightLogical_iff ..).mpr hlogical
  obtain rfl := (eq_shiftRightArith_iff ..).mpr harith
  have hsra : exec (.sra rd rs1 rs2) s = setRegister rd
      (shiftRightArith (readReg s rs1) (shiftAmount (readReg s rs2))) s := rfl
  have hsrl : exec (.srl rd rs1 rs2) s = setRegister rd
      (shiftRightLogical (readReg s rs1) (shiftAmount (readReg s rs2))) s := rfl
  have hsll : exec (.sll rd rs1 rs2) s = setRegister rd
      (shiftLeft (readReg s rs1) (shiftAmount (readReg s rs2))) s := rfl
  exact ⟨decode_encodeR registerRow_sra_mem rd rs1 rs2, registerResult_of_setRegister hsra,
    decode_encodeR registerRow_srl_mem rd rs1 rs2, registerResult_of_setRegister hsrl,
    decode_encodeR registerRow_sll_mem rd rs1 rs2, registerResult_of_setRegister hsll⟩

end Machine

end Sys2Proof
end

section
/-! What a step does to the CSR cells that a trap writes (`60_exceptions.md` R350, R351): the trap entry
by exception, and, without a trap, only a CSR instruction that writes them (`10_state.md` R85). -/

namespace Sys2Proof.Machine

/-! ### The trap entry by exception -/

/-- R351 on the trap entry: EBREAK and the three ECALLs record the next pc, the seven other exceptions
the pc itself. -/
theorem takeTrap_mcause_mepc (e : Exception) (s : State) :
    (takeTrap e s).csrs.mcause.toNat ∈ [0, 1, 2, 4, 5, 6, 7] ∧ (takeTrap e s).csrs.mepc = s.pc ∨
      (takeTrap e s).csrs.mcause.toNat ∈ [3, 8, 9, 11] ∧
        (takeTrap e s).csrs.mepc = s.pc + 4#32 := by
  cases e with
  | breakpoint | ecallU | ecallS | ecallM => exact .inr ⟨by simp [exceptionCode], rfl⟩
  | instrAddrMisaligned | instrAccessFault | illegalInstr | loadAddrMisaligned | loadAccessFault
  | storeAddrMisaligned | storeAccessFault => exact .inl ⟨by simp [exceptionCode], rfl⟩

/-! ### The CSR cells after an instruction -/

/-- What an instruction that goes on can have done to the CSR cells: taken a trap, left them all, or put
a value into the one CSR that it writes (R85). -/
theorem exec_csrs_cases {i : Instr} {s t : State} (h : exec i s = .next t) :
    (∃ e, t = takeTrap e s) ∨ t.csrs = s.csrs ∨
    ∃ c v, csrAccess i = some (csrAddress c, true) ∧ csrReadOnly c = false ∧
      t.csrs = (putCsr c v s).csrs := by
  have ht {u : State} (hu : exec i s = .next u) : t = u := Host.Outcome.next.inj (h.symm.trans hu)
  rcases exec_cases i s with ⟨e, hu⟩ | ⟨rd, v, p, -, -, -, -, hu⟩ | ⟨p, -, -, -, hu⟩ |
    ⟨m, rs1, rd, -, hu⟩ | ⟨ea, bs, -, -, -, hu⟩ | ⟨rd, c, v, -, -, hacc, hro, -, hu⟩
  · exact .inl ⟨e, ht hu⟩
  · exact .inr (.inl (by rw [ht hu, retireTo_csrs, writeReg_csrs]))
  · exact .inr (.inl (by rw [ht hu, retireTo_csrs]))
  · exact .inr (.inl (by rw [ht hu, retire_csrs, flushFetchView_csrs]))
  · exact .inr (.inl (by rw [ht hu, retire_csrs, storeBytes_csrs]))
  · refine .inr (.inr ⟨c, v, hacc, hro, ?_⟩)
    rw [ht hu]
    split
    · rw [retireUncounted_csrs, writeReg_csrs]
    · rw [retire_csrs, writeReg_csrs]

/-- An instruction that takes no trap leaves a CSR cell, unless it is a CSR instruction that writes that
cell. -/
theorem exec_readCsr_cases {i : Instr} {s t : State} (h : exec i s = .next t) :
    (∃ e, t = takeTrap e s) ∨
    ∀ d, d ∉ counterCsrs →
      readCsr d t = readCsr d s ∨ csrAccess i = some (csrAddress d, true) := by
  obtain htrap | hkeep | ⟨c, v, hacc, -, hput⟩ := exec_csrs_cases h
  · exact .inl htrap
  · exact .inr fun d hd => .inl (readCsr_congr hd hkeep)
  · refine .inr fun d hd => ?_
    by_cases hdc : d = c
    · exact .inr (hdc ▸ hacc)
    · exact .inl ((readCsr_congr hd hput).trans (readCsr_putCsr_ne hdc hd v s))

/-! ### What a step leaves in `mepc` and `mcause` -/

/-- Settles O14: a step traps before execution, traps in its instruction, or executes one that changes
`mepc` and `mcause` only by writing them; both kinds of trap are the one trap entry. -/
theorem trapsRecordPcOrNextPc : Obligations.TrapsRecordPcOrNextPc := by
  intro s t h
  obtain ⟨e, -, rfl⟩ | ⟨i, u, hi, hu, rfl⟩ := step_cases h
  · exact .inl ⟨e, rfl, takeTrap_mcause_mepc e s⟩
  · obtain ⟨e, rfl⟩ | hcell := exec_readCsr_cases hu
    · exact .inl ⟨e, rfl, takeTrap_mcause_mepc e s⟩
    · exact .inr ⟨i, hi, hcell .mepc (by decide), hcell .mcause (by decide)⟩

end Sys2Proof.Machine
end

section
/-! The encoding as a whole (`30_encoding.md` R160 to R171): the table by formats, the round trip in
both directions, and the illegal words. -/

namespace Sys2Proof

/-! ### The table by formats -/

/-- The table's row of the store `mk` with this `funct3`. -/
def storeRow (f3 : BitVec 3) (mk : RegNum → BitVec 12 → RegNum → Instr) : Row :=
  ⟨0x0000707F, encodeS 0 0 0 f3 0x23, fun w => mk (rs2Of w) (immSOf w) (rs1Of w)⟩

/-- The table's row of FENCE, whose immediate has three parts (R155). -/
def fenceRow : Row :=
  ⟨0x0000707F, encodeI 0 0 0 0 0x0F,
    fun w => .fence (fmOf w) (predOf w) (succOf w) (rs1Of w) (rdOf w)⟩

/-- The table's row of an instruction that is one word. -/
def wordRow (pat : Word) (i : Instr) : Row := ⟨0xFFFFFFFF, pat, fun _ => i⟩

/-- The 47 rows, each by its format. -/
theorem opcodeTable_eq : opcodeTable = [
    branchRow 0b001 .bne, branchRow 0b000 .beq, branchRow 0b100 .blt, branchRow 0b101 .bge,
    branchRow 0b110 .bltu, branchRow 0b111 .bgeu, upperRow 0x17 .auipc,
    registerRow 0x00 0b010 0x33 .slt, registerRow 0x00 0b011 0x33 .sltu,
    immediateRow 0b010 0x13 .slti, immediateRow 0b011 0x13 .sltiu, upperRow 0x37 .lui,
    registerRow 0x00 0b000 0x33 .add, registerRow 0x20 0b000 0x33 .sub,
    immediateRow 0b000 0x13 .addi, jalRow, immediateRow 0b000 0x67 .jalr,
    registerRow 0x00 0b100 0x33 .xor, registerRow 0x00 0b110 0x33 .or,
    registerRow 0x00 0b111 0x33 .and, immediateRow 0b110 0x13 .ori, immediateRow 0b100 0x13 .xori,
    immediateRow 0b111 0x13 .andi, storeRow 0b010 .sw,
    immediateRow 0b000 0x03 fun rd rs1 imm => .lb rd imm rs1,
    immediateRow 0b001 0x03 fun rd rs1 imm => .lh rd imm rs1,
    immediateRow 0b010 0x03 fun rd rs1 imm => .lw rd imm rs1,
    immediateRow 0b100 0x03 fun rd rs1 imm => .lbu rd imm rs1,
    immediateRow 0b101 0x03 fun rd rs1 imm => .lhu rd imm rs1,
    storeRow 0b000 .sb, storeRow 0b001 .sh,
    registerRow 0x20 0b101 0x13 .srai, registerRow 0x00 0b001 0x13 .slli,
    registerRow 0x20 0b101 0x33 .sra, registerRow 0x00 0b101 0x33 .srl,
    registerRow 0x00 0b001 0x33 .sll, registerRow 0x00 0b101 0x13 .srli,
    immediateRow 0b001 0x0F fun rd rs1 imm => .fencei imm rs1 rd, fenceRow,
    immediateRow 0b111 0x73 fun rd rs1 imm => .csrrci rd imm rs1,
    wordRow 0x00000073 .ecall, wordRow 0x00100073 .ebreak,
    immediateRow 0b001 0x73 fun rd rs1 imm => .csrrw rd imm rs1,
    immediateRow 0b010 0x73 fun rd rs1 imm => .csrrs rd imm rs1,
    immediateRow 0b011 0x73 fun rd rs1 imm => .csrrc rd imm rs1,
    immediateRow 0b101 0x73 fun rd rs1 imm => .csrrwi rd imm rs1,
    immediateRow 0b110 0x73 fun rd rs1 imm => .csrrsi rd imm rs1] := rfl

/-! ### The opcode and the function fields of a format -/

section
variable (f7 : BitVec 7) (rs2 rs1 rd : RegNum) (f3 : BitVec 3) (op : BitVec 7)

theorem opcodeOf_encodeR : opcodeOf (encodeR f7 rs2 rs1 f3 rd op) = op := by
  apply BitVec.eq_of_getLsbD_eq
  intro i hi
  simp only [opcodeOf, encodeR, BitVec.getLsbD_extractLsb', BitVec.getLsbD_append]
  interval_cases i <;> simp

theorem opcodeOf_encodeI (imm : BitVec 12) : opcodeOf (encodeI imm rs1 f3 rd op) = op := by
  apply BitVec.eq_of_getLsbD_eq
  intro i hi
  simp only [opcodeOf, encodeI, BitVec.getLsbD_extractLsb', BitVec.getLsbD_append]
  interval_cases i <;> simp

theorem opcodeOf_encodeU (imm20 : BitVec 20) : opcodeOf (encodeU imm20 rd op) = op := by
  apply BitVec.eq_of_getLsbD_eq
  intro i hi
  simp only [opcodeOf, encodeU, BitVec.getLsbD_extractLsb', BitVec.getLsbD_append]
  interval_cases i <;> simp

theorem funct3Of_encodeR : funct3Of (encodeR f7 rs2 rs1 f3 rd op) = f3 := by
  apply BitVec.eq_of_getLsbD_eq
  intro i hi
  simp only [funct3Of, encodeR, BitVec.getLsbD_extractLsb', BitVec.getLsbD_append]
  interval_cases i <;> simp

theorem funct3Of_encodeI (imm : BitVec 12) : funct3Of (encodeI imm rs1 f3 rd op) = f3 := by
  apply BitVec.eq_of_getLsbD_eq
  intro i hi
  simp only [funct3Of, encodeI, BitVec.getLsbD_extractLsb', BitVec.getLsbD_append]
  interval_cases i <;> simp

theorem funct7Of_encodeR : funct7Of (encodeR f7 rs2 rs1 f3 rd op) = f7 := by
  apply BitVec.eq_of_getLsbD_eq
  intro i hi
  simp only [funct7Of, encodeR, BitVec.getLsbD_extractLsb', BitVec.getLsbD_append]
  interval_cases i <;> simp

/-- With no operands the I-, S- and B-type words hold the same fixed bits. -/
theorem encodeS_zero : encodeS 0 0 0 f3 op = encodeI 0 0 f3 0 op := by
  apply BitVec.eq_of_getLsbD_eq
  intro i hi
  simp only [encodeS, encodeI, BitVec.getLsbD_extractLsb', BitVec.getLsbD_append]
  interval_cases i <;> simp

theorem encodeB_zero : encodeB 0 0 0 f3 op = encodeI 0 0 f3 0 op := by
  apply BitVec.eq_of_getLsbD_eq
  intro i hi
  simp only [encodeB, encodeI, BitVec.getLsbD_extractLsb', BitVec.getLsbD_append]
  interval_cases i <;> simp

theorem encodeJ_zero : encodeJ 0 0 op = encodeU 0 0 op := by
  apply BitVec.eq_of_getLsbD_eq
  intro i hi
  simp only [encodeJ, encodeU, BitVec.getLsbD_extractLsb', BitVec.getLsbD_append]
  interval_cases i <;> simp

end

/-! ### A word is its fields, in every format -/

section
variable (w : Word)

theorem encodeR_fields :
    encodeR (funct7Of w) (rs2Of w) (rs1Of w) (funct3Of w) (rdOf w) (opcodeOf w) = w := by
  apply BitVec.eq_of_getLsbD_eq
  intro i hi
  simp only [encodeR, funct7Of, rs2Of, rs1Of, funct3Of, rdOf, opcodeOf,
    BitVec.getLsbD_extractLsb', BitVec.getLsbD_append]
  interval_cases i <;> simp

theorem encodeI_fields : encodeI (immIOf w) (rs1Of w) (funct3Of w) (rdOf w) (opcodeOf w) = w := by
  apply BitVec.eq_of_getLsbD_eq
  intro i hi
  simp only [encodeI, immIOf, rs1Of, funct3Of, rdOf, opcodeOf,
    BitVec.getLsbD_extractLsb', BitVec.getLsbD_append]
  interval_cases i <;> simp

theorem encodeS_fields : encodeS (immSOf w) (rs2Of w) (rs1Of w) (funct3Of w) (opcodeOf w) = w := by
  apply BitVec.eq_of_getLsbD_eq
  intro i hi
  simp only [encodeS, immSOf, rs2Of, rs1Of, funct3Of, opcodeOf,
    BitVec.getLsbD_extractLsb', BitVec.getLsbD_append]
  interval_cases i <;> simp

theorem encodeB_fields : encodeB (immBOf w) (rs2Of w) (rs1Of w) (funct3Of w) (opcodeOf w) = w := by
  apply BitVec.eq_of_getLsbD_eq
  intro i hi
  simp only [encodeB, immBOf, rs2Of, rs1Of, funct3Of, opcodeOf,
    BitVec.getLsbD_extractLsb', BitVec.getLsbD_append]
  interval_cases i <;> simp

theorem encodeU_fields : encodeU (immUOf w) (rdOf w) (opcodeOf w) = w := by
  apply BitVec.eq_of_getLsbD_eq
  intro i hi
  simp only [encodeU, immUOf, rdOf, opcodeOf,
    BitVec.getLsbD_extractLsb', BitVec.getLsbD_append]
  interval_cases i <;> simp

theorem encodeJ_fields : encodeJ (immJOf w) (rdOf w) (opcodeOf w) = w := by
  apply BitVec.eq_of_getLsbD_eq
  intro i hi
  simp only [encodeJ, immJOf, rdOf, opcodeOf,
    BitVec.getLsbD_extractLsb', BitVec.getLsbD_append]
  interval_cases i <;> simp

theorem fenceFields_append : fmOf w ++ predOf w ++ succOf w = immIOf w := by
  apply BitVec.eq_of_getLsbD_eq
  intro i hi
  simp only [fmOf, predOf, succOf, immIOf, BitVec.getLsbD_extractLsb', BitVec.getLsbD_append]
  interval_cases i <;> simp

end

/-! ### The fields that a matching row fixes -/

section
variable (w : Word) {f7 : BitVec 7} {f3 : BitVec 3} {op : BitVec 7}

theorem and_registerMask_eq_iff : w &&& 0xFE00707F#32 = encodeR f7 0 0 f3 0 op ↔
    opcodeOf w = op ∧ funct3Of w = f3 ∧ funct7Of w = f7 := by
  have hw : w &&& 0xFE00707F#32 = encodeR (funct7Of w) 0 0 (funct3Of w) 0 (opcodeOf w) :=
    (congrArg (· &&& 0xFE00707F#32) (encodeR_fields w)).symm.trans (encodeR_fixed ..)
  rw [hw]
  constructor
  · intro h
    exact ⟨by simpa only [opcodeOf_encodeR] using congrArg opcodeOf h,
      by simpa only [funct3Of_encodeR] using congrArg funct3Of h,
      by simpa only [funct7Of_encodeR] using congrArg funct7Of h⟩
  · rintro ⟨rfl, rfl, rfl⟩
    rfl

theorem and_immediateMask_eq_iff : w &&& 0x0000707F#32 = encodeI 0 0 f3 0 op ↔
    opcodeOf w = op ∧ funct3Of w = f3 := by
  have hw : w &&& 0x0000707F#32 = encodeI 0 0 (funct3Of w) 0 (opcodeOf w) :=
    (congrArg (· &&& 0x0000707F#32) (encodeI_fields w)).symm.trans (encodeI_fixed ..)
  rw [hw]
  constructor
  · intro h
    exact ⟨by simpa only [opcodeOf_encodeI] using congrArg opcodeOf h,
      by simpa only [funct3Of_encodeI] using congrArg funct3Of h⟩
  · rintro ⟨rfl, rfl⟩
    rfl

theorem and_upperMask_eq_iff : w &&& 0x0000007F#32 = encodeU 0 0 op ↔ opcodeOf w = op := by
  have hw : w &&& 0x0000007F#32 = encodeU 0 0 (opcodeOf w) :=
    (congrArg (· &&& 0x0000007F#32) (encodeU_fields w)).symm.trans (encodeU_fixed ..)
  rw [hw]
  constructor
  · intro h
    simpa only [opcodeOf_encodeU] using congrArg opcodeOf h
  · rintro rfl
    rfl

theorem and_storeMask_eq_iff : w &&& 0x0000707F#32 = encodeS 0 0 0 f3 op ↔
    opcodeOf w = op ∧ funct3Of w = f3 := by
  rw [encodeS_zero, and_immediateMask_eq_iff]

theorem and_branchMask_eq_iff : w &&& 0x0000707F#32 = encodeB 0 0 0 f3 op ↔
    opcodeOf w = op ∧ funct3Of w = f3 := by
  rw [encodeB_zero, and_immediateMask_eq_iff]

theorem and_jumpMask_eq_iff : w &&& 0x0000007F#32 = encodeJ 0 0 op ↔ opcodeOf w = op := by
  rw [encodeJ_zero, and_upperMask_eq_iff]

theorem and_fullMask (w : Word) : w &&& 0xFFFFFFFF#32 = w := BitVec.and_allOnes

end

/-! ### From a word to its instruction and back -/

/-- Every word that matches the row is the encoding of the row's instruction, which is well formed.
-/
def Row.RoundTrips (r : Row) : Prop :=
  ∀ w, w &&& r.mask = r.pat → encode (r.build w) = w ∧ (r.build w).wellFormed = true

theorem registerRow_roundTrips {f7 : BitVec 7} {f3 : BitVec 3} {op : BitVec 7}
    {mk : RegNum → RegNum → RegNum → Instr}
    (he : ∀ rd rs1 rs2, encode (mk rd rs1 rs2) = encodeR f7 rs2 rs1 f3 rd op)
    (hw : ∀ rd rs1 rs2, (mk rd rs1 rs2).wellFormed = true) :
    (registerRow f7 f3 op mk).RoundTrips := by
  intro w h
  obtain ⟨rfl, rfl, rfl⟩ := (and_registerMask_eq_iff w).mp h
  exact ⟨(he ..).trans (encodeR_fields w), hw ..⟩

theorem immediateRow_roundTrips {f3 : BitVec 3} {op : BitVec 7}
    {mk : RegNum → RegNum → BitVec 12 → Instr}
    (he : ∀ rd rs1 imm, encode (mk rd rs1 imm) = encodeI imm rs1 f3 rd op)
    (hw : ∀ rd rs1 imm, (mk rd rs1 imm).wellFormed = true) :
    (immediateRow f3 op mk).RoundTrips := by
  intro w h
  obtain ⟨rfl, rfl⟩ := (and_immediateMask_eq_iff w).mp h
  exact ⟨(he ..).trans (encodeI_fields w), hw ..⟩

theorem upperRow_roundTrips {op : BitVec 7} {mk : RegNum → BitVec 20 → Instr}
    (he : ∀ rd imm, encode (mk rd imm) = encodeU imm rd op)
    (hw : ∀ rd imm, (mk rd imm).wellFormed = true) : (upperRow op mk).RoundTrips := by
  intro w h
  obtain rfl := (and_upperMask_eq_iff w).mp h
  exact ⟨(he ..).trans (encodeU_fields w), hw ..⟩

theorem storeRow_roundTrips {f3 : BitVec 3} {mk : RegNum → BitVec 12 → RegNum → Instr}
    (he : ∀ rs2 off rs1, encode (mk rs2 off rs1) = encodeS off rs2 rs1 f3 0x23)
    (hw : ∀ rs2 off rs1, (mk rs2 off rs1).wellFormed = true) : (storeRow f3 mk).RoundTrips := by
  intro w h
  obtain ⟨hop, rfl⟩ := (and_storeMask_eq_iff w).mp h
  exact ⟨(he ..).trans (hop ▸ encodeS_fields w), hw ..⟩

theorem branchRow_roundTrips {f3 : BitVec 3} {mk : RegNum → RegNum → BitVec 13 → Instr}
    (he : ∀ rs1 rs2 off, encode (mk rs1 rs2 off) = encodeB off rs2 rs1 f3 0x63)
    (hw : ∀ rs1 rs2 off, (mk rs1 rs2 off).wellFormed = evenOffset off) :
    (branchRow f3 mk).RoundTrips := by
  intro w h
  obtain ⟨hop, rfl⟩ := (and_branchMask_eq_iff w).mp h
  exact ⟨(he ..).trans (hop ▸ encodeB_fields w), (hw ..).trans (evenOffset_append_zeroBit _)⟩

theorem jalRow_roundTrips : jalRow.RoundTrips := by
  intro w h
  have hop := (and_jumpMask_eq_iff w).mp h
  have he : encodeJ (immJOf w) (rdOf w) 0x6F = w := hop ▸ encodeJ_fields w
  exact ⟨he, evenOffset_append_zeroBit _⟩

theorem fenceRow_roundTrips : fenceRow.RoundTrips := by
  intro w h
  obtain ⟨hop, hf3⟩ := (and_immediateMask_eq_iff w).mp h
  have he : encodeI (fmOf w ++ predOf w ++ succOf w) (rs1Of w) 0 (rdOf w) 0x0F = w := by
    rw [fenceFields_append, ← hop, ← hf3, encodeI_fields]
  exact ⟨he, rfl⟩

theorem wordRow_roundTrips {pat : Word} {i : Instr} (he : encode i = pat)
    (hw : i.wellFormed = true) : (wordRow pat i).RoundTrips :=
  fun w h => ⟨he.trans (h.symm.trans (and_fullMask w)), hw⟩

/-- Every row of the table keeps every bit of a word that it matches. -/
theorem opcodeTable_roundTrips : ∀ r ∈ opcodeTable, r.RoundTrips := by
  rw [opcodeTable_eq]
  simp only [List.forall_mem_cons]
  exact ⟨branchRow_roundTrips (fun _ _ _ => rfl) (fun _ _ _ => rfl),
    branchRow_roundTrips (fun _ _ _ => rfl) (fun _ _ _ => rfl),
    branchRow_roundTrips (fun _ _ _ => rfl) (fun _ _ _ => rfl),
    branchRow_roundTrips (fun _ _ _ => rfl) (fun _ _ _ => rfl),
    branchRow_roundTrips (fun _ _ _ => rfl) (fun _ _ _ => rfl),
    branchRow_roundTrips (fun _ _ _ => rfl) (fun _ _ _ => rfl),
    upperRow_roundTrips (fun _ _ => rfl) (fun _ _ => rfl),
    registerRow_roundTrips (fun _ _ _ => rfl) (fun _ _ _ => rfl),
    registerRow_roundTrips (fun _ _ _ => rfl) (fun _ _ _ => rfl),
    immediateRow_roundTrips (fun _ _ _ => rfl) (fun _ _ _ => rfl),
    immediateRow_roundTrips (fun _ _ _ => rfl) (fun _ _ _ => rfl),
    upperRow_roundTrips (fun _ _ => rfl) (fun _ _ => rfl),
    registerRow_roundTrips (fun _ _ _ => rfl) (fun _ _ _ => rfl),
    registerRow_roundTrips (fun _ _ _ => rfl) (fun _ _ _ => rfl),
    immediateRow_roundTrips (fun _ _ _ => rfl) (fun _ _ _ => rfl),
    jalRow_roundTrips,
    immediateRow_roundTrips (fun _ _ _ => rfl) (fun _ _ _ => rfl),
    registerRow_roundTrips (fun _ _ _ => rfl) (fun _ _ _ => rfl),
    registerRow_roundTrips (fun _ _ _ => rfl) (fun _ _ _ => rfl),
    registerRow_roundTrips (fun _ _ _ => rfl) (fun _ _ _ => rfl),
    immediateRow_roundTrips (fun _ _ _ => rfl) (fun _ _ _ => rfl),
    immediateRow_roundTrips (fun _ _ _ => rfl) (fun _ _ _ => rfl),
    immediateRow_roundTrips (fun _ _ _ => rfl) (fun _ _ _ => rfl),
    storeRow_roundTrips (fun _ _ _ => rfl) (fun _ _ _ => rfl),
    immediateRow_roundTrips (fun _ _ _ => rfl) (fun _ _ _ => rfl),
    immediateRow_roundTrips (fun _ _ _ => rfl) (fun _ _ _ => rfl),
    immediateRow_roundTrips (fun _ _ _ => rfl) (fun _ _ _ => rfl),
    immediateRow_roundTrips (fun _ _ _ => rfl) (fun _ _ _ => rfl),
    immediateRow_roundTrips (fun _ _ _ => rfl) (fun _ _ _ => rfl),
    storeRow_roundTrips (fun _ _ _ => rfl) (fun _ _ _ => rfl),
    storeRow_roundTrips (fun _ _ _ => rfl) (fun _ _ _ => rfl),
    registerRow_roundTrips (fun _ _ _ => rfl) (fun _ _ _ => rfl),
    registerRow_roundTrips (fun _ _ _ => rfl) (fun _ _ _ => rfl),
    registerRow_roundTrips (fun _ _ _ => rfl) (fun _ _ _ => rfl),
    registerRow_roundTrips (fun _ _ _ => rfl) (fun _ _ _ => rfl),
    registerRow_roundTrips (fun _ _ _ => rfl) (fun _ _ _ => rfl),
    registerRow_roundTrips (fun _ _ _ => rfl) (fun _ _ _ => rfl),
    immediateRow_roundTrips (fun _ _ _ => rfl) (fun _ _ _ => rfl),
    fenceRow_roundTrips,
    immediateRow_roundTrips (fun _ _ _ => rfl) (fun _ _ _ => rfl),
    wordRow_roundTrips rfl rfl,
    wordRow_roundTrips rfl rfl,
    immediateRow_roundTrips (fun _ _ _ => rfl) (fun _ _ _ => rfl),
    immediateRow_roundTrips (fun _ _ _ => rfl) (fun _ _ _ => rfl),
    immediateRow_roundTrips (fun _ _ _ => rfl) (fun _ _ _ => rfl),
    immediateRow_roundTrips (fun _ _ _ => rfl) (fun _ _ _ => rfl),
    immediateRow_roundTrips (fun _ _ _ => rfl) (fun _ _ _ => rfl),
    List.forall_mem_nil _⟩

/-! ### The rows of the other instructions -/

theorem immediateRow_jalr_mem : immediateRow 0b000 0x67 .jalr ∈ opcodeTable :=
  List.getElem_mem (l := opcodeTable) (n := 16) (by decide)

theorem storeRow_sw_mem : storeRow 0b010 .sw ∈ opcodeTable :=
  List.getElem_mem (l := opcodeTable) (n := 23) (by decide)

theorem immediateRow_lb_mem :
    immediateRow 0b000 0x03 (fun rd rs1 imm => .lb rd imm rs1) ∈ opcodeTable :=
  List.getElem_mem (l := opcodeTable) (n := 24) (by decide)

theorem immediateRow_lh_mem :
    immediateRow 0b001 0x03 (fun rd rs1 imm => .lh rd imm rs1) ∈ opcodeTable :=
  List.getElem_mem (l := opcodeTable) (n := 25) (by decide)

theorem immediateRow_lw_mem :
    immediateRow 0b010 0x03 (fun rd rs1 imm => .lw rd imm rs1) ∈ opcodeTable :=
  List.getElem_mem (l := opcodeTable) (n := 26) (by decide)

theorem immediateRow_lbu_mem :
    immediateRow 0b100 0x03 (fun rd rs1 imm => .lbu rd imm rs1) ∈ opcodeTable :=
  List.getElem_mem (l := opcodeTable) (n := 27) (by decide)

theorem immediateRow_lhu_mem :
    immediateRow 0b101 0x03 (fun rd rs1 imm => .lhu rd imm rs1) ∈ opcodeTable :=
  List.getElem_mem (l := opcodeTable) (n := 28) (by decide)

theorem storeRow_sb_mem : storeRow 0b000 .sb ∈ opcodeTable :=
  List.getElem_mem (l := opcodeTable) (n := 29) (by decide)

theorem storeRow_sh_mem : storeRow 0b001 .sh ∈ opcodeTable :=
  List.getElem_mem (l := opcodeTable) (n := 30) (by decide)

theorem registerRow_srai_mem : registerRow 0x20 0b101 0x13 .srai ∈ opcodeTable :=
  List.getElem_mem (l := opcodeTable) (n := 31) (by decide)

theorem registerRow_slli_mem : registerRow 0x00 0b001 0x13 .slli ∈ opcodeTable :=
  List.getElem_mem (l := opcodeTable) (n := 32) (by decide)

theorem registerRow_srli_mem : registerRow 0x00 0b101 0x13 .srli ∈ opcodeTable :=
  List.getElem_mem (l := opcodeTable) (n := 36) (by decide)

theorem immediateRow_fencei_mem :
    immediateRow 0b001 0x0F (fun rd rs1 imm => .fencei imm rs1 rd) ∈ opcodeTable :=
  List.getElem_mem (l := opcodeTable) (n := 37) (by decide)

theorem immediateRow_csrrci_mem :
    immediateRow 0b111 0x73 (fun rd rs1 csr => .csrrci rd csr rs1) ∈ opcodeTable :=
  List.getElem_mem (l := opcodeTable) (n := 39) (by decide)

theorem immediateRow_csrrw_mem :
    immediateRow 0b001 0x73 (fun rd rs1 csr => .csrrw rd csr rs1) ∈ opcodeTable :=
  List.getElem_mem (l := opcodeTable) (n := 42) (by decide)

theorem immediateRow_csrrs_mem :
    immediateRow 0b010 0x73 (fun rd rs1 csr => .csrrs rd csr rs1) ∈ opcodeTable :=
  List.getElem_mem (l := opcodeTable) (n := 43) (by decide)

theorem immediateRow_csrrc_mem :
    immediateRow 0b011 0x73 (fun rd rs1 csr => .csrrc rd csr rs1) ∈ opcodeTable :=
  List.getElem_mem (l := opcodeTable) (n := 44) (by decide)

theorem immediateRow_csrrwi_mem :
    immediateRow 0b101 0x73 (fun rd rs1 csr => .csrrwi rd csr rs1) ∈ opcodeTable :=
  List.getElem_mem (l := opcodeTable) (n := 45) (by decide)

theorem immediateRow_csrrsi_mem :
    immediateRow 0b110 0x73 (fun rd rs1 csr => .csrrsi rd csr rs1) ∈ opcodeTable :=
  List.getElem_mem (l := opcodeTable) (n := 46) (by decide)

theorem fenceRow_mem : fenceRow ∈ opcodeTable :=
  List.getElem_mem (l := opcodeTable) (n := 38) (by decide)

theorem wordRow_ecall_mem : wordRow 0x00000073 .ecall ∈ opcodeTable :=
  List.getElem_mem (l := opcodeTable) (n := 40) (by decide)

theorem wordRow_ebreak_mem : wordRow 0x00100073 .ebreak ∈ opcodeTable :=
  List.getElem_mem (l := opcodeTable) (n := 41) (by decide)

/-- The word of a store decodes by its row to the operands that were encoded. -/
theorem decode_encodeS {f3 : BitVec 3} {mk : RegNum → BitVec 12 → RegNum → Instr}
    (hr : storeRow f3 mk ∈ opcodeTable) (rs2 rs1 : RegNum) (off : BitVec 12) :
    decode (encodeS off rs2 rs1 f3 0x23) = .ok (mk rs2 off rs1) := by
  have hw : encodeS off rs2 rs1 f3 0x23 &&& (storeRow f3 mk).mask = (storeRow f3 mk).pat :=
    encodeS_fixed ..
  rw [decode_of_row hr hw]
  simp only [storeRow, rs1Of_encodeS, rs2Of_encodeS, immSOf_encodeS]

/-- The word of FENCE decodes to the fields that were encoded, whatever they hold (R167). -/
theorem decode_encodeI_fence (fm pred succ : BitVec 4) (rs1 rd : RegNum) :
    decode (encodeI (fm ++ pred ++ succ) rs1 0b000 rd 0x0F) = .ok (.fence fm pred succ rs1 rd) := by
  have hw : encodeI (fm ++ pred ++ succ) rs1 0b000 rd 0x0F &&& fenceRow.mask = fenceRow.pat :=
    encodeI_fixed ..
  rw [decode_of_row fenceRow_mem hw]
  simp only [fenceRow, fmOf_encodeI_fence, predOf_encodeI_fence, succOf_encodeI_fence,
    rs1Of_encodeI, rdOf_encodeI]

theorem decode_ecall : decode 0x00000073#32 = .ok .ecall := decode_of_row wordRow_ecall_mem rfl

theorem decode_ebreak : decode 0x00100073#32 = .ok .ebreak := decode_of_row wordRow_ebreak_mem rfl

/-- Settles O1: the encoder writes each instruction in the format of its row, and the row reads
every operand back. -/
theorem decodeEncodeRoundTrip : Obligations.DecodeEncodeRoundTrip := by
  intro i h
  cases i with
  | bne rs1 rs2 off => exact decode_encodeB branchRow_bne_mem rs1 rs2 h
  | beq rs1 rs2 off => exact decode_encodeB branchRow_beq_mem rs1 rs2 h
  | blt rs1 rs2 off => exact decode_encodeB branchRow_blt_mem rs1 rs2 h
  | bge rs1 rs2 off => exact decode_encodeB branchRow_bge_mem rs1 rs2 h
  | bltu rs1 rs2 off => exact decode_encodeB branchRow_bltu_mem rs1 rs2 h
  | bgeu rs1 rs2 off => exact decode_encodeB branchRow_bgeu_mem rs1 rs2 h
  | auipc rd imm => exact decode_encodeU upperRow_auipc_mem rd imm
  | slt rd rs1 rs2 => exact decode_encodeR registerRow_slt_mem rd rs1 rs2
  | sltu rd rs1 rs2 => exact decode_encodeR registerRow_sltu_mem rd rs1 rs2
  | slti rd rs1 imm => exact decode_encodeI immediateRow_slti_mem rd rs1 imm
  | sltiu rd rs1 imm => exact decode_encodeI immediateRow_sltiu_mem rd rs1 imm
  | lui rd imm => exact decode_encodeU upperRow_lui_mem rd imm
  | add rd rs1 rs2 => exact decode_encodeR registerRow_add_mem rd rs1 rs2
  | sub rd rs1 rs2 => exact decode_encodeR registerRow_sub_mem rd rs1 rs2
  | addi rd rs1 imm => exact decode_encodeI immediateRow_addi_mem rd rs1 imm
  | jal rd off => exact decode_encodeJ rd h
  | jalr rd rs1 imm => exact decode_encodeI immediateRow_jalr_mem rd rs1 imm
  | xor rd rs1 rs2 => exact decode_encodeR registerRow_xor_mem rd rs1 rs2
  | or rd rs1 rs2 => exact decode_encodeR registerRow_or_mem rd rs1 rs2
  | and rd rs1 rs2 => exact decode_encodeR registerRow_and_mem rd rs1 rs2
  | ori rd rs1 imm => exact decode_encodeI immediateRow_ori_mem rd rs1 imm
  | xori rd rs1 imm => exact decode_encodeI immediateRow_xori_mem rd rs1 imm
  | andi rd rs1 imm => exact decode_encodeI immediateRow_andi_mem rd rs1 imm
  | sw rs2 off rs1 => exact decode_encodeS storeRow_sw_mem rs2 rs1 off
  | lb rd imm rs1 => exact decode_encodeI immediateRow_lb_mem rd rs1 imm
  | lh rd imm rs1 => exact decode_encodeI immediateRow_lh_mem rd rs1 imm
  | lw rd imm rs1 => exact decode_encodeI immediateRow_lw_mem rd rs1 imm
  | lbu rd imm rs1 => exact decode_encodeI immediateRow_lbu_mem rd rs1 imm
  | lhu rd imm rs1 => exact decode_encodeI immediateRow_lhu_mem rd rs1 imm
  | sb rs2 off rs1 => exact decode_encodeS storeRow_sb_mem rs2 rs1 off
  | sh rs2 off rs1 => exact decode_encodeS storeRow_sh_mem rs2 rs1 off
  | srai rd rs1 rs2 => exact decode_encodeR registerRow_srai_mem rd rs1 rs2
  | slli rd rs1 rs2 => exact decode_encodeR registerRow_slli_mem rd rs1 rs2
  | sra rd rs1 rs2 => exact decode_encodeR registerRow_sra_mem rd rs1 rs2
  | srl rd rs1 rs2 => exact decode_encodeR registerRow_srl_mem rd rs1 rs2
  | sll rd rs1 rs2 => exact decode_encodeR registerRow_sll_mem rd rs1 rs2
  | srli rd rs1 rs2 => exact decode_encodeR registerRow_srli_mem rd rs1 rs2
  | fencei imm rs1 rd => exact decode_encodeI immediateRow_fencei_mem rd rs1 imm
  | fence fm pred succ rs1 rd => exact decode_encodeI_fence fm pred succ rs1 rd
  | csrrci rd imm rs1 => exact decode_encodeI immediateRow_csrrci_mem rd rs1 imm
  | ecall => exact decode_ecall
  | ebreak => exact decode_ebreak
  | csrrw rd imm rs1 => exact decode_encodeI immediateRow_csrrw_mem rd rs1 imm
  | csrrs rd imm rs1 => exact decode_encodeI immediateRow_csrrs_mem rd rs1 imm
  | csrrc rd imm rs1 => exact decode_encodeI immediateRow_csrrc_mem rd rs1 imm
  | csrrwi rd imm rs1 => exact decode_encodeI immediateRow_csrrwi_mem rd rs1 imm
  | csrrsi rd imm rs1 => exact decode_encodeI immediateRow_csrrsi_mem rd rs1 imm

/-- Settles O2: a word that decodes does so by a row that it matches, and every row keeps every bit.
-/
theorem encodeDecodeRoundTrip : Obligations.EncodeDecodeRoundTrip := by
  intro w i h
  obtain ⟨r, hr, hw, hdec⟩ | ⟨-, hdec⟩ := decode_cases w
  · obtain rfl : i = r.build w := Except.ok.inj (h.symm.trans hdec)
    exact opcodeTable_roundTrips r hr w hw
  · cases h.symm.trans hdec

/-! ### Which words decode -/

/-- A word is illegal exactly when it matches no row. -/
theorem decode_error_iff (w : Word) :
    (∃ e, decode w = .error e) ↔ ∀ r ∈ opcodeTable, w &&& r.mask ≠ r.pat := by
  constructor
  · rintro ⟨e, he⟩ r hr hw
    cases he.symm.trans (decode_of_row hr hw)
  · intro hno
    obtain ⟨r, hr, hw, -⟩ | ⟨-, hdec⟩ := decode_cases w
    · exact absurd hw (hno r hr)
    · exact ⟨_, hdec⟩

/-- No word matches two rows of the table, wherever they stand in it. -/
theorem opcodeTable_unique {w : Word} {j k : Nat} (hj : j < opcodeTable.length)
    (hk : k < opcodeTable.length) (hjk : j < k)
    (hwj : w &&& opcodeTable[j].mask = opcodeTable[j].pat) :
    w &&& opcodeTable[k].mask ≠ opcodeTable[k].pat := by
  have hdis := List.pairwise_iff_getElem.mp opcodeTable_disjoint j k hj hk hjk
  simpa [rowMatches] using rowsDisjoint_iff hdis (by simpa [rowMatches] using hwj)

/-- Settles O3: the rows are pairwise disjoint, so the first row that a word matches is the only
one. -/
theorem everyWordMatchesAtMostOneRow : Obligations.EveryWordMatchesAtMostOneRow := by
  refine ⟨rfl, fun w => ⟨fun j k hj hk hwj hwk => ?_,
    fun r hr hw => decode_of_row hr hw, (decode_error_iff w).mpr⟩⟩
  obtain hlt | heq | hgt := Nat.lt_trichotomy j k
  · exact absurd hwk (opcodeTable_unique hj hk hlt hwj)
  · exact heq
  · exact absurd hwj (opcodeTable_unique hk hj hgt hwk)

/-! ### The words of a row, by opcode and function fields -/

theorem branchRow_matches_iff (f3 : BitVec 3) (mk : RegNum → RegNum → BitVec 13 → Instr)
    (w : Word) :
    w &&& (branchRow f3 mk).mask = (branchRow f3 mk).pat ↔ opcodeOf w = 0x63 ∧ funct3Of w = f3 :=
  and_branchMask_eq_iff w

theorem storeRow_matches_iff (f3 : BitVec 3) (mk : RegNum → BitVec 12 → RegNum → Instr) (w : Word) :
    w &&& (storeRow f3 mk).mask = (storeRow f3 mk).pat ↔ opcodeOf w = 0x23 ∧ funct3Of w = f3 :=
  and_storeMask_eq_iff w

theorem immediateRow_matches_iff (f3 : BitVec 3) (op : BitVec 7)
    (mk : RegNum → RegNum → BitVec 12 → Instr) (w : Word) :
    w &&& (immediateRow f3 op mk).mask = (immediateRow f3 op mk).pat ↔
      opcodeOf w = op ∧ funct3Of w = f3 :=
  and_immediateMask_eq_iff w

theorem registerRow_matches_iff (f7 : BitVec 7) (f3 : BitVec 3) (op : BitVec 7)
    (mk : RegNum → RegNum → RegNum → Instr) (w : Word) :
    w &&& (registerRow f7 f3 op mk).mask = (registerRow f7 f3 op mk).pat ↔
      opcodeOf w = op ∧ funct3Of w = f3 ∧ funct7Of w = f7 :=
  and_registerMask_eq_iff w

theorem upperRow_matches_iff (op : BitVec 7) (mk : RegNum → BitVec 20 → Instr) (w : Word) :
    w &&& (upperRow op mk).mask = (upperRow op mk).pat ↔ opcodeOf w = op :=
  and_upperMask_eq_iff w

theorem jalRow_matches_iff (w : Word) : w &&& jalRow.mask = jalRow.pat ↔ opcodeOf w = 0x6F :=
  and_jumpMask_eq_iff w

theorem fenceRow_matches_iff (w : Word) :
    w &&& fenceRow.mask = fenceRow.pat ↔ opcodeOf w = 0x0F ∧ funct3Of w = 0 :=
  and_immediateMask_eq_iff w

theorem wordRow_matches_iff (pat : Word) (i : Instr) (w : Word) :
    w &&& (wordRow pat i).mask = (wordRow pat i).pat ↔ w = pat := by
  change w &&& 0xFFFFFFFF#32 = pat ↔ w = pat
  rw [and_fullMask]

theorem funct3_cases (f : BitVec 3) :
    f = 0#3 ∨ f = 1#3 ∨ f = 2#3 ∨ f = 3#3 ∨ f = 4#3 ∨ f = 5#3 ∨ f = 6#3 ∨ f = 7#3 := by
  revert f; decide

/-- Settles O4: a word is illegal when it matches no row, and a row fixes the opcode and at most the
two function fields, so the table is compared opcode by opcode and `funct3` by `funct3`. -/
theorem illegalWordsByOpcode : Obligations.IllegalWordsByOpcode := by
  intro w opcode funct3 upper
  have hop : opcodeOf w = opcode := rfl
  have hf3 : funct3Of w = funct3 := rfl
  have hf7 : funct7Of w = upper := rfl
  have hcall : w = 0x00000073#32 → opcode = 0x73#7 ∧ funct3 = 0#3 := by
    rintro rfl; exact ⟨rfl, rfl⟩
  have hbreak : w = 0x00100073#32 → opcode = 0x73#7 ∧ funct3 = 0#3 := by
    rintro rfl; exact ⟨rfl, rfl⟩
  rw [decode_error_iff, opcodeTable_eq]
  simp only [List.forall_mem_cons, ne_eq, branchRow_matches_iff, storeRow_matches_iff,
    immediateRow_matches_iff, registerRow_matches_iff, upperRow_matches_iff, jalRow_matches_iff,
    fenceRow_matches_iff, wordRow_matches_iff, hop, hf3, hf7]
  clear_value opcode funct3 upper
  clear hop hf3 hf7
  by_cases hknown : opcode ∈ knownOpcodes
  · simp only [knownOpcodes, List.mem_cons, List.not_mem_nil, or_false] at hknown
    obtain rfl | rfl | rfl | rfl | rfl | rfl | rfl | rfl | rfl | rfl | rfl := hknown
    all_goals simp at hcall hbreak ⊢
    all_goals
      obtain rfl | rfl | rfl | rfl | rfl | rfl | rfl | rfl := funct3_cases funct3 <;>
        simp_all <;> grind
  · simp [knownOpcodes] at hknown hcall hbreak ⊢
    grind

theorem decode_of_encode_eq {w : Word} {i : Instr} (hw : encode i = w)
    (hi : i.wellFormed = true) : decode w = .ok i :=
  hw ▸ decodeEncodeRoundTrip i hi

/-- Settles O5: each sample is the encoder's word of the printed instruction. -/
theorem sampleWordsDecode : Obligations.SampleWordsDecode :=
  ⟨decode_of_encode_eq (by decide) rfl, decode_of_encode_eq (by decide) rfl,
    decode_of_encode_eq (by decide) rfl, decode_of_encode_eq (by decide) rfl,
    decode_of_encode_eq (by decide) rfl, decode_of_encode_eq (by decide) rfl,
    decode_of_encode_eq (by decide) rfl, decode_of_encode_eq (by decide) rfl,
    decode_of_encode_eq (by decide) rfl, decode_of_encode_eq (by decide) rfl,
    decode_of_encode_eq (by decide) rfl, decode_of_encode_eq (by decide) rfl, rfl⟩

end Sys2Proof
end

section
/-! Rules about every instruction and every step: none stops (`70_reset_and_hazards.md` R405), what
each part of the state can become (`10_state.md` R22, R32, R63, R85, R86), and what every step
keeps. -/

namespace Sys2Proof.Machine

/-! ### No instruction and no step stops -/

/-- Settles O9: each of the six things that an execution can do is a next state. -/
theorem everyInstructionAnswersNext : Obligations.EveryInstructionAnswersNext := by
  intro i s
  obtain ⟨e, h⟩ | ⟨rd, v, p, -, -, -, -, h⟩ | ⟨p, -, -, -, h⟩ | ⟨m, rs1, rd, -, h⟩ |
    ⟨ea, bs, -, -, -, h⟩ | ⟨rd, c, v, -, -, -, -, -, h⟩ := exec_cases i s
  all_goals exact ⟨_, h⟩

/-- A step at an instruction that decodes executes it, then ends. -/
theorem step_of_ok {s t : State} {i : Instr} (hn : nextInstr s = .ok i) (he : exec i s = .next t) :
    step s = .next (endStep t) := by
  rw [step, hn]
  exact congrArg endResult he

/-- A step whose fetch or decoding raises takes that trap, then ends. -/
theorem step_of_error {s : State} {e : Exception} (hn : nextInstr s = .error e) :
    step s = .next (endStep (takeTrap e s)) := by
  rw [step, hn]
  rfl

theorem step_next (s : State) : ∃ t, step s = .next t := by
  cases hn : nextInstr s with
  | error e => exact ⟨_, step_of_error hn⟩
  | ok i =>
    obtain ⟨t, ht⟩ := everyInstructionAnswersNext i s
    exact ⟨_, step_of_ok hn ht⟩

/-- Settles O10, by induction on the number of steps. -/
theorem runsNeverStop : Obligations.RunsNeverStop := by
  intro n
  induction n with
  | zero => exact fun s => ⟨s, rfl⟩
  | succ n ih =>
    intro s
    obtain ⟨t, ht⟩ := step_next s
    obtain ⟨u, hu⟩ := ih t
    exact ⟨u, (run_succ ht n).trans hu⟩

/-- What every step keeps, every run keeps. -/
theorem run_preserves {P : State → Prop} (hstep : ∀ s t, P s → step s = .next t → P t) (n : Nat)
    {s t : State} (hs : P s) (hrun : Host.Core.run Sys2Proof.core n s = .next t) : P t := by
  induction n generalizing s with
  | zero => exact Host.Outcome.next.inj hrun ▸ hs
  | succ n ih =>
    obtain ⟨u, hu⟩ := step_next s
    exact ih (hstep s u hs hu) ((run_succ hu n).symm.trans hrun)

/-! ### What an instruction that went on did -/

/-- The end of a CSR instruction that wrote `c` (R60, R63). -/
def retireCsr (c : Csr) : State → State := if c = .minstret then retireUncounted else retire

/-- A property of both ends of a CSR instruction is a property of the one that was taken. -/
theorem retireCsr_cases {P : State → Prop} (c : Csr) {s : State} (hu : P (retireUncounted s))
    (hr : P (retire s)) : P (retireCsr c s) := by
  unfold retireCsr
  split
  · exact hu
  · exact hr

@[simp] theorem retireCsr_pc (c : Csr) (s : State) : (retireCsr c s).pc = s.pc + 4#32 :=
  retireCsr_cases (P := fun t => t.pc = s.pc + 4#32) c rfl rfl
@[simp] theorem retireCsr_priv (c : Csr) (s : State) : (retireCsr c s).priv = s.priv :=
  retireCsr_cases (P := fun t => t.priv = s.priv) c rfl rfl
@[simp] theorem retireCsr_csrs (c : Csr) (s : State) : (retireCsr c s).csrs = s.csrs :=
  retireCsr_cases (P := fun t => t.csrs = s.csrs) c rfl rfl
@[simp] theorem retireCsr_cycle (c : Csr) (s : State) : (retireCsr c s).cycle = s.cycle :=
  retireCsr_cases (P := fun t => t.cycle = s.cycle) c rfl rfl
@[simp] theorem retireCsr_mem (c : Csr) (s : State) : (retireCsr c s).mem = s.mem :=
  retireCsr_cases (P := fun t => t.mem = s.mem) c rfl rfl
@[simp] theorem retireCsr_icache (c : Csr) (s : State) : (retireCsr c s).icache = s.icache :=
  retireCsr_cases (P := fun t => t.icache = s.icache) c rfl rfl
@[simp] theorem retireCsr_memMap (c : Csr) (s : State) : (retireCsr c s).memMap = s.memMap :=
  retireCsr_cases (P := fun t => t.memMap = s.memMap) c rfl rfl
@[simp] theorem retireCsr_draws (c : Csr) (s : State) : (retireCsr c s).draws = s.draws :=
  retireCsr_cases (P := fun t => t.draws = s.draws) c rfl rfl
@[simp] theorem readReg_retireCsr (c : Csr) (s : State) (r : RegNum) :
    readReg (retireCsr c s) r = readReg s r :=
  retireCsr_cases (P := fun t => readReg t r = readReg s r) c (readReg_retireUncounted s r)
    (readReg_retire s r)
@[simp] theorem retireCsr_instret (c : Csr) (s : State) :
    (retireCsr c s).instret = if c = .minstret then s.instret else s.instret + 1#64 := by
  by_cases h : c = .minstret <;> simp [retireCsr, h]

/-- The state after an instruction that went on, by what the instruction did. -/
theorem exec_next_cases {i : Instr} {s t : State} (h : exec i s = .next t) :
    (∃ e, t = takeTrap e s) ∨
    (∃ rd v p, destination i = some rd ∧ isStore i = false ∧ GoesOnAt i s p ∧
      (∀ a, csrAccess i ≠ some (a, true)) ∧ t = retireTo p (writeReg rd v s)) ∨
    (∃ p, isStore i = false ∧ csrAccess i = none ∧ GoesOnAt i s p ∧ t = retireTo p s) ∨
    ((∃ imm12 rs1 rd, i = .fencei imm12 rs1 rd) ∧ t = retire (flushFetchView s)) ∨
    (∃ ea bs, isStore i = true ∧ csrAccess i = none ∧ GoesOnAt i s (s.pc + 4#32) ∧
      t = retire (storeBytes ea bs s)) ∨
    (∃ rd c v, destination i = some rd ∧ isStore i = false ∧
      csrAccess i = some (csrAddress c, true) ∧ csrReadOnly c = false ∧ GoesOnAt i s (s.pc + 4#32) ∧
      t = retireCsr c (writeReg rd (readCsr c s) (putCsr c v s))) := by
  have ht {u : State} (hu : exec i s = .next u) : t = u := Host.Outcome.next.inj (h.symm.trans hu)
  obtain ⟨e, hu⟩ | ⟨rd, v, p, hd, hs, hg, hc, hu⟩ | ⟨p, hs, hc, hg, hu⟩ | ⟨m, rs1, rd, hi, hu⟩ |
    ⟨ea, bs, hs, hc, hg, hu⟩ | ⟨rd, c, v, hd, hs, hc, hr, hg, hu⟩ := exec_cases i s
  · exact .inl ⟨e, ht hu⟩
  · exact .inr (.inl ⟨rd, v, p, hd, hs, hg, hc, ht hu⟩)
  · exact .inr (.inr (.inl ⟨p, hs, hc, hg, ht hu⟩))
  · exact .inr (.inr (.inr (.inl ⟨⟨m, rs1, rd, hi⟩, ht hu⟩)))
  · exact .inr (.inr (.inr (.inr (.inl ⟨ea, bs, hs, hc, hg, ht hu⟩))))
  · exact .inr (.inr (.inr (.inr (.inr ⟨rd, c, v, hd, hs, hc, hr, hg, ht hu⟩))))

/-! ### Where an instruction goes on -/

/-- Settles O11: a trap goes to `mtvec`, and whatever else an instruction does, it retires to an
address where it may go on. -/
theorem programCounterSuccessors : Obligations.ProgramCounterSuccessors := by
  intro i s t h
  have hgoes {p : Word} (hg : GoesOnAt i s p) (hp : t.pc = p) :
      (∃ e, t = takeTrap e s ∧ t.pc = s.csrs.mtvec) ∨
      (t.pc = s.pc + 4#32 ∧ ∀ rd rs1 o p, i ≠ .jal rd o ∧ i ≠ .jalr rd rs1 p) ∨
      target i s = some t.pc := by
    subst hp
    exact .inr hg
  obtain ⟨e, rfl⟩ | ⟨rd, v, p, -, -, hg, -, rfl⟩ | ⟨p, -, -, hg, rfl⟩ | ⟨⟨m, rs1, rd, rfl⟩, rfl⟩ |
    ⟨ea, bs, -, -, hg, rfl⟩ | ⟨rd, c, v, -, -, -, -, hg, rfl⟩ := exec_next_cases h
  · exact .inl ⟨e, rfl, rfl⟩
  · exact hgoes hg rfl
  · exact hgoes hg rfl
  · exact .inr (.inl ⟨rfl, by simp⟩)
  · exact hgoes hg (by simp)
  · exact hgoes hg (by simp)

/-! ### The invariant -/

/-- Settles O20: the lists are empty and the mode is M. -/
theorem resetMeetsInvariant : Obligations.ResetMeetsInvariant :=
  have hreset (pc : Word) (m : Config.MemMap) : (State.resetWith pc m).Inv :=
    ⟨resetWith_mem_wf pc m, Memory.nil_wf.1, rfl⟩
  ⟨hreset, hreset resetPc resetMemMap⟩

/-- Settles O22, by the definition of the reset state. -/
theorem stateAfterReset : Obligations.StateAfterReset :=
  ⟨fun _ _ => ⟨rfl, rfl, rfl, readReg_zero _, fun _ => rfl⟩, rfl, rfl⟩

theorem exec_keeps_inv {i : Instr} {s t : State} (hs : s.Inv) (h : exec i s = .next t) : t.Inv := by
  obtain ⟨hmem, hicache, hpriv⟩ := hs
  obtain ⟨e, rfl⟩ | ⟨rd, v, p, -, -, -, -, rfl⟩ | ⟨p, -, -, -, rfl⟩ | ⟨-, rfl⟩ |
    ⟨ea, bs, -, -, -, rfl⟩ | ⟨rd, c, v, -, -, -, -, -, rfl⟩ := exec_next_cases h
  · exact ⟨hmem, hicache, rfl⟩
  · exact ⟨by simpa using hmem, by simpa using hicache, by simpa using hpriv⟩
  · exact ⟨hmem, hicache, hpriv⟩
  · exact ⟨hmem, Memory.nil_wf.1, hpriv⟩
  · exact ⟨storeBytes_mem_wf bs ea s hmem, storeBytes_icache_ordered bs ea s hicache,
      by simpa using hpriv⟩
  · exact ⟨by simpa using hmem, by simpa using hicache, by simpa using hpriv⟩

theorem endStep_keeps_inv {s : State} (hs : s.Inv) : (endStep s).Inv := by
  obtain ⟨hmem, hicache, hpriv⟩ := hs
  exact ⟨hmem, cellsOrdered_map hicache fun _ => rfl, hpriv⟩

/-- Settles O21: the trap entry and every instruction keep the invariant, and so does the end of a
step. -/
theorem stepKeepsInvariant : Obligations.StepKeepsInvariant := by
  intro s t hs h
  obtain ⟨e, -, rfl⟩ | ⟨i, u, -, hu, rfl⟩ := step_cases h
  · obtain ⟨hmem, hicache, -⟩ := hs
    exact endStep_keeps_inv ⟨hmem, hicache, rfl⟩
  · exact endStep_keeps_inv (exec_keeps_inv hs hu)

/-! ### The mode -/

theorem exec_priv_cases {i : Instr} {s t : State} (h : exec i s = .next t) :
    t.priv = s.priv ∨ t.priv = .M ∧ ∃ e, t = takeTrap e s := by
  obtain ⟨e, rfl⟩ | ⟨rd, v, p, -, -, -, -, rfl⟩ | ⟨p, -, -, -, rfl⟩ | ⟨-, rfl⟩ |
    ⟨ea, bs, -, -, -, rfl⟩ | ⟨rd, c, v, -, -, -, -, -, rfl⟩ := exec_next_cases h
  · exact .inr ⟨rfl, e, rfl⟩
  all_goals exact .inl (by simp)

theorem step_keeps_machineMode {s t : State} (hs : s.priv = .M) (h : step s = .next t) :
    t.priv = .M := by
  obtain ⟨e, -, rfl⟩ | ⟨i, u, -, hu, rfl⟩ := step_cases h
  · rfl
  · obtain hkeep | ⟨hM, -⟩ := exec_priv_cases hu
    · exact hkeep.trans hs
    · exact hM

/-- Settles O23: only the trap entry writes the mode, so every step from M ends in M. -/
theorem modeChangesOnlyByTrap : Obligations.ModeChangesOnlyByTrap :=
  ⟨fun _ _ _ h => exec_priv_cases h,
    fun n _ _ hs hrun => run_preserves (P := fun s => s.priv = .M)
      (fun _ _ => step_keeps_machineMode) n hs hrun⟩

/-! ### General registers -/

/-- An instruction leaves every register but its destination. -/
theorem exec_readReg_of_ne {i : Instr} {s t : State} (h : exec i s = .next t) {r : RegNum}
    (hr : destination i ≠ some r) : readReg t r = readReg s r := by
  obtain ⟨e, rfl⟩ | ⟨rd, v, p, hd, -, -, -, rfl⟩ | ⟨p, -, -, -, rfl⟩ | ⟨-, rfl⟩ |
    ⟨ea, bs, -, -, -, rfl⟩ | ⟨rd, c, v, hd, -, -, -, -, rfl⟩ := exec_next_cases h
  · simp
  · have hne : r ≠ rd := fun he => hr (he ▸ hd)
    rw [readReg_retireTo, readReg_writeReg_ne hne]
  · simp
  · simp
  · simp
  · have hne : r ≠ rd := fun he => hr (he ▸ hd)
    rw [readReg_retireCsr, readReg_writeReg_ne hne, readReg_putCsr]

/-- Settles O24: a trap writes no register, and an instruction only its destination. -/
theorem onlyNamedRegistersChange : Obligations.OnlyNamedRegistersChange := by
  intro s t h
  refine ⟨readReg_zero t, fun r hne => ?_⟩
  obtain ⟨e, -, rfl⟩ | ⟨i, u, hi, hu, rfl⟩ := step_cases h
  · exact absurd (by simp) hne
  · refine ⟨i, hi, ?_⟩
    by_contra hr
    exact hne ((readReg_endStep u r).trans (exec_readReg_of_ne hu hr))

/-! ### Memory and the fetch view -/

theorem exec_memByte {i : Instr} {s t : State} (h : exec i s = .next t) (hi : isStore i = false)
    (a : Word) : memByte t a = memByte s a := by
  obtain ⟨e, rfl⟩ | ⟨rd, v, p, -, -, -, -, rfl⟩ | ⟨p, -, -, -, rfl⟩ | ⟨-, rfl⟩ |
    ⟨ea, bs, hs, -, -, rfl⟩ | ⟨rd, c, v, -, -, -, -, -, rfl⟩ := exec_next_cases h
  case inr.inr.inr.inr.inl => exact absurd hs (by simp [hi])
  all_goals exact memByte_congr (by simp) a

theorem imemByte_flushFetchView (s : State) (a : Word) :
    imemByte (flushFetchView s) a = memByte s a := rfl

/-- An instruction leaves `IMem` everywhere, or is FENCEI and makes it `Mem` everywhere. -/
theorem exec_imemByte_cases {i : Instr} {s t : State} (h : exec i s = .next t) :
    (∀ a, imemByte t a = imemByte s a) ∨
    (∃ imm12 rs1 rd, i = .fencei imm12 rs1 rd) ∧ ∀ a, imemByte t a = memByte t a := by
  obtain ⟨e, rfl⟩ | ⟨rd, v, p, -, -, -, -, rfl⟩ | ⟨p, -, -, -, rfl⟩ | ⟨hi, rfl⟩ |
    ⟨ea, bs, -, -, -, rfl⟩ | ⟨rd, c, v, -, -, -, -, -, rfl⟩ := exec_next_cases h
  case inr.inr.inr.inl => exact .inr ⟨hi, imemByte_flushFetchView s⟩
  case inr.inr.inr.inr.inl => exact .inl (imemByte_storeBytes bs ea s)
  all_goals exact .inl (imemByte_congr (by simp) (by simp))

/-- The end of a step adds a refill at most to what the instruction did to a byte of `IMem`. -/
theorem fetchView_endStep {s u : State} {a : Word}
    (hu : imemByte u a = imemByte s a ∨ imemByte u a = memByte u a) :
    (imemByte (endStep u) a = imemByte s a ∨ imemByte (endStep u) a = memByte u a) ∧
    (imemByte s a = memByte s a → memByte u a = memByte s a →
      imemByte (endStep u) a = memByte u a) := by
  obtain hkeep | hrefill := imemByte_endStep u a
  · rw [hkeep]
    refine ⟨hu, fun hfresh hmem => ?_⟩
    obtain hold | hnew := hu
    · rw [hold, hfresh, hmem]
    · exact hnew
  · exact ⟨.inr hrefill, fun _ _ => hrefill⟩

/-- Settles O31: an instruction leaves a byte of `IMem` or makes it the byte of `Mem`, and the end
of the step leaves it or refills it. -/
theorem fetchViewSeesOldOrNewByte : Obligations.FetchViewSeesOldOrNewByte := by
  intro s t a h
  obtain ⟨e, -, rfl⟩ | ⟨i, u, -, hu, rfl⟩ := step_cases h
  · exact fetchView_endStep (s := s) (.inl rfl)
  · obtain hkeep | ⟨-, hflush⟩ := exec_imemByte_cases hu
    · exact fetchView_endStep (.inl (hkeep a))
    · exact fetchView_endStep (.inr (hflush a))

/-! ### CSR cells and the count of retired instructions -/

/-- Settles O27: the trap entry changes its four CSRs, and a CSR instruction the one that it writes.
-/
theorem csrsChangeOnlyByCsrInstructionsAndTraps :
    Obligations.CsrsChangeOnlyByCsrInstructionsAndTraps := by
  intro i s t c h hc hne
  obtain ⟨e, rfl⟩ | hkeep | ⟨d, v, hacc, hro, hput⟩ := exec_csrs_cases h
  · refine .inr ⟨?_, e, rfl⟩
    by_contra hmem
    exact hne (readCsr_takeTrap hmem e s)
  · exact absurd (readCsr_congr hc hkeep) hne
  · by_cases hcd : c = d
    · exact .inl (hcd ▸ ⟨hacc, hro⟩)
    · exact absurd ((readCsr_congr hc hput).trans (readCsr_putCsr_ne hcd hc v s)) hne

theorem csrAddress_injective {c d : Csr} (h : csrAddress c = csrAddress d) : c = d :=
  Option.some.inj ((csrAt_address c).symm.trans ((congrArg csrAt h).trans (csrAt_address d)))

theorem putCsr_instret (c : Csr) (v : Word) (s : State) : (putCsr c v s).instret =
    if c = .minstret then s.instret.extractLsb' 32 32 ++ v else s.instret := by
  cases c <;> rfl

theorem putCsr_cycle (c : Csr) (v : Word) (s : State) : (putCsr c v s).cycle =
    if c = .mcycle then s.cycle.extractLsb' 32 32 ++ v else s.cycle := by
  cases c <;> rfl

/-- What an instruction does to `instret` (R60, R63). -/
theorem exec_instret_cases {i : Instr} {s t : State} (h : exec i s = .next t) :
    (∃ e, t = takeTrap e s) ∨
    (csrAccess i = some (csrAddress .minstret, true) ∧
      t.instret.extractLsb' 32 32 = s.instret.extractLsb' 32 32) ∨
    (csrAccess i ≠ some (csrAddress .minstret, true) ∧ t.instret = s.instret + 1#64) := by
  obtain ⟨e, rfl⟩ | ⟨rd, v, p, -, -, -, hc, rfl⟩ | ⟨p, -, hc, -, rfl⟩ | ⟨⟨m, rs1, rd, rfl⟩, rfl⟩ |
    ⟨ea, bs, -, hc, -, rfl⟩ | ⟨rd, c, v, -, -, hc, -, -, rfl⟩ := exec_next_cases h
  · exact .inl ⟨e, rfl⟩
  · exact .inr (.inr ⟨hc _, by simp⟩)
  · exact .inr (.inr ⟨by simp [hc], by simp⟩)
  · exact .inr (.inr ⟨by simp [csrAccess], by simp⟩)
  · exact .inr (.inr ⟨by simp [hc], by simp⟩)
  · by_cases hm : c = .minstret
    · subst hm
      refine .inr (.inl ⟨hc, ?_⟩)
      simp only [retireCsr_instret, writeReg_instret, putCsr_instret, if_true]
      exact BitVec.extractLsb'_append_eq_left
    · refine .inr (.inr ⟨fun he => hm (csrAddress_injective ?_), by simp [putCsr_instret, hm]⟩)
      exact congrArg Prod.fst (Option.some.inj (hc.symm.trans he))

/-- Settles O28: the end of a step leaves `instret`, so the step does to it what its instruction or
trap does. -/
theorem retiredInstructionsAreCounted : Obligations.RetiredInstructionsAreCounted := by
  intro s t h
  obtain ⟨e, -, rfl⟩ | ⟨i, u, hi, hu, rfl⟩ := step_cases h
  · exact .inl ⟨e, rfl, rfl⟩
  · obtain ⟨e, rfl⟩ | hwrite | hcount := exec_instret_cases hu
    · exact .inl ⟨e, rfl, rfl⟩
    · exact .inr (.inl ⟨i, hi, hwrite⟩)
    · exact .inr (.inr ⟨i, hi, hcount⟩)

end Sys2Proof.Machine
end

section
/-! The phases of a step and the trap entry (`10_state.md` R35, `60_exceptions.md` R330 to R355):
what a step at each kind of `pc` does, what a trap saves and keeps, and a handler that cannot run.
-/

namespace Sys2Proof.Machine

/-! ### The trap entry -/

/-- What the trap entry of every exception writes, and what it leaves (R350, R346). -/
theorem takeTrap_entered (e : Exception) (s : State) :
    TrapEntered s (takeTrap e s) (exceptionCode e) (epcOf e s.pc) (mtvalOf e) :=
  ⟨rfl, rfl, rfl, statusMPP_trapStatus .., statusMPIE_trapStatus .., statusMIE_trapStatus ..,
    fun _ h3 h7 h11 h12 => trapStatus_getLsbD _ _ h3 h7 h11 h12, rfl, rfl,
    fun _ hc => readCsr_takeTrap hc e s, readReg_takeTrap e s,
    ⟨memByte_congr rfl, imemByte_congr rfl rfl⟩, rfl, rfl⟩

/-- Settles O13: the trap entry is one operation, whose table gives each exception its code, `mepc`
and `mtval`. -/
theorem trapEntrySavesAndKeeps : Obligations.TrapEntrySavesAndKeeps :=
  fun s x => ⟨takeTrap_entered (.instrAddrMisaligned x) s, takeTrap_entered (.instrAccessFault x) s,
    takeTrap_entered (.illegalInstr x) s, takeTrap_entered .breakpoint s,
    takeTrap_entered (.loadAddrMisaligned x) s, takeTrap_entered (.loadAccessFault x) s,
    takeTrap_entered (.storeAddrMisaligned x) s, takeTrap_entered (.storeAccessFault x) s,
    takeTrap_entered .ecallU s, takeTrap_entered .ecallS s, takeTrap_entered .ecallM s⟩

/-- An instruction that raises takes that trap. -/
theorem trapsWith_of_raise {i : Instr} {s : State} {e : Exception} (h : exec i s = raise e s) :
    TrapsWith i s (exceptionCode e) (epcOf e s.pc) (mtvalOf e) :=
  ⟨takeTrap e s, h, takeTrap_entered e s⟩

/-- Settles O16: the words are rows of the table, and ECALL raises the exception of the mode. -/
theorem ecallAndEbreakTrap : Obligations.EcallAndEbreakTrap := by
  refine ⟨decode_ecall, decode_ebreak, rfl, rfl, rfl,
    fun s => ⟨?_, trapsWith_of_raise (e := .breakpoint) rfl⟩⟩
  cases hp : s.priv with
  | U => exact trapsWith_of_raise (e := .ecallU) (by rw [exec, execEcall, hp])
  | S => exact trapsWith_of_raise (e := .ecallS) (by rw [exec, execEcall, hp])
  | M => exact trapsWith_of_raise (e := .ecallM) (by rw [exec, execEcall, hp])

/-! ### The end of a step -/

theorem endStep_ends (t : State) : StepEnds t (endStep t) :=
  ⟨readReg_endStep t, rfl, rfl, rfl, rfl, rfl, rfl, rfl, memByte_endStep t, imemByte_endStep t⟩

/-- A step whose fetch or decoding raises traps with the exception's row of the table. -/
theorem stepTraps_of_error {s : State} {e : Exception} (h : nextInstr s = .error e) :
    StepTraps s (exceptionCode e) (epcOf e s.pc) (mtvalOf e) :=
  ⟨takeTrap e s, endStep (takeTrap e s), takeTrap_entered e s, step_of_error h, endStep_ends _⟩

/-! ### The phases of a step (R35, R344) -/

theorem nextInstr_of_misaligned {s : State} (h : s.pc.toNat % 4 ≠ 0) :
    nextInstr s = .error (.instrAddrMisaligned s.pc) := by
  simp [nextInstr, (misaligned_iff 4 s.pc).mpr h]

theorem nextInstr_of_unfetchable {s : State} (h4 : s.pc.toNat % 4 = 0)
    (hf : mapFetch s.memMap s.pc = false) : nextInstr s = .error (.instrAccessFault s.pc) := by
  simp [nextInstr, (misaligned_false_iff 4 s.pc).mpr h4, hf]

theorem nextInstr_of_illegal {s : State} {r : Reject} (h4 : s.pc.toNat % 4 = 0)
    (hf : mapFetch s.memMap s.pc = true) (hd : decode (imemWord s s.pc) = .error r) :
    nextInstr s = .error (.illegalInstr (imemWord s s.pc)) := by
  simp [nextInstr, (misaligned_false_iff 4 s.pc).mpr h4, hf, hd]

theorem nextInstr_of_decode {s : State} {i : Instr} (h4 : s.pc.toNat % 4 = 0)
    (hf : mapFetch s.memMap s.pc = true) (hd : decode (imemWord s s.pc) = .ok i) :
    nextInstr s = .ok i := by
  simp [nextInstr, (misaligned_false_iff 4 s.pc).mpr h4, hf, hd]

/-- Settles O7: the two checks come before the fetch, the alignment first. -/
theorem fetchPhaseExceptionsTrap : Obligations.FetchPhaseExceptionsTrap :=
  fun _ => ⟨fun h => stepTraps_of_error (nextInstr_of_misaligned h),
    fun h4 hf => stepTraps_of_error (nextInstr_of_unfetchable h4 hf)⟩

/-- Settles O8: the word that the fetch gives is rejected in the decoding phase. -/
theorem illegalWordTraps : Obligations.IllegalWordTraps := by
  rintro s w e h4 hf rfl hd
  exact stepTraps_of_error (nextInstr_of_illegal h4 hf hd)

/-- Four bytes decode as the word that they make up. -/
theorem decodeBytes_four {b0 b1 b2 b3 : Byte} {i : Instr} {rest : List Byte}
    (h : decodeBytes [b0, b1, b2, b3] = .ok (i, rest)) :
    decode (wordOfBytes b0 b1 b2 b3) = .ok i := by
  simp only [decodeBytes] at h
  split at h
  · next j hj => cases h; exact hj
  · cases h

/-- Settles O6: the fetched bytes decode, so the step executes the instruction and ends. -/
theorem stepRunsDecodedInstruction : Obligations.StepRunsDecodedInstruction :=
  fun _ _ h4 hf hd t ht =>
    ⟨endStep t, step_of_ok (nextInstr_of_decode h4 hf (decodeBytes_four hd)) ht, endStep_ends t⟩

/-! ### A word that the host places -/

theorem wordOfTable_toNat (w : Word) : wordOfTable 32 w.toNat = w := by
  apply BitVec.eq_of_toNat_eq
  have := w.isLt
  simp only [wordOfTable, BitVec.toNat_ofNat]
  omega

@[simp] theorem placeWord_pc (a w : Word) (s : State) : (placeWord a w s).pc = s.pc := by
  simp [placeWord]
@[simp] theorem placeWord_priv (a w : Word) (s : State) : (placeWord a w s).priv = s.priv := by
  simp [placeWord]
@[simp] theorem placeWord_csrs (a w : Word) (s : State) : (placeWord a w s).csrs = s.csrs := by
  simp [placeWord]
@[simp] theorem placeWord_instret (a w : Word) (s : State) :
    (placeWord a w s).instret = s.instret := by
  simp [placeWord]
@[simp] theorem placeWord_memMap (a w : Word) (s : State) :
    (placeWord a w s).memMap = s.memMap := by
  simp [placeWord]
@[simp] theorem readReg_placeWord (a w : Word) (s : State) (r : RegNum) :
    readReg (placeWord a w s) r = readReg s r :=
  readReg_congr (by simp [placeWord]) r

theorem memByte_placeWord (a w : Word) (s : State) (d : Word) : memByte (placeWord a w s) d =
    if (d - a).toNat < 4 then wordByte w (d - a).toNat else memByte s d :=
  memByte_storeBytes_lowBytes (n := 4) (by decide) a w s d

theorem cellFind_erase {a d : Nat} (m : List Host.Cell) :
    cellFind (cellErase m a) d = if d = a then none else cellFind m d := by
  split
  · next h => rw [h, cellFind_erase_same]
  · next h => exact cellFind_erase_ne h m

/-- After a word is placed, `IMem` holds its bytes at the four addresses, and is as before
elsewhere. -/
theorem imemByte_placeWord (a w : Word) (s : State) (d : Word) : imemByte (placeWord a w s) d =
    if (d - a).toNat < 4 then wordByte w (d - a).toNat else imemByte s d := by
  have hfind : cellFind (placeWord a w s).icache d.toNat =
      if (d - a).toNat < 4 then none else cellFind s.icache d.toNat := by
    simp only [placeWord, cellFind_erase]
    by_cases h : (d - a).toNat < 4
    · have : d = a ∨ d = a + 1#32 ∨ d = a + 2#32 ∨ d = a + 3#32 := by bv_omega
      rw [if_pos h]
      obtain rfl | rfl | rfl | rfl := this <;> simp
    · rw [if_neg h, if_neg (by bv_omega), if_neg (by bv_omega), if_neg (by bv_omega),
        if_neg (by bv_omega)]
  rw [imemByte, hfind, memByte_placeWord]
  split <;> rfl

theorem imemWord_placeWord (a w : Word) (s : State) : imemWord (placeWord a w s) a = w := by
  have hbyte {k : Word} (hk : k.toNat < 4) :
      imemByte (placeWord a w s) (a + k) = wordByte w k.toNat := by
    have : a + k - a = k := by bv_omega
    rw [imemByte_placeWord, this, if_pos hk]
  have h0 := hbyte (k := 0#32) (by decide)
  rw [BitVec.add_zero] at h0
  rw [imemWord, h0, hbyte (by decide), hbyte (by decide), hbyte (by decide)]
  exact wordOfBytes_wordByte w

/-- The word that is placed at an aligned and fetchable `pc` is the next instruction. -/
theorem nextInstr_withFetchWord {s : State} {w : Word} {i : Instr} (h4 : s.pc.toNat % 4 = 0)
    (hf : mapFetch s.memMap s.pc = true) (hd : decode w = .ok i) :
    nextInstr (s.withFetchWord 32 w.toNat) = .ok i := by
  rw [State.withFetchWord, wordOfTable_toNat]
  refine nextInstr_of_decode (by simpa using h4) (by simpa using hf) ?_
  rw [placeWord_pc, imemWord_placeWord, hd]

/-- Settles O12: the placed bytes are fetched, and no other byte is written. -/
theorem placedWordRunsNext : Obligations.PlacedWordRunsNext := by
  intro s w i h4 hf hd
  refine ⟨by rw [step, nextInstr_withFetchWord h4 hf hd], ?_⟩
  rw [State.withFetchWord, wordOfTable_toNat]
  refine ⟨readReg_placeWord _ _ s, placeWord_csrs _ _ s, fun a ha => ?_⟩
  have hout : ¬ (a - s.pc).toNat < 4 := by omega
  exact ⟨by rw [memByte_placeWord, if_neg hout], by rw [imemByte_placeWord, if_neg hout]⟩

/-! ### A handler that cannot run (R354) -/

/-- No instruction runs at `pc`: it is misaligned, unfetchable, or holds an illegal word that a
fetch sees; `code` is the exception of each. -/
def CannotRun (code : Nat) (s : State) : Prop :=
  code = 0 ∧ s.pc.toNat % 4 ≠ 0 ∨
  code = 1 ∧ s.pc.toNat % 4 = 0 ∧ mapFetch s.memMap s.pc = false ∨
  code = 2 ∧ s.pc.toNat % 4 = 0 ∧ mapFetch s.memMap s.pc = true ∧
    (∀ a, imemByte s a = memByte s a) ∧ ∃ e, decode (memWord s s.pc) = .error e

theorem imemWord_eq_memWord {s : State} (h : ∀ a, imemByte s a = memByte s a) (a : Word) :
    imemWord s a = memWord s a := by
  simp only [imemWord, memWord, wordOfBytes, h]

/-- Where no instruction runs, the step raises the exception of that code, and its trap records
`pc`. -/
theorem CannotRun.nextInstr_error {code : Nat} {s : State} (h : CannotRun code s) :
    ∃ e, nextInstr s = .error e ∧ exceptionCode e = code ∧ epcOf e s.pc = s.pc := by
  obtain ⟨rfl, h4⟩ | ⟨rfl, h4, hf⟩ | ⟨rfl, h4, hf, hsame, r, hd⟩ := h
  · exact ⟨_, nextInstr_of_misaligned h4, rfl, rfl⟩
  · exact ⟨_, nextInstr_of_unfetchable h4 hf, rfl, rfl⟩
  · rw [← imemWord_eq_memWord hsame] at hd
    exact ⟨_, nextInstr_of_illegal h4 hf hd, rfl, rfl⟩

/-- It depends on `pc`, the memory map, `Mem` and `IMem` only. -/
theorem CannotRun.congr {code : Nat} {s t : State} (h : CannotRun code s) (hpc : t.pc = s.pc)
    (hmap : t.memMap = s.memMap) (hmem : ∀ a, memByte t a = memByte s a)
    (hsame : (∀ a, imemByte s a = memByte s a) → ∀ a, imemByte t a = memByte t a) :
    CannotRun code t := by
  have hword : memWord t t.pc = memWord s s.pc := by simp only [memWord, hpc, hmem]
  unfold CannotRun
  rw [hpc, hmap, ← hpc, hword, hpc]
  obtain h0 | h1 | ⟨hcode, h4, hf, himem, hd⟩ := h
  · exact .inl h0
  · exact .inr (.inl h1)
  · exact .inr (.inr ⟨hcode, h4, hf, hsame himem, hd⟩)

/-- What holds after `n` steps from `s` while the handler cannot run. -/
structure TrapLoop (s : State) (code n : Nat) (t : State) : Prop where
  pc : t.pc = s.csrs.mtvec
  mtvec : t.csrs.mtvec = s.csrs.mtvec
  stuck : CannotRun code t
  regs : KeepsRegisters s t
  instret : t.instret = s.instret
  mem : ∀ a, memByte t a = memByte s a
  mepc : 0 < n → t.csrs.mepc = s.csrs.mtvec
  mcause : 0 < n → t.csrs.mcause = BitVec.ofNat 32 code
  mie : 0 < n → statusMIE t.csrs.mstatus = false
  mpie : 1 < n → statusMPIE t.csrs.mstatus = false

/-- One more step in the loop is one more trap to `mtvec`. -/
theorem TrapLoop.step {s t : State} {code n : Nat} (h : TrapLoop s code n t) :
    ∃ u, step t = .next u ∧ TrapLoop s code (n + 1) u := by
  obtain ⟨e, he, hcode, hepc⟩ := h.stuck.nextInstr_error
  have hpc : (endStep (takeTrap e t)).pc = t.pc := h.mtvec.trans h.pc.symm
  have hfetch (hsame : ∀ a, imemByte t a = memByte t a) (a : Word) :
      imemByte (endStep (takeTrap e t)) a = memByte (endStep (takeTrap e t)) a :=
    (imemByte_endStep (takeTrap e t) a).elim (fun hold => hold.trans (hsame a)) id
  refine ⟨_, step_of_error he, ?_⟩
  exact {
    pc := h.mtvec
    mtvec := h.mtvec
    stuck := h.stuck.congr hpc rfl (fun _ => rfl) hfetch
    regs := fun r => (readReg_endStep (takeTrap e t) r).trans (h.regs r)
    instret := h.instret
    mem := h.mem
    mepc := fun _ => hepc.trans h.pc
    mcause := fun _ => congrArg (BitVec.ofNat 32) hcode
    mie := fun _ => statusMIE_trapStatus ..
    mpie := fun hn => (statusMPIE_trapStatus ..).trans (h.mie (Nat.lt_of_succ_lt_succ hn)) }

/-- A run of one more step is a run and then a step. -/
theorem run_snoc {n : Nat} {s t : State} (h : Host.Core.run Sys2Proof.core n s = .next t) :
    Host.Core.run Sys2Proof.core (n + 1) s = Machine.step t := by
  induction n generalizing s with
  | zero =>
    obtain rfl : s = t := Host.Outcome.next.inj h
    obtain ⟨u, hu⟩ := step_next s
    exact (run_succ hu 0).trans hu.symm
  | succ n ih =>
    obtain ⟨u, hu⟩ := step_next s
    rw [run_succ hu] at h ⊢
    exact ih h

/-- Settles O15, by induction on the number of steps: the loop's invariant contains the reason for
the next trap. -/
theorem unusableVectorLoopsForever : Obligations.UnusableVectorLoopsForever := by
  intro s code n hpc hstuck
  have hloop : ∃ t, Host.Core.run Sys2Proof.core n s = .next t ∧ TrapLoop s code n t := by
    induction n with
    | zero =>
      have hnone {k : Nat} {p : Prop} (hk : k < 0) : p := absurd hk (Nat.not_lt_zero k)
      exact ⟨s, rfl, hpc, rfl, hstuck, fun _ => rfl, rfl, fun _ => rfl, hnone, hnone, hnone, hnone⟩
    | succ n ih =>
      obtain ⟨t, hrun, ht⟩ := ih
      obtain ⟨u, hstep, hu⟩ := ht.step
      exact ⟨u, (run_snoc hrun).trans hstep, hu⟩
  obtain ⟨t, hrun, h⟩ := hloop
  exact ⟨t, hrun, h.pc, h.mtvec, h.regs, h.instret, h.mem,
    fun hn => ⟨h.mepc hn, h.mcause hn, h.mie hn⟩, h.mpie⟩

/-! ### A jump or branch to a misaligned address -/

theorem stepTraps_of_misaligned {s : State} {p : Word} (hpc : s.pc = p) (hp : p.toNat % 4 ≠ 0) :
    StepTraps s 0 p p := by
  subst hpc
  exact stepTraps_of_error (nextInstr_of_misaligned hp)

/-- An instruction is executed only at a multiple of 4. -/
theorem pc_aligned_of_nextInstr {s : State} {i : Instr} (h : nextInstr s = .ok i) :
    s.pc.toNat % 4 = 0 := by
  by_contra h4
  cases h.symm.trans (nextInstr_of_misaligned h4)

/-- Settles O45: both jumps are `jumpAndLink`, which checks nothing; the next step checks. -/
theorem misalignedJumpTargetTrapsNextStep : Obligations.MisalignedJumpTargetTrapsNextStep := by
  intro s rd rs1 off21 off12 i target hi hjump hmis
  have hexec : exec i s = jumpAndLink rd target s := by
    obtain ⟨rfl, rfl⟩ | ⟨rfl, rfl⟩ := hjump
    · rfl
    · rfl
  obtain ⟨t, ht, hregs, ⟨hpc, hcount⟩, -⟩ := registerResult_of_jumpAndLink hexec
  have hwrites : WritesRegister s (endStep t) rd (s.pc + 4#32) :=
    fun r => (readReg_endStep t r).trans (hregs r)
  exact ⟨endStep t, step_of_ok hi ht, hwrites, hpc, hcount, stepTraps_of_misaligned hpc hmis⟩

/-- Each of the six branches is `branchIf` of its condition. -/
theorem exec_branch {i : Instr} {rs1 rs2 : RegNum} {off : BitVec 13}
    (hi : i ∈ [.bne rs1 rs2 off, .beq rs1 rs2 off, .blt rs1 rs2 off, .bge rs1 rs2 off,
      .bltu rs1 rs2 off, .bgeu rs1 rs2 off]) (s : State) :
    ∃ taken, exec i s = branchIf taken off s := by
  simp only [List.mem_cons, List.not_mem_nil, or_false] at hi
  obtain rfl | rfl | rfl | rfl | rfl | rfl := hi
  all_goals exact ⟨_, rfl⟩

/-- Settles O46: the instruction runs at a multiple of 4, so a misaligned successor is not `pc + 4`
but the target of a branch that is taken. -/
theorem misalignedBranchTargetTrapsNextStep : Obligations.MisalignedBranchTargetTrapsNextStep := by
  intro s t i rs1 rs2 off hi hn ht
  obtain ⟨taken, hexec⟩ := exec_branch hi s
  obtain rfl : retireTo (if taken then s.pc + branchOffset off else s.pc + 4#32) s = t :=
    Host.Outcome.next.inj (hexec.symm.trans ht)
  refine ⟨_, step_of_ok hn ht, rfl, fun r => by simp, rfl, fun hmis => ?_⟩
  have hnext : (s.pc + 4#32).toNat % 4 = 0 := by
    have := pc_aligned_of_nextInstr hn
    bv_omega
  cases taken with
  | false => exact absurd hnext hmis
  | true => exact ⟨rfl, fun he => hmis (he ▸ hnext), stepTraps_of_misaligned rfl hmis⟩

end Sys2Proof.Machine
end

section
/-! A CSR instruction by cases (`47_system.md` R300), one equation for each. -/

namespace Sys2Proof.Machine

section
variable (w : Word) (rd : RegNum) (new : Word → Word) (s : State)

theorem csrInstr_unlisted {csr : CsrAddr} (h : csrAt csr = none) (doWrite : Bool) :
    csrInstr w rd csr doWrite new s = raise (.illegalInstr w) s := by
  rw [csrInstr, h]

theorem csrInstr_readOnly {c : Csr} (h : csrReadOnly c = true) :
    csrInstr w rd (csrAddress c) true new s = raise (.illegalInstr w) s := by
  simp [csrInstr, h]

theorem csrInstr_read (c : Csr) :
    csrInstr w rd (csrAddress c) false new s = setRegister rd (readCsr c s) s := by
  simp [csrInstr, setRegister]

theorem csrInstr_write {c : Csr} (h : csrReadOnly c = false) :
    csrInstr w rd (csrAddress c) true new s =
      .next (retireCsr c (writeReg rd (readCsr c s) (putCsr c (new (readCsr c s)) s))) := by
  by_cases hm : c = .minstret
  · subst hm
    simp [csrInstr, writeCsr, retireCsr, show csrReadOnly .minstret = false from rfl]
  · simp [csrInstr, writeCsr, retireCsr, h, hm]

end

end Sys2Proof.Machine
end

section
/-! What an instruction does not depend on (`10_state.md` R22, R62, R85, R86, `20_memory.md` R112):
two states that agree on what the instruction looks at are led to two states that differ as little.
-/

namespace Sys2Proof.Machine

/-! ### Two executions side by side -/

/-- Both outcomes go on, to states in the relation `R`. -/
def BothNext (R : State → State → Prop) (o o' : Result) : Prop :=
  ∃ t t', o = .next t ∧ o' = .next t' ∧ R t t'

/-- The relation `R` between `s` and `s'` leaves alone what the instruction `i` looks at, and the
operations that `i` is made of keep it. -/
structure Unseen (R : State → State → Prop) (i : Instr) (s s' : State) : Prop where
  start : R s s'
  reads : ∀ r ∈ sources i, readReg s' r = readReg s r
  pc : s'.pc = s.pc
  priv : s'.priv = s.priv
  memMap : s'.memMap = s.memMap
  loads : isLoad i = true → ∀ a, memByte s' a = memByte s a
  readsCsr : ∀ c d, csrAccess i = some (csrAddress c, d) → readCsr c s' = readCsr c s
  trap : ∀ e, R (takeTrap e s) (takeTrap e s')
  writesCsr : ∀ c v, csrAccess i = some (csrAddress c, true) → R (putCsr c v s) (putCsr c v s')
  writes : ∀ rd v t t', destination i = some rd → R t t' → R (writeReg rd v t) (writeReg rd v t')
  stores : isStore i = true → ∀ a b t t', R t t' → R (storeByte a b t) (storeByte a b t')
  flush : ∀ imm12 rs1 rd, i = .fencei imm12 rs1 rd → R (flushFetchView s) (flushFetchView s')
  retires : ∀ p t t', R t t' → R (retireTo p t) (retireTo p t')
  retiresUncounted : ∀ t t', R t t' → R (retireUncounted t) (retireUncounted t')

namespace Unseen

variable {R : State → State → Prop} {i : Instr} {s s' : State}

theorem raise (h : Unseen R i s s') (e : Exception) :
    BothNext R (Machine.raise e s) (Machine.raise e s') :=
  ⟨_, _, rfl, rfl, h.trap e⟩

theorem retireTo (h : Unseen R i s s') (p : Word) :
    BothNext R (.next (Machine.retireTo p s)) (.next (Machine.retireTo p s')) :=
  ⟨_, _, rfl, rfl, h.retires p s s' h.start⟩

theorem jumpAndLink (h : Unseen R i s s') {rd : RegNum} (hd : destination i = some rd) (p : Word) :
    BothNext R (Machine.jumpAndLink rd p s) (Machine.jumpAndLink rd p s') := by
  refine ⟨_, _, rfl, rfl, h.retires _ _ _ ?_⟩
  rw [h.pc]
  exact h.writes _ _ _ _ hd h.start

/-- The end of an instruction that does not transfer control keeps the relation of states that have
the old `pc`. -/
theorem retire (h : Unseen R i s s') {t t' : State} (ht : R t t') (hpc : t.pc = s.pc)
    (hpc' : t'.pc = s'.pc) : R (Machine.retire t) (Machine.retire t') := by
  rw [Machine.retire, Machine.retire, hpc, hpc', h.pc]
  exact h.retires _ _ _ ht

theorem setRegister (h : Unseen R i s s') {rd : RegNum} (hd : destination i = some rd) (v : Word) :
    BothNext R (Machine.setRegister rd v s) (Machine.setRegister rd v s') :=
  ⟨_, _, rfl, rfl, h.retire (h.writes _ _ _ _ hd h.start) (writeReg_pc ..) (writeReg_pc ..)⟩

theorem branchIf (h : Unseen R i s s') (taken : Bool) (off : BitVec 13) :
    BothNext R (Machine.branchIf taken off s) (Machine.branchIf taken off s') := by
  rw [Machine.branchIf, Machine.branchIf, h.pc]
  exact h.retireTo _

theorem load (h : Unseen R i s s') {rd : RegNum} (hd : destination i = some rd) (n : Nat)
    {value : State → Word → Word} {ea : Word} (hv : value s' ea = value s ea) :
    BothNext R (Machine.load n value rd ea s) (Machine.load n value rd ea s') := by
  have hex : loadException n ea s' = loadException n ea s := by simp only [loadException, h.memMap]
  unfold Machine.load
  rw [hex, hv]
  cases loadException n ea s with
  | some e => exact h.raise e
  | none => exact h.setRegister hd _

theorem storeBytes (h : Unseen R i s s') (hs : isStore i = true) (bs : List Byte) (a : Word)
    {t t' : State} (ht : R t t') : R (Machine.storeBytes a bs t) (Machine.storeBytes a bs t') := by
  induction bs generalizing a t t' with
  | nil => exact ht
  | cons b rest ih => exact ih _ (h.stores hs _ _ _ _ ht)

theorem store (h : Unseen R i s s') (hs : isStore i = true) (n : Nat) (v ea : Word) :
    BothNext R (Machine.store n v ea s) (Machine.store n v ea s') := by
  have hex : storeException n ea s' = storeException n ea s := by
    simp only [storeException, h.memMap]
  unfold Machine.store
  rw [hex]
  cases storeException n ea s with
  | some e => exact h.raise e
  | none =>
    exact ⟨_, _, rfl, rfl,
      h.retire (h.storeBytes hs _ _ h.start) (storeBytes_pc ..) (storeBytes_pc ..)⟩

theorem csrInstr (h : Unseen R i s s') {rd : RegNum} {csr : CsrAddr} {doWrite : Bool}
    (hd : destination i = some rd) (ha : csrAccess i = some (csr, doWrite)) (w : Word)
    (new : Word → Word) :
    BothNext R (Machine.csrInstr w rd csr doWrite new s)
      (Machine.csrInstr w rd csr doWrite new s') := by
  cases hc : csrAt csr with
  | none =>
    rw [csrInstr_unlisted _ _ _ _ hc, csrInstr_unlisted _ _ _ _ hc]
    exact h.raise _
  | some c =>
    obtain rfl := csrAt_some hc
    have hread := h.readsCsr c doWrite ha
    cases doWrite with
    | false =>
      rw [csrInstr_read, csrInstr_read, hread]
      exact h.setRegister hd _
    | true =>
      cases hro : csrReadOnly c with
      | true =>
        rw [csrInstr_readOnly _ _ _ _ hro, csrInstr_readOnly _ _ _ _ hro]
        exact h.raise _
      | false =>
        rw [csrInstr_write _ _ _ _ hro, csrInstr_write _ _ _ _ hro, hread]
        refine ⟨_, _, rfl, rfl, ?_⟩
        have hput := h.writes rd (readCsr c s) _ _ hd (h.writesCsr c (new (readCsr c s)) ha)
        unfold retireCsr
        split
        · exact h.retiresUncounted _ _ hput
        · exact h.retire hput (by simp) (by simp)

end Unseen

/-- Two executions of an instruction that does not see the difference between the states lead to
states with the same difference. -/
theorem exec_unseen {R : State → State → Prop} {i : Instr} {s s' : State} (h : Unseen R i s s') :
    BothNext R (exec i s) (exec i s') := by
  cases i with
  | bne a b o | beq a b o | blt a b o | bge a b o | bltu a b o | bgeu a b o =>
    have ha := h.reads a (by simp [sources])
    have hb := h.reads b (by simp [sources])
    simp only [exec, execBne, execBeq, execBlt, execBge, execBltu, execBgeu, ha, hb]
    exact h.branchIf _ o
  | add d a b | sub d a b | slt d a b | sltu d a b | xor d a b | or d a b | and d a b | sra d a b
  | srl d a b | sll d a b =>
    have ha := h.reads a (by simp [sources])
    have hb := h.reads b (by simp [sources])
    simp only [exec, execAdd, execSub, execSlt, execSltu, execXor, execOr, execAnd, execSra,
      execSrl, execSll, ha, hb]
    exact h.setRegister rfl _
  | addi d a m | slti d a m | sltiu d a m | ori d a m | xori d a m | andi d a m | srai d a m
  | slli d a m | srli d a m =>
    have ha := h.reads a (by simp [sources])
    simp only [exec, execAddi, execSlti, execSltiu, execOri, execXori, execAndi, execSrai, execSlli,
      execSrli, ha]
    exact h.setRegister rfl _
  | lui d m => exact h.setRegister rfl _
  | auipc d m =>
    simp only [exec, execAuipc, h.pc]
    exact h.setRegister rfl _
  | jal d o =>
    simp only [exec, execJal, h.pc]
    exact h.jumpAndLink rfl _
  | jalr d a o =>
    have ha := h.reads a (by simp [sources])
    simp only [exec, execJalr, ha]
    exact h.jumpAndLink rfl _
  | lb d o a | lh d o a | lw d o a | lbu d o a | lhu d o a =>
    have ha := h.reads a (by simp [sources])
    have hmem := h.loads rfl
    simp only [exec, execLb, execLh, execLw, execLbu, execLhu, effectiveAddress, ha]
    refine h.load rfl _ ?_
    simp only [memHalf, memWord, hmem]
  | sw b o a | sb b o a | sh b o a =>
    have ha := h.reads a (by simp [sources])
    have hb := h.reads b (by simp [sources])
    simp only [exec, execSw, execSb, execSh, effectiveAddress, ha, hb]
    exact h.store rfl _ _ _
  | fencei m a d =>
    exact ⟨_, _, rfl, rfl, h.retire (h.flush m a d rfl) rfl rfl⟩
  | fence fm p q a d => exact ⟨_, _, rfl, rfl, h.retire h.start rfl rfl⟩
  | ecall =>
    simp only [exec, execEcall, h.priv]
    cases s.priv <;> exact h.raise _
  | ebreak => exact h.raise _
  | csrrw d c a | csrrs d c a | csrrc d c a =>
    have ha := h.reads a (by simp [sources])
    simp only [exec, execCsrrw, execCsrrs, execCsrrc, ha]
    exact h.csrInstr rfl rfl _ _
  | csrrwi d c m | csrrsi d c m | csrrci d c m =>
    simp only [exec, execCsrrwi, execCsrrsi, execCsrrci]
    exact h.csrInstr rfl rfl _ _

/-! ### Differences that no instruction of a kind sees -/

/-- A difference made by a function on states is passed on to the outcome. -/
theorem mapNext_of_bothNext {f : State → State} {o o' : Result}
    (h : BothNext (fun t t' => t' = f t) o o') : o' = mapNext f o := by
  obtain ⟨t, -, rfl, rfl, rfl⟩ := h
  rfl

theorem takeTrap_writeReg (e : Exception) (r : RegNum) (v : Word) (s : State) :
    takeTrap e (writeReg r v s) = writeReg r v (takeTrap e s) := by
  unfold writeReg; split <;> rfl

theorem retireTo_writeReg (p : Word) (r : RegNum) (v : Word) (s : State) :
    retireTo p (writeReg r v s) = writeReg r v (retireTo p s) := by
  unfold writeReg; split <;> rfl

theorem retireUncounted_writeReg (r : RegNum) (v : Word) (s : State) :
    retireUncounted (writeReg r v s) = writeReg r v (retireUncounted s) := by
  unfold writeReg; split <;> rfl

theorem flushFetchView_writeReg (r : RegNum) (v : Word) (s : State) :
    flushFetchView (writeReg r v s) = writeReg r v (flushFetchView s) := by
  unfold writeReg; split <;> rfl

theorem storeByte_writeReg (a : Word) (b : Byte) (r : RegNum) (v : Word) (s : State) :
    storeByte a b (writeReg r v s) = writeReg r v (storeByte a b s) := by
  unfold writeReg; split <;> rfl

theorem putCsr_writeReg (c : Csr) (u : Word) (r : RegNum) (v : Word) (s : State) :
    putCsr c u (writeReg r v s) = writeReg r v (putCsr c u s) := by
  unfold writeReg
  split
  · rfl
  · cases c <;> rfl

theorem readCsr_writeReg (c : Csr) (r : RegNum) (v : Word) (s : State) :
    readCsr c (writeReg r v s) = readCsr c s := by
  unfold writeReg
  split
  · rfl
  · cases c <;> rfl

/-- Another value in a register that the instruction does not name. -/
theorem unseen_writeReg {i : Instr} {r : RegNum} (hs : r ∉ sources i) (hd : destination i ≠ some r)
    (v : Word) (s : State) : Unseen (fun t t' => t' = writeReg r v t) i s (writeReg r v s) where
  start := rfl
  reads q hq := readReg_writeReg_ne (fun he : q = r => hs (he ▸ hq)) v s
  pc := writeReg_pc ..
  priv := writeReg_priv ..
  memMap := writeReg_memMap ..
  loads _ := memByte_congr (writeReg_mem ..)
  readsCsr c _ _ := readCsr_writeReg c r v s
  trap e := takeTrap_writeReg e r v s
  writesCsr c u _ := putCsr_writeReg c u r v s
  writes rd u t _ hrd ht := ht ▸ writeReg_comm (fun he : rd = r => hd (he ▸ hrd)) u v t
  stores _ a b t _ ht := ht ▸ storeByte_writeReg a b r v t
  flush _ _ _ _ := flushFetchView_writeReg r v s
  retires p t _ ht := ht ▸ retireTo_writeReg p r v t
  retiresUncounted t _ ht := ht ▸ retireUncounted_writeReg r v t

/-- Settles O25: with another value in a register that it does not name, an instruction does the
same. -/
theorem unnamedRegistersDoNotMatter : Obligations.UnnamedRegistersDoNotMatter :=
  fun _ s _ v hs hd => mapNext_of_bothNext (exec_unseen (unseen_writeReg hs hd v s))

/-- `s` with another `Mem`. -/
def withMem (m : Memory) (s : State) : State := { s with mem := m }

theorem writeReg_withMem (r : RegNum) (v : Word) (m : Memory) (s : State) :
    writeReg r v (withMem m s) = withMem m (writeReg r v s) := by
  unfold writeReg; split <;> rfl

theorem putCsr_withMem (c : Csr) (v : Word) (m : Memory) (s : State) :
    putCsr c v (withMem m s) = withMem m (putCsr c v s) := by
  cases c <;> rfl

theorem readCsr_withMem (c : Csr) (m : Memory) (s : State) :
    readCsr c (withMem m s) = readCsr c s := by
  cases c <;> rfl

/-- Another memory, under an instruction that is neither a load nor a store. -/
theorem unseen_withMem {i : Instr} (hs : isStore i = false) (hl : isLoad i = false) (m : Memory)
    (s : State) : Unseen (fun t t' => t' = withMem m t) i s (withMem m s) where
  start := rfl
  reads _ _ := rfl
  pc := rfl
  priv := rfl
  memMap := rfl
  loads h := absurd h (by simp [hl])
  readsCsr c _ _ := readCsr_withMem c m s
  trap _ := rfl
  writesCsr c v _ := putCsr_withMem c v m s
  writes rd v t _ _ ht := ht ▸ writeReg_withMem rd v m t
  stores h := absurd h (by simp [hs])
  flush _ _ _ _ := rfl
  retires _ _ _ ht := ht ▸ rfl
  retiresUncounted _ _ ht := ht ▸ rfl

/-- Settles O26: an instruction but the stores leaves `Mem`, one but FENCEI leaves `IMem`, and one
that is no load and no store does not see `Mem`. -/
theorem onlyLoadsAndStoresUseMemory : Obligations.OnlyLoadsAndStoresUseMemory := by
  refine ⟨fun i s t h => ⟨fun hs => exec_memByte h hs, fun hi => ?_⟩,
    fun i s m hs hl => mapNext_of_bothNext (exec_unseen (unseen_withMem hs hl m s))⟩
  obtain hkeep | ⟨⟨imm12, rs1, rd, he⟩, -⟩ := exec_imemByte_cases h
  · exact hkeep
  · exact absurd he (hi imm12 rs1 rd)

/-- `s` with another cycle count. -/
def withCycle (n : BitVec 64) (s : State) : State := { s with cycle := n }

theorem writeReg_withCycle (r : RegNum) (v : Word) (n : BitVec 64) (s : State) :
    writeReg r v (withCycle n s) = withCycle n (writeReg r v s) := by
  unfold writeReg; split <;> rfl

theorem putCsr_withCycle {c : Csr} (hc : c ∉ cycleCsrs) (v : Word) (n : BitVec 64) (s : State) :
    putCsr c v (withCycle n s) = withCycle n (putCsr c v s) := by
  cases c with
  | mcycle => exact absurd (by decide) hc
  | _ => rfl

theorem readCsr_withCycle {c : Csr} (hc : c ∉ cycleCsrs) (n : BitVec 64) (s : State) :
    readCsr c (withCycle n s) = readCsr c s := by
  cases c with
  | mcycle | ucycle | ucycleh => exact absurd (by decide) hc
  | _ => rfl

/-- An instruction that does not access the cycle counter accesses another CSR, if any. -/
theorem not_mem_cycleCsrs {i : Instr} (h : readsCycle i = false) {c : Csr} {d : Bool}
    (ha : csrAccess i = some (csrAddress c, d)) : c ∉ cycleCsrs := by
  intro hc
  have hr : readsCycle i = true := by
    simp only [readsCycle, ha, List.any_eq_true]
    exact ⟨c, hc, beq_self_eq_true _⟩
  cases h.symm.trans hr

/-- Another cycle count, under an instruction that does not access it. -/
theorem unseen_withCycle {i : Instr} (h : readsCycle i = false) (n : BitVec 64) (s : State) :
    Unseen (fun t t' => t' = withCycle n t) i s (withCycle n s) where
  start := rfl
  reads _ _ := rfl
  pc := rfl
  priv := rfl
  memMap := rfl
  loads _ _ := rfl
  readsCsr _ _ ha := readCsr_withCycle (not_mem_cycleCsrs h ha) n s
  trap _ := rfl
  writesCsr _ v ha := putCsr_withCycle (not_mem_cycleCsrs h ha) v n s
  writes rd v t _ _ ht := ht ▸ writeReg_withCycle rd v n t
  stores _ _ _ _ _ ht := ht ▸ rfl
  flush _ _ _ _ := rfl
  retires _ _ _ ht := ht ▸ rfl
  retiresUncounted _ _ ht := ht ▸ rfl

/-- Settles O29: only an access of one of its three CSRs sees the cycle counter. -/
theorem cycleCounterIsInvisible : Obligations.CycleCounterIsInvisible :=
  fun _ s n h => mapNext_of_bothNext (exec_unseen (unseen_withCycle h n s))

/-- The states differ in the list behind the fetch view at most. -/
def SameButFetchView (s s' : State) : Prop := ∃ cells, s' = { s with icache := cells }

theorem writeReg_sameButFetchView (rd : RegNum) (v : Word) {s s' : State}
    (h : SameButFetchView s s') : SameButFetchView (writeReg rd v s) (writeReg rd v s') := by
  obtain ⟨cells, rfl⟩ := h
  refine ⟨cells, ?_⟩
  unfold writeReg; split <;> rfl

theorem putCsr_sameButFetchView (c : Csr) (v : Word) {s s' : State} (h : SameButFetchView s s') :
    SameButFetchView (putCsr c v s) (putCsr c v s') := by
  obtain ⟨cells, rfl⟩ := h
  refine ⟨cells, ?_⟩
  cases c <;> rfl

theorem readCsr_withFetchView (c : Csr) (cells : List Host.Cell) (s : State) :
    readCsr c { s with icache := cells } = readCsr c s := by
  cases c <;> rfl

/-- Another fetch view, under every instruction. -/
theorem unseen_fetchView (i : Instr) (s : State) (cells : List Host.Cell) :
    Unseen SameButFetchView i s { s with icache := cells } where
  start := ⟨cells, rfl⟩
  reads _ _ := rfl
  pc := rfl
  priv := rfl
  memMap := rfl
  loads _ _ := rfl
  readsCsr c _ _ := readCsr_withFetchView c cells s
  trap _ := ⟨cells, rfl⟩
  writesCsr c v _ := putCsr_sameButFetchView c v ⟨cells, rfl⟩
  writes rd v _ _ _ ht := writeReg_sameButFetchView rd v ht
  stores _ _ _ _ _ ht := by
    obtain ⟨_, rfl⟩ := ht
    exact ⟨_, rfl⟩
  flush _ _ _ _ := ⟨[], rfl⟩
  retires _ _ _ ht := by
    obtain ⟨_, rfl⟩ := ht
    exact ⟨_, rfl⟩
  retiresUncounted _ _ ht := by
    obtain ⟨_, rfl⟩ := ht
    exact ⟨_, rfl⟩

/-- Settles O32: every operation keeps all but the fetch view independent of the fetch view. -/
theorem executionDoesNotReadFetchView : Obligations.ExecutionDoesNotReadFetchView := by
  intro i s cells
  obtain ⟨t, u, ht, hu, ⟨_, rfl⟩⟩ := exec_unseen (unseen_fetchView i s cells)
  exact ⟨t, _, ht, hu, rfl⟩

/-! ### CSRs without effect (R112, R357) -/

/-- A CSR that no trap and no counter uses. -/
def Inert (c : Csr) : Prop :=
  c ∉ [.mtvec, .mstatus, .mepc, .mcause, .mtval] ∧ c ∉ counterCsrs

theorem takeTrap_putCsr {c : Csr} (hc : Inert c) (e : Exception) (v : Word) (s : State) :
    takeTrap e (putCsr c v s) = putCsr c v (takeTrap e s) := by
  obtain ⟨htrap, hcount⟩ := hc
  cases c with
  | mtvec | mstatus | mepc | mcause | mtval => exact absurd (by decide) htrap
  | mcycle | minstret | ucycle | uinstret | ucycleh | uinstreth => exact absurd (by decide) hcount
  | _ => rfl

theorem retireTo_putCsr {c : Csr} (hc : Inert c) (p v : Word) (s : State) :
    retireTo p (putCsr c v s) = putCsr c v (retireTo p s) := by
  obtain ⟨-, hcount⟩ := hc
  cases c with
  | minstret => exact absurd (by decide) hcount
  | _ => rfl

theorem retireUncounted_putCsr (c : Csr) (v : Word) (s : State) :
    retireUncounted (putCsr c v s) = putCsr c v (retireUncounted s) := by
  cases c <;> rfl

theorem flushFetchView_putCsr (c : Csr) (v : Word) (s : State) :
    flushFetchView (putCsr c v s) = putCsr c v (flushFetchView s) := by
  cases c <;> rfl

theorem storeByte_putCsr (a : Word) (b : Byte) (c : Csr) (v : Word) (s : State) :
    storeByte a b (putCsr c v s) = putCsr c v (storeByte a b s) := by
  cases c <;> rfl

theorem endStep_putCsr {c : Csr} (hc : Inert c) (v : Word) (s : State) :
    endStep (putCsr c v s) = putCsr c v (endStep s) := by
  obtain ⟨-, hcount⟩ := hc
  cases c with
  | mcycle => exact absurd (by decide) hcount
  | _ => rfl

/-- Another value in an inert CSR, under an instruction that accesses no CSR. -/
theorem unseen_putCsr {i : Instr} (hi : csrAccess i = none) {c : Csr} (hc : Inert c) (v : Word)
    (s : State) : Unseen (fun t t' => t' = putCsr c v t) i s (putCsr c v s) where
  start := rfl
  reads r _ := readReg_putCsr c v s r
  pc := putCsr_pc ..
  priv := putCsr_priv ..
  memMap := putCsr_memMap ..
  loads _ := memByte_congr (putCsr_mem ..)
  readsCsr _ _ ha := absurd ha (by simp [hi])
  trap e := takeTrap_putCsr hc e v s
  writesCsr _ _ ha := absurd ha (by simp [hi])
  writes rd u t _ _ ht := ht ▸ (putCsr_writeReg c v rd u t).symm
  stores _ a b t _ ht := ht ▸ storeByte_putCsr a b c v t
  flush _ _ _ _ := flushFetchView_putCsr c v s
  retires p t _ ht := ht ▸ retireTo_putCsr hc p v t
  retiresUncounted t _ ht := ht ▸ retireUncounted_putCsr c v t

/-- The fetch and the decoding look at no CSR. -/
theorem nextInstr_putCsr (c : Csr) (v : Word) (s : State) :
    nextInstr (putCsr c v s) = nextInstr s := by
  have hword (a : Word) : imemWord (putCsr c v s) a = imemWord s a := by
    simp only [imemWord, imemByte_congr (putCsr_mem c v s) (putCsr_icache c v s)]
  simp only [nextInstr, putCsr_pc, putCsr_memMap, hword]

/-- Settles O30: no phase of the step sees the CSR, and each leaves its value. -/
theorem inertCsrsHaveNoEffect : Obligations.InertCsrsHaveNoEffect := by
  intro s c v htrap hcount hi
  have hc : Inert c := ⟨htrap, hcount⟩
  cases hn : nextInstr s with
  | error e =>
    rw [step_of_error hn, step_of_error ((nextInstr_putCsr c v s).trans hn), takeTrap_putCsr hc,
      endStep_putCsr hc, mapNext]
  | ok i =>
    obtain ⟨t, t', ht, ht', rfl⟩ := exec_unseen (unseen_putCsr (hi i hn) hc v s)
    rw [step_of_ok hn ht, step_of_ok ((nextInstr_putCsr c v s).trans hn) ht', endStep_putCsr hc,
      mapNext]

end Sys2Proof.Machine
end

section
/-! The exact readings of sums and differences (`41_integer.md` R230), the shifts by an immediate
(`45_shift.md` R280, R281, R285), and JALR (`42_jump.md` R241). -/

namespace Sys2Proof.Machine

/-! ### Sums and differences -/

/-- What a register instruction leaves in the registers. -/
theorem writesRegister_of_setRegister {i : Instr} {s t : State} {rd : RegNum} {v : Word}
    (h : exec i s = setRegister rd v s) (ht : exec i s = .next t) : WritesRegister s t rd v := by
  obtain ⟨u, hu, hregs, -⟩ := registerResult_of_setRegister h
  obtain rfl : u = t := Host.Outcome.next.inj (hu.symm.trans ht)
  exact hregs

theorem WritesRegister.same {s t : State} {rd : RegNum} {v : Word} (h : WritesRegister s t rd v)
    (hrd : rd ≠ 0#5) : readReg t rd = v := by
  rw [h rd, if_neg hrd, if_pos rfl]

theorem WritesRegister.of_ne {s t : State} {rd r : RegNum} {v : Word} (h : WritesRegister s t rd v)
    (hr : r ≠ rd) : readReg t r = readReg s r := by
  rw [h r, if_neg hr]
  split
  · next h0 => rw [h0, readReg_zero]
  · rfl

theorem imm12Value_toInt (imm : BitVec 12) : (imm12Value imm).toInt = imm.toInt :=
  BitVec.toInt_signExtend_of_le (by decide)

/-- R222: the unsigned comparison of a sum with its first operand is the carry out. -/
theorem truthWord_lessUnsigned_add (a b : Word) :
    (truthWord (lessUnsigned (a + b) a)).toNat = (a.toNat + b.toNat) / 2 ^ 32 := by
  rw [truthWord_lessUnsigned, BitVec.toNat_add]
  have ha := a.isLt
  have hb := b.isLt
  split
  · rw [BitVec.toNat_ofNat]; omega
  · rw [BitVec.toNat_ofNat]; omega

/-- Settles O36: the results are sums and differences of words, whose readings are the exact ones
reduced to 32 bits. -/
theorem arithmeticIsModular : Obligations.ArithmeticIsModular := by
  intro s t u v rd rs1 rs2 imm hrd ht hu hv
  have hadd : WritesRegister s t rd (readReg s rs1 + readReg s rs2) :=
    writesRegister_of_setRegister rfl ht
  have hsub : WritesRegister s u rd (readReg s rs1 - readReg s rs2) :=
    writesRegister_of_setRegister rfl hu
  have haddi : WritesRegister s v rd (readReg s rs1 + imm12Value imm) :=
    writesRegister_of_setRegister rfl hv
  refine ⟨?_, ?_, ?_, ?_, fun hne r hr => ?_⟩
  · rw [hadd.same hrd, BitVec.toNat_add]
  · rw [hadd.same hrd, BitVec.toInt_add]
  · rw [hsub.same hrd, BitVec.toInt_sub]
  · rw [haddi.same hrd, BitVec.toInt_add, imm12Value_toInt]
  · obtain ⟨w, hw⟩ := everyInstructionAnswersNext (.sltu r rd rs1) t
    have hcarry : WritesRegister t w r (truthWord (lessUnsigned (readReg t rd) (readReg t rs1))) :=
      writesRegister_of_setRegister rfl hw
    refine ⟨w, hw, ?_⟩
    rw [hcarry.same hr, hadd.same hrd, hadd.of_ne hne, truthWord_lessUnsigned_add]

/-! ### Shifts by an immediate -/

/-- Settles O40: each word decodes by its row of the table, and the shifted words have the exact
readings. -/
theorem immediateLogicalShiftResults : Obligations.ImmediateLogicalShiftResults := by
  intro s rd rs1 shamt
  have hslli : exec (.slli rd rs1 shamt) s =
      setRegister rd (shiftLeft (readReg s rs1) shamt) s := rfl
  have hsrli : exec (.srli rd rs1 shamt) s =
      setRegister rd (shiftRightLogical (readReg s rs1) shamt) s := rfl
  exact ⟨shiftLeft (readReg s rs1) shamt, shiftRightLogical (readReg s rs1) shamt,
    shiftLeft_toNat .., decode_encodeR registerRow_slli_mem rd rs1 shamt,
    registerResult_of_setRegister hslli, shiftRightLogical_toNat ..,
    decode_encodeR registerRow_srli_mem rd rs1 shamt, registerResult_of_setRegister hsrli⟩

/-- R280, bit by bit: copies of bit 31 enter. -/
theorem shiftRightArith_getLsbD (a : Word) (n : BitVec 5) {k : Nat} (hk : k < 32) :
    (shiftRightArith a n).getLsbD k = a.getLsbD (min 31 (k + n.toNat)) := by
  rw [shiftRightArith, BitVec.getLsbD_sshiftRight]
  by_cases h : n.toNat + k < 32
  · have hmin : min 31 (k + n.toNat) = n.toNat + k := by omega
    simp [hmin, h, hk]
  · have hmin : min 31 (k + n.toNat) = 31 := by omega
    simp [hmin, h, hk, BitVec.msb_eq_getLsbD_last]

/-- Settles O41: the word decodes by its row of the table, and the shift has both readings. -/
theorem immediateArithmeticShiftResults : Obligations.ImmediateArithmeticShiftResults := by
  intro s rd rs1 shamt
  have hsrai : exec (.srai rd rs1 shamt) s =
      setRegister rd (shiftRightArith (readReg s rs1) shamt) s := rfl
  exact ⟨shiftRightArith (readReg s rs1) shamt, fun _ hk => shiftRightArith_getLsbD _ _ hk,
    shiftRightArith_toInt .., decode_encodeR registerRow_srai_mem rd rs1 shamt,
    registerResult_of_setRegister hsrai⟩

/-! ### JALR -/

/-- Settles O43: the word decodes by its row of the table, and the target is computed before the
link is written. -/
theorem jalrResults : Obligations.JalrResults := by
  intro s rd rs1 offset
  have hlink : exec (.jalr rd rs1 offset) s =
      jumpAndLink rd ((readReg s rs1 + offset.signExtend 32) &&& 0xFFFFFFFE#32) s := rfl
  exact ⟨decode_encodeI immediateRow_jalr_mem rd rs1 offset, registerResult_of_jumpAndLink hlink⟩

end Sys2Proof.Machine
end

section
/-! Loads, stores and fences (`44_memory_ops.md` R260 to R270, `46_sync.md` R290 to R292): the
S-type words read back, the checks of an access, and what an access that passes them does. -/

namespace Sys2Proof

/-- The encoder puts the two parts of a store offset back where the word of R143 holds them. -/
theorem encodeS_append (hi : BitVec 7) (lo : BitVec 5) (rs2 rs1 : RegNum) (f3 : BitVec 3)
    (op : BitVec 7) : encodeS (hi ++ lo) rs2 rs1 f3 op = hi ++ rs2 ++ rs1 ++ f3 ++ lo ++ op := by
  apply BitVec.eq_of_getLsbD_eq
  intro i h
  simp only [encodeS, BitVec.getLsbD_extractLsb', BitVec.getLsbD_append]
  interval_cases i <;> simp

/-- An S-type word written part by part decodes with the offset reassembled. -/
theorem decode_storeWord {f3 : BitVec 3} {mk : RegNum → BitVec 12 → RegNum → Instr}
    (hr : storeRow f3 mk ∈ opcodeTable) (hi : BitVec 7) (lo : BitVec 5) (rs2 rs1 : RegNum) :
    decode (hi ++ rs2 ++ rs1 ++ f3 ++ lo ++ 0b0100011#7) = .ok (mk rs2 (hi ++ lo) rs1) := by
  rw [← encodeS_append]
  exact decode_encodeS hr rs2 rs1 (hi ++ lo)

namespace Machine

/-! ### Loads -/

section
variable {n : Nat} {value : State → Word → Word} {rd : RegNum} {ea : Word} {s : State} {i : Instr}

/-- A load that passes its checks sets `rd` to the value read (R269, R270). -/
theorem registerResult_of_load (h : exec i s = load n value rd ea s) (ha : ea.toNat % n = 0)
    (hm : mapLoad s.memMap ea n = true) : RegisterResult i s rd (value s ea) (s.pc + 4#32) := by
  refine registerResult_of_setRegister ?_
  simp [h, load, loadException, (misaligned_false_iff n ea).mpr ha, hm, setRegister]

/-- A load from a misaligned address traps, whatever the map says (R107). -/
theorem trapsWith_of_misaligned_load (h : exec i s = load n value rd ea s) (ha : ea.toNat % n ≠ 0) :
    TrapsWith i s 4 s.pc ea := by
  refine trapsWith_of_raise (e := .loadAddrMisaligned ea) ?_
  simp [h, load, loadException, (misaligned_iff n ea).mpr ha]

/-- A load from an aligned address that does not answer traps (R108). -/
theorem trapsWith_of_unmapped_load (h : exec i s = load n value rd ea s) (ha : ea.toNat % n = 0)
    (hm : mapLoad s.memMap ea n = false) : TrapsWith i s 5 s.pc ea := by
  refine trapsWith_of_raise (e := .loadAccessFault ea) ?_
  simp [h, load, loadException, (misaligned_false_iff n ea).mpr ha, hm]

end

/-- Settles O47: both are byte loads, which no address misaligns. -/
theorem byteLoadOutcomes : Obligations.ByteLoadOutcomes := by
  rintro s rd rs1 offset ea rfl
  have hlb : exec (.lb rd offset rs1) s = load 1 (fun t ea => (memByte t ea).signExtend 32) rd
      (effectiveAddress s rs1 offset) s := rfl
  have hlbu : exec (.lbu rd offset rs1) s = load 1 (fun t ea => (memByte t ea).zeroExtend 32) rd
      (effectiveAddress s rs1 offset) s := rfl
  have ha := Nat.mod_one (effectiveAddress s rs1 offset).toNat
  exact ⟨rfl, decode_encodeI immediateRow_lb_mem rd rs1 offset,
    decode_encodeI immediateRow_lbu_mem rd rs1 offset,
    fun hm => ⟨registerResult_of_load hlb ha hm, registerResult_of_load hlbu ha hm⟩,
    fun hm => ⟨trapsWith_of_unmapped_load hlb ha hm, trapsWith_of_unmapped_load hlbu ha hm⟩⟩

/-- Settles O48: both are halfword loads, with the alignment checked before the map. -/
theorem halfwordLoadOutcomes : Obligations.HalfwordLoadOutcomes := by
  rintro s rd rs1 offset ea rfl
  have hlh : exec (.lh rd offset rs1) s = load 2 (fun t ea => (memHalf t ea).signExtend 32) rd
      (effectiveAddress s rs1 offset) s := rfl
  have hlhu : exec (.lhu rd offset rs1) s = load 2 (fun t ea => (memHalf t ea).zeroExtend 32) rd
      (effectiveAddress s rs1 offset) s := rfl
  exact ⟨rfl, decode_encodeI immediateRow_lh_mem rd rs1 offset,
    decode_encodeI immediateRow_lhu_mem rd rs1 offset,
    fun ha hm => ⟨registerResult_of_load hlh ha hm, registerResult_of_load hlhu ha hm⟩,
    fun ha => ⟨trapsWith_of_misaligned_load hlh ha, trapsWith_of_misaligned_load hlhu ha⟩,
    fun ha hm => ⟨trapsWith_of_unmapped_load hlh ha hm, trapsWith_of_unmapped_load hlhu ha hm⟩⟩

/-- Settles O49: a word load, with the alignment checked before the map. -/
theorem wordLoadOutcomes : Obligations.WordLoadOutcomes := by
  rintro s rd rs1 offset ea rfl
  have hlw : exec (.lw rd offset rs1) s = load 4 (fun t ea => memWord t ea) rd
      (effectiveAddress s rs1 offset) s := rfl
  exact ⟨rfl, decode_encodeI immediateRow_lw_mem rd rs1 offset,
    fun ha hm => registerResult_of_load hlw ha hm, fun ha => trapsWith_of_misaligned_load hlw ha,
    fun ha hm => trapsWith_of_unmapped_load hlw ha hm⟩

/-! ### Stores -/

section
variable {n : Nat} {v ea : Word} {s : State} {i : Instr}

/-- A store that passes its checks writes its bytes and goes on (R269). -/
theorem exec_of_store (h : exec i s = store n v ea s) (ha : ea.toNat % n = 0)
    (hm : mapStore s.memMap ea n = true) :
    exec i s = .next (retire (storeBytes ea (lowBytes v n) s)) := by
  simp [h, store, storeException, (misaligned_false_iff n ea).mpr ha, hm]

/-- A store that passes its checks changes its bytes of `Mem` and nothing else (R105, R125). -/
theorem storeResult_of_store (hn : n ≤ 4) (h : exec i s = store n v ea s) (ha : ea.toNat % n = 0)
    (hm : mapStore s.memMap ea n = true) : StoreResult i s ea n v := by
  have hbytes : StoresBytes s (retire (storeBytes ea (lowBytes v n) s)) ea n v :=
    ⟨memByte_storeBytes_lowBytes hn ea v s, imemByte_storeBytes _ ea s⟩
  exact ⟨_, exec_of_store h ha hm, hbytes, fun r => by simp, ⟨by simp, by simp⟩, by simp, by simp,
    by simp, by simp, by simp⟩

/-- A store to a misaligned address traps, whatever the map says (R107). -/
theorem trapsWith_of_misaligned_store (h : exec i s = store n v ea s) (ha : ea.toNat % n ≠ 0) :
    TrapsWith i s 6 s.pc ea := by
  refine trapsWith_of_raise (e := .storeAddrMisaligned ea) ?_
  simp [h, store, storeException, (misaligned_iff n ea).mpr ha]

/-- A store to an aligned address that does not answer traps (R108). -/
theorem trapsWith_of_unmapped_store (h : exec i s = store n v ea s) (ha : ea.toNat % n = 0)
    (hm : mapStore s.memMap ea n = false) : TrapsWith i s 7 s.pc ea := by
  refine trapsWith_of_raise (e := .storeAccessFault ea) ?_
  simp [h, store, storeException, (misaligned_false_iff n ea).mpr ha, hm]

end

/-- Settles O50: a byte store, which no address misaligns. -/
theorem byteStoreOutcomes : Obligations.ByteStoreOutcomes := by
  rintro s rs1 rs2 hi lo ea rfl
  have hsb : exec (.sb rs2 (hi ++ lo) rs1) s =
      store 1 (readReg s rs2) (effectiveAddress s rs1 (hi ++ lo)) s := rfl
  have ha := Nat.mod_one (effectiveAddress s rs1 (hi ++ lo)).toNat
  exact ⟨rfl, decode_storeWord storeRow_sb_mem hi lo rs2 rs1,
    fun hm => storeResult_of_store (by decide) hsb ha hm,
    fun hm => trapsWith_of_unmapped_store hsb ha hm⟩

/-- Settles O51: a halfword store, with the alignment checked before the map. -/
theorem halfwordStoreOutcomes : Obligations.HalfwordStoreOutcomes := by
  rintro s rs1 rs2 hi lo ea rfl
  have hsh : exec (.sh rs2 (hi ++ lo) rs1) s =
      store 2 (readReg s rs2) (effectiveAddress s rs1 (hi ++ lo)) s := rfl
  exact ⟨rfl, decode_storeWord storeRow_sh_mem hi lo rs2 rs1,
    fun ha hm => storeResult_of_store (by decide) hsh ha hm,
    fun ha => trapsWith_of_misaligned_store hsh ha,
    fun ha hm => trapsWith_of_unmapped_store hsh ha hm⟩

/-- Settles O52: a word store, with the alignment checked before the map. -/
theorem wordStoreOutcomes : Obligations.WordStoreOutcomes := by
  rintro s rs1 rs2 hi lo ea rfl
  have hsw : exec (.sw rs2 (hi ++ lo) rs1) s =
      store 4 (readReg s rs2) (effectiveAddress s rs1 (hi ++ lo)) s := rfl
  exact ⟨rfl, decode_storeWord storeRow_sw_mem hi lo rs2 rs1,
    fun ha hm => storeResult_of_store (by decide) hsw ha hm,
    fun ha => trapsWith_of_misaligned_store hsw ha,
    fun ha hm => trapsWith_of_unmapped_store hsw ha hm⟩

/-! ### Narrow loads of a stored word (R115) -/

/-- The word `v` lies at `ea`, little-endian. -/
def HoldsWord (t : State) (ea v : Word) : Prop :=
  ∀ k < 4, memByte t (ea + BitVec.ofNat 32 k) = v.extractLsb' (8 * k) 8

/-- A store of a word leaves it at its address. -/
theorem holdsWord_retire_storeBytes (ea v : Word) (s : State) :
    HoldsWord (retire (storeBytes ea (lowBytes v 4) s)) ea v := by
  intro k hk
  have hoff : (ea + BitVec.ofNat 32 k - ea).toNat = k := by bv_omega
  rw [memByte_congr (retire_mem _), memByte_storeBytes_lowBytes (n := 4) (by decide), hoff,
    if_pos hk]

/-- Two bytes of a word in a row are the half that they make up. -/
theorem byte_append_byte (v : Word) (j : Nat) :
    v.extractLsb' (j + 8) 8 ++ v.extractLsb' j 8 = v.extractLsb' j 16 := by
  apply BitVec.eq_of_getLsbD_eq
  intro i hi
  simp only [BitVec.getLsbD_append, BitVec.getLsbD_extractLsb']
  by_cases h : i < 8
  · simp [h, hi]
  · have : j + 8 + (i - 8) = j + i := by omega
    simp [h, hi, this, show i - 8 < 8 by omega]

/-- The byte loads of a stored word read its bytes. -/
theorem HoldsWord.byteLoads {t : State} {ea v : Word} (h : HoldsWord t ea v) {rd r : RegNum}
    {off : BitVec 12} {k : Nat} (hk : k < 4)
    (hea : effectiveAddress t r off = ea + BitVec.ofNat 32 k)
    (hm : mapLoad t.memMap (ea + BitVec.ofNat 32 k) 1 = true) :
    RegisterResult (.lbu rd off r) t rd ((v.extractLsb' (8 * k) 8).zeroExtend 32) (t.pc + 4#32) ∧
    RegisterResult (.lb rd off r) t rd ((v.extractLsb' (8 * k) 8).signExtend 32) (t.pc + 4#32) := by
  obtain ⟨-, -, -, hload, -⟩ := byteLoadOutcomes t rd r off _ hea.symm
  rw [← h k hk]
  exact (hload hm).symm

/-- The halfword loads of a stored word read its halves. -/
theorem HoldsWord.halfwordLoads {t : State} {ea v : Word} (h : HoldsWord t ea v) {rd r : RegNum}
    {off : BitVec 12} {k : Nat} (hk : k < 4)
    (hea : effectiveAddress t r off = ea + BitVec.ofNat 32 k)
    (ha : ea.toNat % 4 = 0) (heven : k % 2 = 0)
    (hm : mapLoad t.memMap (ea + BitVec.ofNat 32 k) 2 = true) :
    RegisterResult (.lhu rd off r) t rd ((v.extractLsb' (8 * k) 16).zeroExtend 32) (t.pc + 4#32) ∧
    RegisterResult (.lh rd off r) t rd ((v.extractLsb' (8 * k) 16).signExtend 32)
      (t.pc + 4#32) := by
  obtain ⟨-, -, -, hload, -⟩ := halfwordLoadOutcomes t rd r off _ hea.symm
  have haligned : (ea + BitVec.ofNat 32 k).toNat % 2 = 0 := by bv_omega
  have hnext : ea + BitVec.ofNat 32 k + 1#32 = ea + BitVec.ofNat 32 (k + 1) := by bv_omega
  rw [← byte_append_byte, ← Nat.mul_succ, ← h k hk, ← h (k + 1) (by omega), ← hnext]
  exact (hload haligned hm).symm

/-- The word load of a stored word reads it whole. -/
theorem HoldsWord.wordLoad {t : State} {ea v : Word} (h : HoldsWord t ea v) {rd r : RegNum}
    {off : BitVec 12} (hea : effectiveAddress t r off = ea) (ha : ea.toNat % 4 = 0)
    (hm : mapLoad t.memMap ea 4 = true) : RegisterResult (.lw rd off r) t rd v (t.pc + 4#32) := by
  obtain ⟨-, -, hload, -⟩ := wordLoadOutcomes t rd r off _ hea.symm
  have h0 := h 0 (by decide)
  rw [BitVec.add_zero] at h0
  have hv : memByte t (ea + 3#32) ++ memByte t (ea + 2#32) ++ memByte t (ea + 1#32) ++
      memByte t ea = v := by
    rw [h0, h 1 (by decide), h 2 (by decide), h 3 (by decide)]
    exact wordOfBytes_wordByte v
  rw [hv] at hload
  exact hload ha hm

/-- Settles O53: the stored word lies at `ea`, and each load reads its part of it. -/
theorem narrowLoadsAfterWordStore : Obligations.NarrowLoadsAfterWordStore := by
  rintro s t rs1 rs2 rd r offset off ea v k rfl rfl ha hm ht hk hea
  have hsw := exec_of_store (i := .sw rs2 offset rs1) (v := readReg s rs2) rfl ha hm
  obtain rfl : retire _ = t := Host.Outcome.next.inj (hsw.symm.trans ht)
  have hword := holdsWord_retire_storeBytes (effectiveAddress s rs1 offset) (readReg s rs2) s
  refine ⟨fun hl => hword.byteLoads hk hea hl,
    fun heven hl => hword.halfwordLoads hk hea ha heven hl, ?_⟩
  rintro rfl hl
  exact hword.wordLoad (by rw [hea, BitVec.add_zero]) ha hl

/-! ### Fences -/

/-- Settles O54: FENCEI flushes the fetch view and FENCE only retires, whatever their fields hold.
-/
theorem fenceResults : Obligations.FenceResults := by
  intro s rd rs1 imm fm pred succ
  have hfence : decode (encodeI (fm ++ pred ++ succ) rs1 0b000 rd 0x0F) =
      .ok (.fence fm pred succ rs1 rd) := decode_encodeI_fence fm pred succ rs1 rd
  exact ⟨decode_encodeI immediateRow_fencei_mem rd rs1 imm,
    ⟨retire (flushFetchView s), rfl, fun r => by simp, ⟨rfl, rfl⟩, rfl, rfl, rfl, ⟨rfl, rfl⟩,
      memByte_congr rfl, imemByte_flushFetchView s⟩,
    hfence, onlyGoesTo_of_retireTo rfl⟩

end Machine

end Sys2Proof
end

section
/-! The CSR instructions (`47_system.md` R300 to R312, `10_state.md` R40 to R84): the addresses and
views, the six forms at every address, and sequences that read back what a CSR holds. -/

namespace Sys2Proof.Machine

/-! ### Addresses and views -/

/-- A 64-bit counter is its two halves. -/
theorem extractLsb'_halves (x : BitVec 64) : x = x.extractLsb' 32 32 ++ x.extractLsb' 0 32 := by
  apply BitVec.eq_of_getLsbD_eq
  intro i hi
  simp only [BitVec.getLsbD_append, BitVec.getLsbD_extractLsb']
  by_cases h : i < 32
  · simp [h]
  · have : 32 + (i - 32) = i := by omega
    simp [h, this, show i - 32 < 32 by omega]

/-- Settles O57: the addresses of the list, each found at its own, and the halves of the counters.
-/
theorem csrAddressesAndViews : Obligations.CsrAddressesAndViews := by
  refine ⟨rfl, fun a c => ⟨csrAt_some, ?_⟩, fun c => ?_,
    fun s => ⟨rfl, rfl, extractLsb'_halves s.cycle, extractLsb'_halves s.instret⟩⟩
  · rintro rfl
    exact csrAt_address c
  · cases c <;> decide

/-! ### The six forms -/

/-- The end of a CSR instruction leaves the CSR that the instruction wrote. -/
theorem readCsr_retireCsr {c : Csr} (h : csrReadOnly c = false) (s : State) :
    readCsr c (retireCsr c s) = readCsr c s := by
  cases c with
  | ucycle | uinstret | ucycleh | uinstreth => exact absurd h (by decide)
  | _ => rfl

/-- A form that writes a CSR that is not read-only reads the old value and leaves the new one. -/
theorem csrWritten_of_csrInstr {i : Instr} {w : Word} {s : State} {rd : RegNum} {c : Csr}
    {new : Word → Word} (h : exec i s = csrInstr w rd (csrAddress c) true new s)
    (hc : csrReadOnly c = false) : CsrWritten i s rd c (new (readCsr c s)) := by
  refine ⟨_, h.trans (csrInstr_write w rd new s hc), fun r => ?_, ?_, ?_, fun d hd hcount => ?_, ?_,
    ?_, ?_, ⟨memByte_congr ?_, imemByte_congr ?_ ?_⟩, ?_, ?_⟩
  · rw [readReg_retireCsr, readReg_writeReg, readReg_putCsr]
  · simp
  · rw [readCsr_retireCsr hc, readCsr_writeReg, readCsr_putCsr_same hc]
  · rw [readCsr_congr hcount (retireCsr_csrs ..), readCsr_writeReg, readCsr_putCsr_ne hd hcount]
  · rw [retireCsr_cycle, writeReg_cycle, putCsr_cycle]
  · rw [retireCsr_instret, writeReg_instret, putCsr_instret]
    split <;> rfl
  all_goals simp

/-- What `csrInstr` does at every address is what R300 says of a form. -/
theorem csrForm_of_csrInstr {i : CsrAddr → Instr} {w : CsrAddr → Word} {s : State} {rd : RegNum}
    {doWrite : Bool} {new : Word → Word} (hd : ∀ csr, decode (w csr) = .ok (i csr))
    (he : ∀ csr, exec (i csr) s = csrInstr (w csr) rd csr doWrite new s) :
    CsrForm i w s rd doWrite new := by
  refine ⟨hd, fun csr hnone => ?_, fun c => ?_⟩
  · exact trapsWith_of_raise ((he csr).trans (csrInstr_unlisted _ _ _ _ hnone _))
  · have hc := he (csrAddress c)
    cases doWrite with
    | false => exact registerResult_of_setRegister (hc.trans (csrInstr_read ..))
    | true =>
      cases hro : csrReadOnly c with
      | true => exact trapsWith_of_raise (hc.trans (csrInstr_readOnly _ _ _ _ hro))
      | false => exact csrWritten_of_csrInstr hc hro

/-- Settles O55: each word decodes by its row of the table, and each meaning is `csrInstr` of the
register's value. -/
theorem csrRegisterForms : Obligations.CsrRegisterForms := fun _ rd rs1 =>
  ⟨csrForm_of_csrInstr (decode_encodeI immediateRow_csrrw_mem rd rs1) fun _ => rfl,
    csrForm_of_csrInstr (decode_encodeI immediateRow_csrrs_mem rd rs1) fun _ => rfl,
    csrForm_of_csrInstr (decode_encodeI immediateRow_csrrc_mem rd rs1) fun _ => rfl⟩

/-- R154: the immediate of a CSR form is zero-extended. -/
theorem uimm5Value_eq (uimm : BitVec 5) : uimm5Value uimm = 0#27 ++ uimm := by
  apply BitVec.eq_of_getLsbD_eq
  intro i hi
  simp only [uimm5Value, BitVec.truncate_eq_setWidth, BitVec.getLsbD_setWidth,
    BitVec.getLsbD_append]
  by_cases h : i < 5
  · simp [h, hi]
  · simp [h, BitVec.getLsbD_of_ge uimm i (by omega)]

/-- Settles O56: each word decodes by its row of the table, and each meaning is `csrInstr` of the
zero-extended immediate. -/
theorem csrImmediateForms : Obligations.CsrImmediateForms := by
  intro s rd uimm
  have hrwi := decode_encodeI immediateRow_csrrwi_mem rd uimm
  have hrsi := decode_encodeI immediateRow_csrrsi_mem rd uimm
  have hrci := decode_encodeI immediateRow_csrrci_mem rd uimm
  rw [← uimm5Value_eq]
  exact ⟨csrForm_of_csrInstr hrwi fun _ => rfl, csrForm_of_csrInstr hrsi fun _ => rfl,
    csrForm_of_csrInstr hrci fun _ => rfl⟩

/-! ### Sequences -/

theorem execList_cons {i : Instr} {s t : State} (h : exec i s = .next t) (rest : List Instr) :
    execList (i :: rest) s = execList rest t := by
  rw [execList, h]

theorem execList_pair {i j : Instr} {s t u : State} (hi : exec i s = .next t)
    (hj : exec j t = .next u) : execList [i, j] s = .next u := by
  rw [execList_cons hi, execList_cons hj, execList]

/-- R300: CSRRS with `x0` only reads. -/
theorem csrRead_csrrs (c : Csr) (rd : RegNum) (s : State) :
    CsrRead (.csrrs rd (csrAddress c) 0) s rd c := by
  have h : exec (.csrrs rd (csrAddress c) 0) s = csrInstr (encode (.csrrs rd (csrAddress c) 0)) rd
      (csrAddress c) false (fun old => old ||| readReg s 0) s := rfl
  exact registerResult_of_setRegister (h.trans (csrInstr_read ..))

/-- R303: CSRRW always writes. -/
theorem csrWritten_csrrw {c : Csr} (hc : csrReadOnly c = false) (rd rs1 : RegNum) (s : State) :
    CsrWritten (.csrrw rd (csrAddress c) rs1) s rd c (readReg s rs1) :=
  csrWritten_of_csrInstr (new := fun _ => readReg s rs1) rfl hc

/-- A write of `x0` keeps every register. -/
theorem WritesRegister.keeps {s t : State} {v : Word} (h : WritesRegister s t 0#5 v) :
    KeepsRegisters s t := by
  intro r
  by_cases hr : r = 0#5
  · rw [hr, readReg_zero, readReg_zero]
  · exact h.of_ne hr

theorem WritesRegister.then_keeps {s t u : State} {rd : RegNum} {v : Word}
    (h : WritesRegister s t rd v) (hk : KeepsRegisters t u) : WritesRegister s u rd v :=
  fun r => (hk r).trans (h r)

theorem lowHalf_add_one (x : BitVec 64) :
    (x + 1#64).extractLsb' 0 32 = x.extractLsb' 0 32 + 1#32 := by
  apply BitVec.eq_of_toNat_eq
  simp only [BitVec.extractLsb'_toNat, BitVec.toNat_add, BitVec.toNat_ofNat, Nat.shiftRight_zero]
  omega

/-- Settles O58: the first read counts itself after it has read, and a write of `minstret` does not
count itself. -/
theorem retiredCounterReads : Obligations.RetiredCounterReads := by
  intro s r1 r2 rs1 h1 h2 hne
  constructor
  · obtain ⟨t, ht, htr, ⟨-, hcount⟩, -⟩ := csrRead_csrrs .minstret r1 s
    obtain ⟨u, hu, hur, -⟩ := csrRead_csrrs .minstret r2 t
    refine ⟨u, execList_pair ht hu, (hur.of_ne hne).trans (htr.same h1), (hur.same h2).trans ?_⟩
    exact (congrArg (BitVec.extractLsb' 0 32) hcount).trans (lowHalf_add_one s.instret)
  · obtain ⟨t, ht, -, -, hv, -⟩ := csrWritten_csrrw (c := .minstret) rfl 0 rs1 s
    obtain ⟨u, hu, hur, -⟩ := csrRead_csrrs .minstret r2 t
    exact ⟨u, execList_pair ht hu, (hur.same h2).trans hv⟩

/-- R241: the target of JALR at an offset of 0 is the register with bit 0 cleared. -/
theorem jalrTarget_zero (v : Word) :
    (v + (0#12).signExtend 32) &&& 0xFFFFFFFE#32 = v &&& ~~~1#32 := by
  rw [show (0#12).signExtend 32 = 0#32 by decide, BitVec.add_zero]
  rfl

/-- Settles O17: the read of `mepc` writes `rd` only, and the jump through it writes nothing. -/
theorem handlerReturnsThroughMepc : Obligations.HandlerReturnsThroughMepc := by
  intro s rd hrd
  obtain ⟨t, ht, htr, -, hts⟩ := csrRead_csrrs .mepc rd s
  obtain ⟨-, u, hu, hur, ⟨hpc, -⟩, hus⟩ := jalrResults t 0 rd 0
  obtain ⟨hpriv, hcsrs, -, hmem, -⟩ := hts.trans hus
  refine ⟨u, execList_pair ht hu, ?_, htr.then_keeps hur.keeps, hcsrs, hpriv, hmem⟩
  rw [hpc, htr.same hrd]
  exact jalrTarget_zero s.csrs.mepc

/-- Settles O18: the trap reads the `mtvec` that the write left. -/
theorem vectorWriteSeenByNextTrap : Obligations.VectorWriteSeenByNextTrap := by
  intro s rd rs1
  obtain ⟨t, ht, -, hpc, hv, -⟩ := csrWritten_csrrw (c := .mtvec) rfl rd rs1 s
  obtain ⟨-, -, -, -, -, hcall⟩ := ecallAndEbreakTrap
  obtain ⟨⟨u, hu, hepc, -, -, -, -, -, -, -, hto, hkeep, -⟩, -⟩ := hcall t
  refine ⟨u, execList_pair ht hu, hto.trans hv, (hkeep .mtvec (by decide)).trans hv, ?_⟩
  rw [hepc, hpc, BitVec.add_assoc]
  rfl

/-! ### The worked trap (R385) -/

/-- A step at a placed word whose instruction raises takes that trap. -/
theorem step_placed_raise {s : State} {w : Word} {i : Instr} {e : Exception}
    (h4 : s.pc.toNat % 4 = 0) (hf : mapFetch s.memMap s.pc = true) (hd : decode w = .ok i)
    (he : exec i (placeWord s.pc w s) = raise e (placeWord s.pc w s)) :
    step (s.withFetchWord 32 w.toNat) = .next (endStep (takeTrap e (placeWord s.pc w s))) := by
  refine step_of_ok (nextInstr_withFetchWord h4 hf hd) ?_
  rw [State.withFetchWord, wordOfTable_toNat, he, raise]

/-- The state of R385 that a trap of the instruction placed at `pc` leaves, whatever the exception.
-/
theorem workedTrap_state {s : State} (hpriv : s.priv = .M)
    (hstatus : s.csrs.mstatus = 0x00000008#32) (hvec : s.csrs.mtvec = 0x00000200#32)
    (h5 : readReg s 5 = 0x55555555#32)
    (hcount : s.instret = 40#64) (e : Exception) (w : Word) :
    let v := endStep (takeTrap e (placeWord s.pc w s))
    v.csrs.mstatus = 0x00001880#32 ∧ v.pc = 0x00000200#32 ∧ readReg v 5 = 0x55555555#32 ∧
      v.instret = 40#64 ∧ ∀ a, (4 ≤ (a - s.pc).toNat → memByte v a = memByte s a) := by
  refine ⟨?_, by simpa using hvec, by simpa using h5, by simpa using hcount, fun a ha => ?_⟩
  · simp only [endStep_csrs, takeTrap_csrs, placeWord_csrs, placeWord_priv, hpriv, hstatus]
    decide
  · rw [memByte_endStep, memByte_congr (takeTrap_mem ..), memByte_placeWord, if_neg (by omega)]

/-- Settles O19: the placed LW computes a misaligned address and the placed ECALL raises the
exception of M, and both traps leave the printed state. -/
theorem workedTrapExample : Obligations.WorkedTrapExample := by
  intro s hpc hf h6 h5 hvec hstatus hpriv hcount
  have h4 : s.pc.toNat % 4 = 0 := by rw [hpc]; rfl
  have hlw : exec (.lw 5 0 6) (placeWord s.pc 0x00032283#32 s) =
      raise (.loadAddrMisaligned 0x00001002#32) (placeWord s.pc 0x00032283#32 s) := by
    have hea : effectiveAddress (placeWord s.pc 0x00032283#32 s) 6 0 = 0x00001002#32 := by
      rw [effectiveAddress, readReg_placeWord, h6]
      decide
    rw [exec, execLw, hea, load, loadException, if_pos (by decide)]
  have hcall : exec .ecall (placeWord s.pc 0x00000073#32 s) =
      raise .ecallM (placeWord s.pc 0x00000073#32 s) := by
    rw [exec, execEcall, placeWord_priv, hpriv]
  have hend := workedTrap_state hpriv hstatus hvec h5 hcount
  have hdec : decode 0x00032283#32 = .ok (.lw 5 0 6) := decode_of_encode_eq (by decide) rfl
  refine ⟨_, _, step_placed_raise (w := 0x00032283#32) h4 hf hdec hlw, ?_, rfl, rfl,
    step_placed_raise (w := 0x00000073#32) h4 hf decode_ecall hcall, ?_, rfl, rfl,
    fun v hv => ?_⟩
  · simpa [epcOf] using hpc
  · simp [epcOf, hpc]
  · simp only [List.mem_cons, List.not_mem_nil, or_false] at hv
    obtain rfl | rfl := hv
    · exact hend _ _
    · exact hend _ _

end Sys2Proof.Machine
end

section
/-! The pseudo-instructions (`30_encoding.md` R182 to R186): the words of the single ones, and what
the expansions leave. -/

namespace Sys2Proof.Machine

/-! ### Words -/

/-- The word of an I-type instruction, its register fields put into a word of the other fields. -/
theorem encodeI_eq_or (imm : BitVec 12) (rs1 rd : RegNum) (f3 : BitVec 3) (op : BitVec 7) :
    encodeI imm rs1 f3 rd op =
      encodeI imm 0 f3 0 op ||| rs1.zeroExtend 32 <<< 15 ||| rd.zeroExtend 32 <<< 7 := by
  apply BitVec.eq_of_getLsbD_eq
  intro i hi
  simp only [encodeI, BitVec.getLsbD_or, BitVec.getLsbD_append, BitVec.getLsbD_shiftLeft,
    BitVec.truncate_eq_setWidth, BitVec.getLsbD_setWidth]
  interval_cases i <;> simp

/-- The word of an R-type instruction that reads `x0` first, likewise. -/
theorem encodeR_eq_or (f7 : BitVec 7) (rs2 rd : RegNum) (f3 : BitVec 3) (op : BitVec 7) :
    encodeR f7 rs2 0 f3 rd op =
      encodeR f7 0 0 f3 0 op ||| rs2.zeroExtend 32 <<< 20 ||| rd.zeroExtend 32 <<< 7 := by
  apply BitVec.eq_of_getLsbD_eq
  intro i hi
  simp only [encodeR, BitVec.getLsbD_or, BitVec.getLsbD_append, BitVec.getLsbD_shiftLeft,
    BitVec.truncate_eq_setWidth, BitVec.getLsbD_setWidth]
  interval_cases i <;> simp

/-- The word of a JAL that links in `x0`, the parts of its offset above the other fields. -/
theorem encodeJ_eq_or (off : BitVec 21) (op : BitVec 7) : encodeJ off 0 op =
    encodeJ 0 0 op ||| off.extractLsb' 20 1 ++ off.extractLsb' 1 10 ++ off.extractLsb' 11 1 ++
      off.extractLsb' 12 8 ++ 0#12 := by
  apply BitVec.eq_of_getLsbD_eq
  intro i hi
  simp only [encodeJ, BitVec.getLsbD_or, BitVec.getLsbD_append, BitVec.getLsbD_extractLsb']
  interval_cases i <;> simp

/-! ### Values -/

theorem imm12Value_lowerPart_toNat (v : Word) : (imm12Value (lowerPart v)).toNat =
    v.toNat % 4096 + if 2048 ≤ v.toNat % 4096 then 4294963200 else 0 := by
  simp only [imm12Value, lowerPart, BitVec.toNat_signExtend, BitVec.msb_eq_decide,
    BitVec.toNat_setWidth, BitVec.extractLsb'_toNat, Nat.shiftRight_zero, decide_eq_true_eq]
  split <;> omega

theorem upperValue_upperPart_toNat (v : Word) :
    (upperValue (upperPart v)).toNat = (v.toNat + 2048) % 4294967296 / 4096 * 4096 := by
  simp only [upperValue, upperPart, BitVec.toNat_append, BitVec.extractLsb'_toNat, BitVec.toNat_add,
    BitVec.toNat_ofNat, Nat.shiftRight_eq_div_pow, Nat.shiftLeft_eq, Nat.zero_mod, Nat.or_zero]
  omega

/-- The upper and the lower part of a value add up to it: the upper part makes up for the sign of
the lower (R184). -/
theorem upperPart_add_lowerPart (v : Word) :
    upperValue (upperPart v) + imm12Value (lowerPart v) = v := by
  have hv := v.isLt
  apply BitVec.eq_of_toNat_eq
  rw [BitVec.toNat_add, upperValue_upperPart_toNat, imm12Value_lowerPart_toNat]
  split <;> omega

/-- A value in the range of one ADDI is its lower part (R184). -/
theorem imm12Value_lowerPart {v : Word} (h : fitsImm12 v = true) :
    imm12Value (lowerPart v) = v := by
  have hv := v.isLt
  have hint := BitVec.toInt_eq_toNat_cond v
  simp only [fitsImm12, Bool.and_eq_true, decide_eq_true_eq] at h
  apply BitVec.eq_of_toNat_eq
  rw [imm12Value_lowerPart_toNat]
  split <;> split at hint <;> omega

/-! ### Effects -/

/-- Two writes of one register leave the second value. -/
theorem WritesRegister.trans {s t u : State} {rd : RegNum} {a b : Word}
    (ht : WritesRegister s t rd a) (hu : WritesRegister t u rd b) : WritesRegister s u rd b := by
  intro r
  by_cases hr : r = rd
  · subst hr
    simpa using hu r
  · rw [hu.of_ne hr, ht.of_ne hr, if_neg hr]
    split
    · next h0 => rw [h0, readReg_zero]
    · rfl

/-- Adding to a register what it has just received leaves the sum, which `x0` ignores. -/
theorem WritesRegister.add {s t u : State} {rd : RegNum} {a b : Word} (ht : WritesRegister s t rd a)
    (hu : WritesRegister t u rd (readReg t rd + b)) : WritesRegister s u rd (a + b) := by
  by_cases hrd : rd = 0#5
  · subst hrd
    intro r
    rw [hu.keeps r, ht.keeps r]
    split
    · next h0 => rw [h0, readReg_zero]
    · rfl
  · rw [ht.same hrd] at hu
    exact ht.trans hu

theorem addi_result (s : State) (rd rs1 : RegNum) (imm : BitVec 12) :
    RegisterResult (.addi rd rs1 imm) s rd (readReg s rs1 + imm12Value imm) (s.pc + 4#32) :=
  registerResult_of_setRegister rfl

theorem lui_result (s : State) (rd : RegNum) (imm : BitVec 20) :
    RegisterResult (.lui rd imm) s rd (upperValue imm) (s.pc + 4#32) :=
  registerResult_of_setRegister rfl

theorem auipc_result (s : State) (rd : RegNum) (imm : BitVec 20) :
    RegisterResult (.auipc rd imm) s rd (s.pc + upperValue imm) (s.pc + 4#32) :=
  registerResult_of_setRegister rfl

theorem xori_result (s : State) (rd rs1 : RegNum) (imm : BitVec 12) :
    RegisterResult (.xori rd rs1 imm) s rd (readReg s rs1 ^^^ imm12Value imm) (s.pc + 4#32) :=
  registerResult_of_setRegister rfl

theorem sub_result (s : State) (rd rs1 rs2 : RegNum) :
    RegisterResult (.sub rd rs1 rs2) s rd (readReg s rs1 - readReg s rs2) (s.pc + 4#32) :=
  registerResult_of_setRegister rfl

theorem jal_result (s : State) (rd : RegNum) (off : BitVec 21) :
    RegisterResult (.jal rd off) s rd (s.pc + 4#32) (s.pc + off.signExtend 32) :=
  registerResult_of_jumpAndLink rfl

theorem jalr_result (s : State) (rd rs1 : RegNum) (off : BitVec 12) :
    RegisterResult (.jalr rd rs1 off) s rd (s.pc + 4#32)
      ((readReg s rs1 + imm12Value off) &&& 0xFFFFFFFE#32) :=
  registerResult_of_jumpAndLink rfl

theorem execList_single {i : Instr} {s t : State} (h : exec i s = .next t) :
    execList [i] s = .next t := by
  rw [execList_cons h, execList]

/-- The three expansions of LI leave the immediate. -/
theorem li_result (s : State) (rd : RegNum) (imm : Word) :
    ∃ t, execList (expand (.li rd imm)) s = .next t ∧ WritesRegister s t rd imm ∧
      t.pc = s.pc + 4#32 * BitVec.ofNat 32 (expand (.li rd imm)).length := by
  by_cases hfit : fitsImm12 imm = true
  · obtain ⟨t, ht, hregs, ⟨hpc, -⟩, -⟩ := addi_result s rd 0 (lowerPart imm)
    have hv : readReg s 0 + imm12Value (lowerPart imm) = imm := by
      rw [imm12Value_lowerPart hfit]
      exact BitVec.zero_add imm
    rw [expand, if_pos hfit]
    exact ⟨t, execList_single ht, hv ▸ hregs, hpc⟩
  by_cases hlow : lowerPart imm = 0
  · obtain ⟨t, ht, hregs, ⟨hpc, -⟩, -⟩ := lui_result s rd (upperPart imm)
    have hv : upperValue (upperPart imm) = imm := by
      have hsum := upperPart_add_lowerPart imm
      rw [hlow] at hsum
      exact (BitVec.add_zero _).symm.trans hsum
    rw [expand, if_neg hfit, if_pos hlow]
    exact ⟨t, execList_single ht, hv ▸ hregs, hpc⟩
  · obtain ⟨t, ht, htr, ⟨htpc, -⟩, -⟩ := lui_result s rd (upperPart imm)
    obtain ⟨u, hu, hur, ⟨hupc, -⟩, -⟩ := addi_result t rd rd (lowerPart imm)
    rw [expand, if_neg hfit, if_neg hlow]
    refine ⟨u, execList_pair ht hu, upperPart_add_lowerPart imm ▸ htr.add hur, ?_⟩
    rw [hupc, htpc, BitVec.add_assoc]
    rfl

/-- LA leaves the address that is `delta` from its first instruction (R185). -/
theorem la_result (s : State) (rd : RegNum) (delta : Word) :
    ∃ t, execList (expand (.la rd delta)) s = .next t ∧ WritesRegister s t rd (s.pc + delta) ∧
      t.pc = s.pc + 8#32 := by
  obtain ⟨t, ht, htr, ⟨htpc, -⟩, -⟩ := auipc_result s rd (upperPart delta)
  obtain ⟨u, hu, hur, ⟨hupc, -⟩, -⟩ := addi_result t rd rd (lowerPart delta)
  have hregs := htr.add hur
  rw [BitVec.add_assoc, upperPart_add_lowerPart] at hregs
  refine ⟨u, execList_pair ht hu, hregs, ?_⟩
  rw [hupc, htpc, BitVec.add_assoc]
  rfl

/-- CALL goes on at the address that is `delta` from its first instruction, with the address after
the second in `x1` (R186). -/
theorem call_result (s : State) (delta : Word) :
    ∃ t, execList (expand (.call delta)) s = .next t ∧ WritesRegister s t 1 (s.pc + 8#32) ∧
      t.pc = (s.pc + delta) &&& ~~~1#32 := by
  obtain ⟨t, ht, htr, ⟨htpc, -⟩, -⟩ := auipc_result s 1 (upperPart delta)
  obtain ⟨u, hu, hur, ⟨hupc, -⟩, -⟩ := jalr_result t 1 1 (lowerPart delta)
  rw [htpc, BitVec.add_assoc] at hur
  rw [htr.same (by decide), BitVec.add_assoc, upperPart_add_lowerPart] at hupc
  exact ⟨u, execList_pair ht hu, htr.trans hur, hupc⟩

/-- Settles O60: LI, LA and CALL each put the upper and the lower part of their operand together. -/
theorem multiplePseudoInstructions : Obligations.MultiplePseudoInstructions :=
  fun s rd imm delta => ⟨li_result s rd imm, fun _ => la_result s rd delta, call_result s delta⟩

/-- Settles O59: each expansion is one instruction, whose word and result are known. -/
theorem singlePseudoInstructions : Obligations.SinglePseudoInstructions := by
  intro s rd rs offset
  have hjrWord : encodeI 0 rs 0 0 0x67 = 0x00000067#32 ||| rs.zeroExtend 32 <<< 15 :=
    (encodeI_eq_or 0 rs 0 0 0x67).trans BitVec.or_zero
  refine ⟨by decide, congrArg (fun w => [w]) (encodeI_eq_or 0 rs rd 0 0x13),
    congrArg (fun w => [w]) (encodeI_eq_or 0xFFF rs rd 4 0x13),
    congrArg (fun w => [w]) (encodeR_eq_or 0x20 rs rd 0 0x33), by decide,
    congrArg (fun w => [w]) (encodeJ_eq_or offset 0x6F), congrArg (fun w => [w]) hjrWord, ?_⟩
  obtain ⟨tn, hn, hnr, ⟨hnpc, -⟩, -⟩ := addi_result s 0 0 0
  obtain ⟨tm, hm, hmr, -⟩ := addi_result s rd rs 0
  obtain ⟨tc, hc, hcr, -⟩ := xori_result s rd rs 0xFFF
  obtain ⟨tg, hg, hgr, -⟩ := sub_result s rd 0 rs
  obtain ⟨tr, hr, hrr, ⟨hrpc, -⟩, -⟩ := jalr_result s 0 1 0
  obtain ⟨tj, hj, hjr, ⟨hjpc, -⟩, -⟩ := jal_result s 0 offset
  obtain ⟨tx, hx, hxr, ⟨hxpc, -⟩, -⟩ := jalr_result s 0 rs 0
  have hmv : readReg s rs + imm12Value 0 = readReg s rs := BitVec.add_zero _
  have hnot : readReg s rs ^^^ imm12Value 0xFFF = ~~~readReg s rs := BitVec.xor_allOnes
  rw [hmv] at hmr
  rw [hnot] at hcr
  exact ⟨tn, tm, tc, tg, tr, tj, tx, execList_single hn, hnr.keeps, hnpc, execList_single hm, hmr,
    execList_single hc, hcr, execList_single hg, hgr, execList_single hr, hrr.keeps,
    hrpc.trans (jalrTarget_zero _), execList_single hj, hjr.keeps, hjpc, execList_single hx,
    hxr.keeps, hxpc.trans (jalrTarget_zero _)⟩

end Sys2Proof.Machine
end
